-- ==== Sys2Proof/Word.lean ====
section
/-! DEFINITION. The words of the NRFC core (spec 00_scope.md R5, R6, R7; 10_state.md R21). -/

namespace Sys2Proof

/-- A descriptor register, a command word, an address: `XW = 64` bits (00_scope.md R5). -/
abbrev Word := BitVec 64

/-- A byte of memory (20_memory.md R50). -/
abbrev Byte := BitVec 8

/-- An fp16 pattern (41_formatcaster.md R145). -/
abbrev Half := BitVec 16

/-- An fp32 pattern (41_formatcaster.md R145). -/
abbrev Single := BitVec 32

/-- How many byte addresses there are: `2^XW` (10_state.md R29). -/
abbrev addressSpace : Nat := 2 ^ 64

end Sys2Proof
end

