-- ==== Sys2Proof/Syntax.lean ====
section
/-! DEFINITION. The commands of the core (30_encoding.md R84, opcode_table.json), the registers a host names
(10_state.md R24) and the primitive actions a host takes (30_encoding.md R87). -/

namespace Sys2Proof

/-- The two units of one NRFC core: PK and FC (00_scope.md R1, R2). -/
inductive UnitId where
  | pk
  | fc
  deriving DecidableEq, Repr

/-- The unit that is not this one (42_host_protocol.md R163: "The other unit is not affected"). -/
def UnitId.other : UnitId → UnitId
  | .pk => .fc
  | .fc => .pk

/-- The commands: one constructor per row of the opcode table (30_encoding.md R84). The fields of PACK are
the unsigned numbers of its command word, used as they stand (30_encoding.md R82); the other operands of a
command are in the descriptor registers of its unit. -/
inductive Instr where
  /-- PACK, written to PK_CMD (40_packer.md R104). -/
  | pack (ctype bits blklen : Nat)
  /-- F16TOF32, written to FC_CMD (41_formatcaster.md R131). -/
  | f16ToF32
  /-- F32TOF16, written to FC_CMD (41_formatcaster.md R140). -/
  | f32ToF16
  deriving DecidableEq, Repr

/-- The unit whose CMD register accepts the command (30_encoding.md R84, column "accepted at"). -/
def Instr.unit : Instr → UnitId
  | .pack _ _ _ => .pk
  | .f16ToF32 => .fc
  | .f32ToF16 => .fc

/-- The sixteen 64-bit registers of the block, reserved offsets among them (10_state.md R24). -/
inductive Reg where
  | pkN | pkK | pkSrc | pkDst | pkCmd | pkStatus | rsv30 | rsv38
  | fcCount | fcSrc | fcDst | fcCmd | fcStatus | rsv68 | rsv70 | rsv78
  deriving DecidableEq, Repr

/-- The offset of a register from NRFC_BASE (10_state.md R24). -/
def Reg.offset : Reg → Nat
  | .pkN => 0x00
  | .pkK => 0x08
  | .pkSrc => 0x10
  | .pkDst => 0x18
  | .pkCmd => 0x20
  | .pkStatus => 0x28
  | .rsv30 => 0x30
  | .rsv38 => 0x38
  | .fcCount => 0x40
  | .fcSrc => 0x48
  | .fcDst => 0x50
  | .fcCmd => 0x58
  | .fcStatus => 0x60
  | .rsv68 => 0x68
  | .rsv70 => 0x70
  | .rsv78 => 0x78

/-- The CMD register of a unit (10_state.md R25). -/
def UnitId.cmdReg : UnitId → Reg
  | .pk => .pkCmd
  | .fc => .fcCmd

/-- The STATUS register of a unit (10_state.md R26). -/
def UnitId.statusReg : UnitId → Reg
  | .pk => .pkStatus
  | .fc => .fcStatus

/-- What acts on the core from outside: the primitive host actions of 30_encoding.md R87, and the
platform's reset (70_reset_and_hazards.md R210). An access of the register block names the offset
from NRFC_BASE (the block has 0x80 bytes) and its width in bytes, so that the accesses R33 leaves without an
effect can be written down too. -/
inductive HostAction where
  /-- A write of `bytes` bytes at `NRFC_BASE + off`. `WR reg, v` is the one with `bytes = 8`. -/
  | regWrite (off : BitVec 7) (bytes : Nat) (v : Word)
  /-- A read of `bytes` bytes at `NRFC_BASE + off`. `RD reg` is the one with `bytes = 8`. -/
  | regRead (off : BitVec 7) (bytes : Nat)
  /-- `WAIT u`: read STATUS of `u` until its STATE is not BUSY. -/
  | wait (u : UnitId)
  /-- `MEMW a, bs`: store the bytes at `a`, `a + 1`, … -/
  | memWrite (a : Word) (bs : List Byte)
  /-- `MEMR a, n`: load the `n` bytes at `a`, `a + 1`, … -/
  | memRead (a : Word) (n : Nat)
  /-- The platform resets the core (70_reset_and_hazards.md R210). -/
  | platformReset
  deriving DecidableEq, Repr

/-- `WR r, v` (30_encoding.md R87). -/
def HostAction.wr (r : Reg) (v : Word) : HostAction := .regWrite (BitVec.ofNat 7 r.offset) 8 v

/-- `RD r` (30_encoding.md R87). -/
def HostAction.rd (r : Reg) : HostAction := .regRead (BitVec.ofNat 7 r.offset) 8

/-- What an action answered to its host (42_host_protocol.md R171). -/
inductive Reading where
  /-- `RD`: the register's value. -/
  | reg (off : BitVec 7) (v : Word)
  /-- `WAIT`: "the last value read is the result" (30_encoding.md R87). -/
  | waited (u : UnitId) (v : Word)
  /-- `MEMR`: the bytes. -/
  | mem (a : Word) (bs : List Byte)
  deriving DecidableEq, Repr

/-- Who takes a step (42_host_protocol.md R160): the host of this number, or a unit. -/
inductive Agent where
  | host (i : Nat)
  | unit (u : UnitId)
  deriving DecidableEq, Repr

end Sys2Proof
end

