-- ==== Sys2Proof/WellFormed.lean ====
section
/-! DEFINITION. Which instructions have a command word: every field fits the width of 30_encoding.md R80. -/

namespace Sys2Proof

/-- CTYPE has 4 bits, BITS has 4 bits, BLKLEN has 16 bits (30_encoding.md R80). A value that fits but is not
supported is well formed: it decodes and is refused by PACK's own checks (30_encoding.md R85 (b)). -/
def Instr.wellFormed : Instr → Bool
  | .pack ctype bits blklen => decide (ctype < 2 ^ 4) && decide (bits < 2 ^ 4) && decide (blklen < 2 ^ 16)
  | .f16ToF32 => true
  | .f32ToF16 => true

end Sys2Proof
end

