-- ==== Sys2Proof/Decode.lean ====
section
/-! DEFINITION. Command words: the format CW (30_encoding.md R80), the decoder (R86) and, after it, the encoder
(R84, R87). -/

namespace Sys2Proof

/-- Why a word is ILLEGAL at a register (30_encoding.md R85 (a)). All of them are reported as ERR_OPCODE. -/
inductive Illegal where
  /-- RSV is not 0. -/
  | reservedNotZero
  /-- OP is no opcode of the unit written: reserved, or an opcode of the other unit. -/
  | notAnOpcodeOfUnit
  /-- An FC opcode with CTYPE, BITS or BLKLEN not 0. -/
  | fcFieldsNotZero
  deriving DecidableEq, Repr

/-- The field `cw[hi:lo]` as an unsigned number, `hi - lo + 1 = width` (00_scope.md R7). -/
def cwField (cw : Word) (lo width : Nat) : Nat := cw.toNat / 2 ^ lo % 2 ^ width

/-- OP, bits 7:0 (30_encoding.md R80). -/
def cwOp (cw : Word) : Nat := cwField cw 0 8

/-- CTYPE, bits 11:8. -/
def cwCtype (cw : Word) : Nat := cwField cw 8 4

/-- BITS, bits 15:12. -/
def cwBits (cw : Word) : Nat := cwField cw 12 4

/-- BLKLEN, bits 31:16. -/
def cwBlklen (cw : Word) : Nat := cwField cw 16 16

/-- RSV, bits 63:32. -/
def cwRsv (cw : Word) : Nat := cwField cw 32 32

/-- `decode(unit, cw)` of 30_encoding.md R86: total, and dependent on the register written. -/
def decode (u : UnitId) (cw : Word) : Except Illegal Instr :=
  if cwRsv cw ≠ 0 then .error .reservedNotZero
  else
    match u with
    | .pk =>
      if cwOp cw = 0x01 then .ok (.pack (cwCtype cw) (cwBits cw) (cwBlklen cw))
      else .error .notAnOpcodeOfUnit
    | .fc =>
      if cwOp cw = 0x02 then
        if cwField cw 8 24 = 0 then .ok .f16ToF32 else .error .fcFieldsNotZero
      else if cwOp cw = 0x03 then
        if cwField cw 8 24 = 0 then .ok .f32ToF16 else .error .fcFieldsNotZero
      else .error .notAnOpcodeOfUnit

/-- The unit to whose CMD register a row of the opcode table is written: FC if the word is a command of FC,
else PK. -/
def unitOfWord (cw : Word) : UnitId :=
  match decode .fc cw with
  | .ok _ => .fc
  | .error _ => .pk

/-- A word of `nbits` bits numbered as the opcode table numbers them; the bits above are 0. A command is
64 bits long (30_encoding.md R80). -/
def tableWord (nbits w : Nat) : Word := BitVec.ofNat 64 (w % 2 ^ nbits)

/-- What the decoder reads from a row's word, at the register the row is written to. -/
def decodeTableWord (nbits w : Nat) : Option Instr :=
  match decode (unitOfWord (tableWord nbits w)) (tableWord nbits w) with
  | .ok i => some i
  | .error _ => none

/-- The command word of an instruction: `cw(PACK, bits, blklen, ctype)`, `cw(F16TOF32)`, `cw(F32TOF16)` of
30_encoding.md R87. -/
def encode : Instr → Word
  | .pack ctype bits blklen => BitVec.ofNat 64 (0x01 + ctype * 2 ^ 8 + bits * 2 ^ 12 + blklen * 2 ^ 16)
  | .f16ToF32 => 0x02
  | .f32ToF16 => 0x03

end Sys2Proof
end

