-- ==== Sys2Proof/Config.lean ====
section
/-! DEFINITION. What an implementation or a platform fixes (00_scope.md R5; 93_implementation_defined.md
Part 2), and the free values: constants without a body, of which nothing can be proved. -/

namespace Sys2Proof

/-- A run of byte addresses backed by memory. -/
structure Region where
  base : Nat
  size : Nat
  deriving DecidableEq, Repr

/-- The OPEN parameters of the platform: `NRFC_BASE` and `MEM_VALID` (00_scope.md R5, 20_memory.md R55). They
are configuration, not state (10_state.md R31): a state carries one because the step has no other argument,
and no step writes it. -/
structure Platform where
  /-- NRFC_BASE, the address of the register block. -/
  nrfcBase : Word
  /-- MEM_VALID, as the regions of ordinary memory. -/
  regions : List Region
  deriving DecidableEq, Repr

/-- The size of the register block (10_state.md R24). -/
def Config.blockBytes : Nat := 0x80

/-- The constraint on NRFC_BASE: 8-byte aligned, the block inside the address space
(93_implementation_defined.md Part 2). -/
def Platform.wf (p : Platform) : Bool :=
  decide (p.nrfcBase.toNat % 8 = 0) && decide (p.nrfcBase.toNat + Config.blockBytes ≤ addressSpace)

/-- The platform of `State.reset`. DESIGN CHOICE (log entry 1, unsafe): the spec leaves both parameters open;
here the block stands at 0x4000_0000 and all the rest of the address space is memory. -/
def Config.resetPlatform : Platform := { nrfcBase := 0x40000000, regions := [{ base := 0, size := addressSpace }] }

/-- SUPPORTED_BITS (93_implementation_defined.md Part 2). -/
def Config.supportedBits : List Nat := [4]

/-- SUPPORTED_BLKLEN (93_implementation_defined.md Part 2). -/
def Config.supportedBlklen : List Nat := [16, 32, 64, 128]

/-- SUPPORTED_CTYPE: CT_FP16 only (30_encoding.md R90). -/
def Config.supportedCtype : List Nat := [1]

/-- A free choice: which of several agents moves (42_host_protocol.md R160; log entry 3), and which of the
values a source byte held a racing read returns (70_reset_and_hazards.md R214; log entry 5). -/
opaque Config.freeIndex : Nat → Nat

/-- A free choice: whether a unit has already written a destination byte that a host touches while the unit
is BUSY (70_reset_and_hazards.md R215; log entry 5). -/
opaque Config.freeFlag : Nat → Bool

/-- A free byte: what a destination byte holds after a contract violation (93_implementation_defined.md U3, U5;
log entry 6) or after a reset that struck a BUSY unit (70_reset_and_hazards.md R211; log entry 13). -/
opaque Config.freeByte : Nat → Byte

/-- The open part of `WIDEN_NAN` (41_formatcaster.md R133; log entry 8). -/
opaque Config.widenNanBits : Half → Single

/-- The open part of `NARROW_NAN` (41_formatcaster.md R143; log entry 8). -/
opaque Config.narrowNanBits : Single → Half

end Sys2Proof
end

