-- ==== Sys2Proof/Machine/State.lean ====
section
/-! DEFINITION. The state of one NRFC core and of what acts on it (10_state.md R20, R30; 42_host_protocol.md
R160, R171), the reasons a step can stop, and the state after reset (10_state.md R32). -/

namespace Sys2Proof.Machine

/-- Why the machine stops with a fault. -/
inductive Fault where
  /-- A host's own MEMW or MEMR names an address that is not memory (`MEM_VALID` is false there,
  20_memory.md R55). Raised by `act`. Safe: the machine stops where the spec says nothing (log entry 10). -/
  | hostAddressNotMemory
  deriving DecidableEq, Repr

/-- Why the machine gives no meaning. -/
inductive Refusal where
  /-- An instruction without a meaning yet. Raised by no arm of this model. Safe. -/
  | notModelled (mnemonic : String)
  /-- A command passed its checks but its source or destination range is not all memory
  (93_implementation_defined.md U2, U6: nothing is claimed of it; 92_eei_decisions.md D17: "A model refuses
  such a command"). Raised by `accept`. Safe (log entry 7). -/
  | rangeNotMemory
  /-- A register access that is not a naturally aligned 64-bit one (10_state.md R33: "no defined effect: a
  model refuses it"). Raised by `act`. Safe (log entry 9). -/
  | registerAccess
  /-- A host's byte access to the register block (10_state.md R33, 93_implementation_defined.md U6). Raised by
  `act`. Safe (log entry 9). -/
  | registerByteAccess
  deriving DecidableEq, Repr

/-- The configuration errors (60_exceptions.md R181). -/
inductive ErrCode where
  | opcode | bits | blklen | ctype | dimZero | overflow
  deriving DecidableEq, Repr

/-- The operation of an accepted command with the sizes it latched (10_state.md R30; 40_packer.md R104 "latch
(N, K, BL, src, dst)"; 41_formatcaster.md R131, R140). The compute type is not kept (10_state.md R31). -/
inductive Job where
  | pack (n k blklen : Nat)
  | widen (count : Nat)
  | narrow (count : Nat)
  deriving DecidableEq, Repr

/-- What a unit holds while it is BUSY (10_state.md R30). -/
structure Latch where
  job : Job
  /-- The latched base of the source range. -/
  src : Nat
  /-- The latched base of the destination range. -/
  dst : Nat
  /-- The command has been BUSY together with one whose ranges conflict with its own
  (70_reset_and_hazards.md R216, 93_implementation_defined.md U5). -/
  clash : Bool
  /-- Offsets of destination bytes the unit is known to have written: of the "unspecified subset" of R30, the
  part that an access by a host has settled (93_implementation_defined.md U4). -/
  written : List Nat
  /-- Values that bytes of the source range held since the issue and lost to a host's store, the latest first
  (70_reset_and_hazards.md R214, 93_implementation_defined.md U4). -/
  seen : List Host.Cell
  deriving DecidableEq, Repr

/-- STATE of a unit, with what belongs to it: the latch while BUSY (10_state.md R30), the code while ERROR
(10_state.md R26: ERRCODE is 0 in every other state). -/
inductive Phase where
  | idle
  | busy (l : Latch)
  | done
  | error (e : ErrCode)
  deriving DecidableEq, Repr

/-- One unit: STATE and ERRCODE, and the sticky OVR bit of its STATUS register (10_state.md R26). -/
structure UnitState where
  phase : Phase
  ovr : Bool
  deriving DecidableEq, Repr

/-- Memory: the bytes that differ from `Memory.unlisted`, by rising address (20_memory.md R50). -/
abbrev Memory := List Host.Cell

/-- What a byte that nothing has written reads as. DESIGN CHOICE (log entry 2, unsafe): the spec gives no
power-on contents of `Mem`. -/
def Memory.unlisted : Byte := 0

/-- The canonical form: addresses strictly rising and inside the address space, no entry equal to what an
unlisted address reads as. -/
abbrev Memory.wf (m : Memory) : Prop :=
  m.Pairwise (fun c d => c.1 < d.1) ∧ ∀ c ∈ m, c.1 < addressSpace ∧ c.2 ≠ Memory.unlisted

/-- The state of the core, of its memory, and of the hosts that drive it. -/
structure State where
  /-- PK_N (10_state.md R22). -/
  pkN : Word
  /-- PK_K (10_state.md R22). -/
  pkK : Word
  /-- PK_SRC (10_state.md R22). -/
  pkSrc : Word
  /-- PK_DST (10_state.md R22). -/
  pkDst : Word
  /-- FC_COUNT (10_state.md R23). -/
  fcCount : Word
  /-- FC_SRC (10_state.md R23). -/
  fcSrc : Word
  /-- FC_DST (10_state.md R23). -/
  fcDst : Word
  /-- PK_STATUS and the latch of PK (10_state.md R26, R30). -/
  pk : UnitState
  /-- FC_STATUS and the latch of FC (10_state.md R26, R30). -/
  fc : UnitState
  /-- Mem (10_state.md R29). -/
  mem : Memory
  /-- NRFC_BASE and MEM_VALID: configuration, written by no step (10_state.md R31; log entry 1). -/
  platform : Platform
  /-- What each host has still to do, in its program order (42_host_protocol.md R160, R171; log entry 11). -/
  hosts : List (List HostAction)
  /-- What `RD`, `WAIT` and `MEMR` returned, with the host they returned it to, in order
  (42_host_protocol.md R171). -/
  observed : List (Nat × Reading)
  /-- Who moves next, as far as that is given; after it the choice is free (42_host_protocol.md R160; log entry 3). -/
  turns : List Agent
  /-- How many free values have been drawn (log entry 4). -/
  draws : Nat
  deriving DecidableEq, Repr

/-- A unit after reset: IDLE, no error code, OVR clear (10_state.md R32). -/
def UnitState.reset : UnitState := { phase := .idle, ovr := false }

/-- The machine right after reset (10_state.md R32, 70_reset_and_hazards.md R210): every register 0, nothing
latched. Memory with nothing listed, and no host with anything to do (log entries 1, 2, 3, 4, 11). -/
def State.reset : State where
  pkN := 0
  pkK := 0
  pkSrc := 0
  pkDst := 0
  fcCount := 0
  fcSrc := 0
  fcDst := 0
  pk := UnitState.reset
  fc := UnitState.reset
  mem := []
  platform := Config.resetPlatform
  hosts := []
  observed := []
  turns := []
  draws := 0

end Sys2Proof.Machine
end

