-- ==== Sys2Proof/Machine/Flags.lean ====
section
/-! DEFINITION. The only status bits of the core: the fields of PK_STATUS and FC_STATUS (10_state.md R26, R28;
60_exceptions.md R181). There are no condition codes and no floating-point flags (10_state.md R28). -/

namespace Sys2Proof.Machine

/-- ERRCODE of an error (60_exceptions.md R181). -/
def ErrCode.code : ErrCode → Nat
  | .opcode => 1
  | .bits => 2
  | .blklen => 3
  | .ctype => 4
  | .dimZero => 5
  | .overflow => 6

/-- The STATE field, bits 1:0 (10_state.md R26). -/
def Phase.stateField : Phase → Nat
  | .idle => 0
  | .busy _ => 1
  | .done => 2
  | .error _ => 3

/-- The ERRCODE field, bits 7:4: 0 unless STATE is ERROR (10_state.md R26). -/
def Phase.errField : Phase → Nat
  | .error e => e.code
  | _ => 0

/-- The STATUS register as it is read: STATE, ERRCODE, OVR, every reserved bit 0 (10_state.md R26). -/
def UnitState.statusWord (x : UnitState) : Word :=
  BitVec.ofNat 64 (x.phase.stateField + x.phase.errField * 2 ^ 4 + x.ovr.toNat * 2 ^ 8)

/-- A write of `v` to STATUS: bit 8 clears OVR, every other bit is ignored (10_state.md R26). -/
def UnitState.writeStatus (x : UnitState) (v : Word) : UnitState :=
  if v.getLsbD 8 then { x with ovr := false } else x

end Sys2Proof.Machine
end

