-- ==== Sys2Proof/Machine/Operands.lean ====
section
/-! DEFINITION. Which addresses are memory (20_memory.md R55), and the operands of a command: derived sizes
(40_packer.md R100), source and destination ranges (20_memory.md R51), the checks of a command in their order
(40_packer.md R104, 41_formatcaster.md R130, 60_exceptions.md R189). All arithmetic is over the naturals
(00_scope.md R6). -/

namespace Sys2Proof

/-- Address `a` lies in the register block `[NRFC_BASE, NRFC_BASE + 0x80)` (10_state.md R24). -/
def Platform.inBlock (p : Platform) (a : Nat) : Bool :=
  decide (p.nrfcBase.toNat ≤ a) && decide (a < p.nrfcBase.toNat + Config.blockBytes)

/-- `MEM_VALID(a)`: the byte address exists, is backed by memory and lies outside the register block, which
is never memory (20_memory.md R55; 93_implementation_defined.md U6). -/
def Platform.memValid (p : Platform) (a : Nat) : Bool :=
  decide (a < addressSpace) && p.regions.any (fun r => decide (r.base ≤ a) && decide (a < r.base + r.size))
    && !p.inBlock a

/-- Every byte of `[base, base + len)` satisfies `MEM_VALID` (20_memory.md R55). -/
def Platform.rangeValid (p : Platform) (base len : Nat) : Bool :=
  (List.range len).all fun i => p.memValid (base + i)

end Sys2Proof

namespace Sys2Proof.Machine

/-- `ceil(a/b)` (00_scope.md R7). -/
def ceilDiv (a b : Nat) : Nat := (a + b - 1) / b

/-- `roundUp(a, b) = ceil(a/b) * b` (00_scope.md R7). -/
def roundUp (a b : Nat) : Nat := ceilDiv a b * b

/-- `Kpad = roundUp(K, BL)` (40_packer.md R100). -/
def kpad (k blklen : Nat) : Nat := roundUp k blklen

/-- `Ldb = ceil(Kpad * Bits / 8)` with `Bits = 4` (40_packer.md R100). -/
def ldb (k blklen : Nat) : Nat := ceilDiv (kpad k blklen * 4) 8

/-- `size = N * Ldb` (40_packer.md R100). -/
def packSize (n k blklen : Nat) : Nat := n * ldb k blklen

/-- How many bytes a command reads (20_memory.md R51). -/
def Job.srcLen : Job → Nat
  | .pack n k blklen => packSize n k blklen
  | .widen count => 2 * count
  | .narrow count => 4 * count

/-- How many bytes a command writes (20_memory.md R51). -/
def Job.dstLen : Job → Nat
  | .pack n k blklen => packSize n k blklen
  | .widen count => 4 * count
  | .narrow count => 2 * count

/-- `a` lies in `[base, base + len)`. -/
def inRange (base len a : Nat) : Bool := decide (base ≤ a) && decide (a < base + len)

/-- The ranges `[a, a + m)` and `[b, b + n)` share a byte. -/
def overlaps (a m b n : Nat) : Bool := decide (max a b < min (a + m) (b + n))

/-- `a` is an address of the source range. -/
def Latch.inSrc (l : Latch) (a : Nat) : Bool := inRange l.src l.job.srcLen a

/-- `a` is an address of the destination range. -/
def Latch.inDst (l : Latch) (a : Nat) : Bool := inRange l.dst l.job.dstLen a

/-- Source and destination of one command share a byte (70_reset_and_hazards.md R217). -/
def Latch.selfOverlap (l : Latch) : Bool := overlaps l.src l.job.srcLen l.dst l.job.dstLen

/-- The destination of one command shares a byte with the source or the destination of the other
(70_reset_and_hazards.md R216). Sources may be shared. -/
def Latch.conflicts (l l' : Latch) : Bool :=
  overlaps l.dst l.job.dstLen l'.src l'.job.srcLen || overlaps l.dst l.job.dstLen l'.dst l'.job.dstLen
    || overlaps l.src l.job.srcLen l'.dst l'.job.dstLen

/-- The overflow check of PACK: check 6 of 40_packer.md R104 fails (60_exceptions.md R187). -/
def packOverflows (n k src dst blklen : Nat) : Bool :=
  decide (addressSpace ≤ kpad k blklen) || decide (addressSpace ≤ packSize n k blklen)
    || decide (addressSpace < src + packSize n k blklen) || decide (addressSpace < dst + packSize n k blklen)

/-- Checks 2 to 6 of PACK in their order, the first that fails (40_packer.md R104, 60_exceptions.md R189). -/
def packError (ctype bits blklen n k src dst : Nat) : Option ErrCode :=
  if bits ∉ Config.supportedBits then some .bits
  else if blklen ∉ Config.supportedBlklen then some .blklen
  else if ctype ∉ Config.supportedCtype then some .ctype
  else if n = 0 ∨ k = 0 then some .dimZero
  else if packOverflows n k src dst blklen then some .overflow
  else none

/-- Check 2 of the FC operations with source and destination element sizes `ssz` and `dsz`
(41_formatcaster.md R130, 60_exceptions.md R187). -/
def castError (ssz dsz count src dst : Nat) : Option ErrCode :=
  if addressSpace ≤ dsz * count ∨ addressSpace ≤ ssz * count ∨ addressSpace < src + ssz * count
      ∨ addressSpace < dst + dsz * count then some .overflow
  else none

end Sys2Proof.Machine
end

