-- ==== Sys2Proof/Machine/Ops.lean ====
section
/-! DEFINITION. The named operations over memory and registers: reading and writing a byte (20_memory.md R54),
element reads (00_scope.md R8), the registers of a unit, command issue (42_host_protocol.md R163, R165), and the
one error entry all commands share (60_exceptions.md R190). -/

namespace Sys2Proof.Machine

/-! ### Memory -/

/-- `Mem[a]` (00_scope.md R8). -/
def Memory.read : Memory → Nat → Byte
  | [], _ => Memory.unlisted
  | c :: m, a => if c.1 = a then c.2 else Memory.read m a

/-- The list without an entry for the unlisted value, else with the entry in front. -/
def Memory.cons (a : Nat) (b : Byte) (m : Memory) : Memory := if b = Memory.unlisted then m else (a, b) :: m

/-- `Mem[a] <- b`, in canonical form. -/
def Memory.write : Memory → Nat → Byte → Memory
  | [], a, b => Memory.cons a b []
  | c :: m, a, b =>
    if a < c.1 then Memory.cons a b (c :: m)
    else if a = c.1 then Memory.cons a b m
    else c :: Memory.write m a b

/-- Write the bytes `val 0, …, val (n - 1)` at `base, …`, and leave a byte alone where `val` gives none. -/
def Memory.fill (m : Memory) (base : Nat) (val : Nat → Option Byte) : Nat → Memory
  | 0 => m
  | n + 1 =>
    match val n with
    | some b => (m.fill base val n).write (base + n) b
    | none => m.fill base val n

/-- Two bytes as a little-endian element, the first at the lower address (20_memory.md R52). -/
def join2 (b0 b1 : Byte) : Half := b1 ++ b0

/-- Four bytes as a little-endian element (20_memory.md R52). -/
def join4 (b0 b1 b2 b3 : Byte) : Single := b3 ++ b2 ++ b1 ++ b0

/-- Byte `i` of an element of `w` bits, bits `8i+7 : 8i` (20_memory.md R52). -/
def byteOf {w : Nat} (v : BitVec w) (i : Nat) : Byte := v.extractLsb' (8 * i) 8

/-- `MemRead(a, 2)` (00_scope.md R8). -/
def Memory.read2 (m : Memory) (a : Nat) : Half := join2 (m.read a) (m.read (a + 1))

/-- `MemRead(a, 4)` (00_scope.md R8). -/
def Memory.read4 (m : Memory) (a : Nat) : Single :=
  join4 (m.read a) (m.read (a + 1)) (m.read (a + 2)) (m.read (a + 3))

/-! ### Units -/

/-- The state of unit `u`. -/
def State.unit (s : State) : UnitId → UnitState
  | .pk => s.pk
  | .fc => s.fc

/-- Replace the state of unit `u`. -/
def State.setUnit (s : State) (u : UnitId) (x : UnitState) : State :=
  match u with
  | .pk => { s with pk := x }
  | .fc => { s with fc := x }

/-- Replace STATE (with ERRCODE or latch) of unit `u`; its OVR stays. -/
def State.setPhase (s : State) (u : UnitId) (p : Phase) : State := s.setUnit u { s.unit u with phase := p }

/-- The latch of a phase (10_state.md R30): there only while BUSY. -/
def Phase.latch : Phase → Option Latch
  | .busy l => some l
  | _ => none

/-- The latched command of unit `u` (10_state.md R30). -/
def State.latch (s : State) (u : UnitId) : Option Latch := (s.unit u).phase.latch

/-- Unit `u` is BUSY. -/
def State.busy (s : State) (u : UnitId) : Bool := (s.latch u).isSome

/-- Replace the latch of a unit that is BUSY. -/
def State.setLatch (s : State) (u : UnitId) (l : Latch) : State := s.setPhase u (.busy l)

/-! ### Errors and command issue -/

/-- `raise e` at a CMD write to unit `u`, the one error entry (60_exceptions.md R190): STATE becomes ERROR and
ERRCODE the code of `e`; nothing else changes, and no memory is touched. There is no return operation: the
next issue overwrites both (60_exceptions.md R191). -/
def raise (u : UnitId) (e : ErrCode) (s : State) : State := s.setPhase u (.error e)

/-- A CMD write that arrives while the unit is BUSY is dropped and sets OVR (42_host_protocol.md R165). -/
def dropCommand (u : UnitId) (s : State) : State := s.setUnit u { s.unit u with ovr := true }

/-- Mark the latch of unit `u`, if it is BUSY, as in conflict with the command `l` where their ranges conflict
(70_reset_and_hazards.md R216). -/
def markClash (u : UnitId) (l : Latch) (s : State) : State :=
  match s.latch u with
  | some l' => if l.conflicts l' then s.setLatch u { l' with clash := true } else s
  | none => s

/-- Does the command `l` conflict with what unit `u` is running? -/
def clashesWith (u : UnitId) (l : Latch) (s : State) : Bool :=
  match s.latch u with
  | some l' => l.conflicts l'
  | none => false

/-- A command as it is latched at its issue: nothing read or written yet (10_state.md R30). -/
def Latch.fresh (job : Job) (src dst : Nat) : Latch :=
  { job := job, src := src, dst := dst, clash := false, written := [], seen := [] }

/-- The latching of a command (42_host_protocol.md R163): STATE becomes BUSY, ERRCODE 0; a conflict with what the
other unit is running is marked in both latches (70_reset_and_hazards.md R216). -/
def latchCommand (u : UnitId) (l : Latch) (s : State) : State :=
  (markClash u.other l s).setLatch u { l with clash := clashesWith u.other l s }

/-- A command whose checks all pass is latched and its unit is BUSY (42_host_protocol.md R163). Where a range is
not memory the spec claims nothing and the model refuses (93_implementation_defined.md U2; log entry 7). -/
def accept (u : UnitId) (job : Job) (src dst : Nat) (s : State) : Host.Outcome State Fault Refusal :=
  if s.platform.rangeValid src job.srcLen && s.platform.rangeValid dst job.dstLen then
    .next (latchCommand u (Latch.fresh job src dst) s)
  else .refused .rangeNotMemory

/-- The issue of a decoded command whose first failing check is `err` (42_host_protocol.md R163), or its drop
while the unit is BUSY (42_host_protocol.md R165). -/
def issue (u : UnitId) (err : Option ErrCode) (job : Job) (src dst : Nat) (s : State) :
    Host.Outcome State Fault Refusal :=
  if s.busy u then .next (dropCommand u s)
  else
    match err with
    | some e => .next (raise u e s)
    | none => accept u job src dst s

/-- The write of an ILLEGAL word to the CMD register of `u`: ERR_OPCODE (60_exceptions.md R182), or its drop
while the unit is BUSY (42_host_protocol.md R165: the word is not decoded). -/
def illegalCommand (u : UnitId) (s : State) : Host.Outcome State Fault Refusal :=
  if s.busy u then .next (dropCommand u s) else .next (raise u .opcode s)

/-! ### Registers -/

/-- The register at an offset that is a multiple of 8 (10_state.md R24). -/
def regAt (n : Nat) : Reg :=
  match n with
  | 0 => .pkN
  | 1 => .pkK
  | 2 => .pkSrc
  | 3 => .pkDst
  | 4 => .pkCmd
  | 5 => .pkStatus
  | 6 => .rsv30
  | 7 => .rsv38
  | 8 => .fcCount
  | 9 => .fcSrc
  | 10 => .fcDst
  | 11 => .fcCmd
  | 12 => .fcStatus
  | 13 => .rsv68
  | 14 => .rsv70
  | _ => .rsv78

/-- The register an access of `bytes` bytes at `NRFC_BASE + off` reaches: only a naturally aligned 64-bit
access reaches one (10_state.md R33). -/
def accessedReg (off : BitVec 7) (bytes : Nat) : Option Reg :=
  if bytes = 8 ∧ off.toNat % 8 = 0 then some (regAt (off.toNat / 8)) else none

/-- `RD reg`: the value of a register; CMD registers and reserved offsets read 0 (42_host_protocol.md R162). -/
def readReg (r : Reg) (s : State) : Word :=
  match r with
  | .pkN => s.pkN
  | .pkK => s.pkK
  | .pkSrc => s.pkSrc
  | .pkDst => s.pkDst
  | .pkStatus => s.pk.statusWord
  | .fcCount => s.fcCount
  | .fcSrc => s.fcSrc
  | .fcDst => s.fcDst
  | .fcStatus => s.fc.statusWord
  | .pkCmd | .fcCmd | .rsv30 | .rsv38 | .rsv68 | .rsv70 | .rsv78 => 0

/-- A write of STATUS of unit `u` (42_host_protocol.md R161). -/
def writeStatusReg (u : UnitId) (v : Word) (s : State) : State := s.setUnit u ((s.unit u).writeStatus v)

/-- Append what an action answered to host `i` (42_host_protocol.md R171). -/
def State.observe (s : State) (i : Nat) (r : Reading) : State := { s with observed := s.observed ++ [(i, r)] }

end Sys2Proof.Machine
end

