-- ==== Sys2Proof/Machine/FormatCaster.lean ====
section
/-! DEFINITION. The FormatCaster unit: `Widen` (41_formatcaster.md R132, R133), `Narrow` (R141, R143) and the
commands F16TOF32 (R131) and F32TOF16 (R140). -/

namespace Sys2Proof.Machine

/-- Make an fp32 pattern a NaN: exponent field all ones, and a mantissa that is not 0. A NaN stays as it is, so
every NaN can be a result (93_implementation_defined.md Part 2, constraint on `WIDEN_NAN`). -/
def toNan32 (x : Single) : Single :=
  if x &&& 0x007FFFFF = 0 then x ||| 0x7FC00000 else x ||| 0x7F800000

/-- Make an fp16 pattern a NaN, in the same way (93_implementation_defined.md Part 2, constraint on
`NARROW_NAN`). -/
def toNan16 (x : Half) : Half :=
  if x &&& 0x03FF = 0 then x ||| 0x7E00 else x ||| 0x7C00

/-- `WIDEN_NAN`: a function of the pattern whose result is some fp32 NaN (41_formatcaster.md R133). -/
def widenNan (h : Half) : Single := toNan32 (Config.widenNanBits h)

/-- `NARROW_NAN`: a function of the pattern whose result is some fp16 NaN (41_formatcaster.md R143). -/
def narrowNan (x : Single) : Half := toNan16 (Config.narrowNanBits x)

/-- `Widen(h)` (41_formatcaster.md R132, R133), with `s = h[15]`, `e = h[14:10]`, `m = h[9:0]`. The highest set bit of
`m` is `Nat.log2 m`. -/
def widen (h : Half) : Single :=
  let s := h.toNat / 2 ^ 15
  let e := h.toNat / 2 ^ 10 % 2 ^ 5
  let m := h.toNat % 2 ^ 10
  if e = 0 then
    if m = 0 then BitVec.ofNat 32 (s <<< 31)
    else
      let p := Nat.log2 m
      BitVec.ofNat 32 ((s <<< 31) ||| ((103 + p) <<< 23) ||| ((m <<< (23 - p)) &&& 0x7FFFFF))
  else if e ≤ 30 then BitVec.ofNat 32 ((s <<< 31) ||| ((e + 112) <<< 23) ||| (m <<< 13))
  else if m = 0 then BitVec.ofNat 32 ((s <<< 31) ||| 0x7F800000)
  else widenNan h

/-- Round `q` up by one where the dropped part `rem` is above `half`, or equal to it and `q` is odd: round to
nearest, ties to even (41_formatcaster.md R141, R142). -/
def roundEven (q rem half : Nat) : Nat := if rem > half ∨ (rem = half ∧ q &&& 1 = 1) then q + 1 else q

/-- `Narrow(x)` (41_formatcaster.md R141, R143), with `s = x[31]`, `e = x[30:23]`, `m = x[22:0]` and `E = e - 127`. -/
def narrow (x : Single) : Half :=
  let s := x.toNat / 2 ^ 31
  let e := x.toNat / 2 ^ 23 % 2 ^ 8
  let m := x.toNat % 2 ^ 23
  if e = 255 then
    if m = 0 then BitVec.ofNat 16 ((s <<< 15) ||| 0x7C00) else narrowNan x
  else if e = 0 then BitVec.ofNat 16 (s <<< 15)
  else
    let E : Int := (e : Int) - 127
    let sig := 0x800000 ||| m
    if E ≥ 16 then BitVec.ofNat 16 ((s <<< 15) ||| 0x7C00)
    else if E ≥ -14 then
      let h := ((E + 15).toNat <<< 10) ||| (m >>> 13)
      BitVec.ofNat 16 ((s <<< 15) ||| roundEven h (m &&& 0x1FFF) 0x1000)
    else
      let shift := (-E - 1).toNat
      if shift > 24 then BitVec.ofNat 16 (s <<< 15)
      else
        let q := sig >>> shift
        let rem := sig &&& ((1 <<< shift) - 1)
        BitVec.ofNat 16 ((s <<< 15) ||| roundEven q rem (1 <<< (shift - 1)))

/-- The destination byte of F16TOF32 at offset `off`: byte `off mod 4` of the widened element `floor(off / 4)`
(41_formatcaster.md R130, R131). `rd j x` is the `j`-th byte the unit reads for it, at source offset `x`. -/
def widenByte (rd : Nat → Nat → Byte) (off : Nat) : Byte :=
  let i := off / 4
  byteOf (widen (join2 (rd 0 (2 * i)) (rd 1 (2 * i + 1)))) (off % 4)

/-- The destination byte of F32TOF16 at offset `off`: byte `off mod 2` of the narrowed element `floor(off / 2)`
(41_formatcaster.md R130, R140). -/
def narrowByte (rd : Nat → Nat → Byte) (off : Nat) : Byte :=
  let i := off / 2
  byteOf (narrow (join4 (rd 0 (4 * i)) (rd 1 (4 * i + 1)) (rd 2 (4 * i + 2)) (rd 3 (4 * i + 3)))) (off % 2)

/-- F16TOF32 (41_formatcaster.md R131): the write of its command word to FC_CMD. The operands are the FC
descriptor registers at this moment; the overflow check fails, or the command is latched and FC is BUSY. What
the running command then does is `finish` in Units.lean. -/
def execF16ToF32 (s : State) : Host.Outcome State Fault Refusal :=
  issue .fc (castError 2 4 s.fcCount.toNat s.fcSrc.toNat s.fcDst.toNat) (.widen s.fcCount.toNat)
    s.fcSrc.toNat s.fcDst.toNat s

/-- F32TOF16 (41_formatcaster.md R140): the write of its command word to FC_CMD, with 4-byte source elements and
2-byte destination elements. -/
def execF32ToF16 (s : State) : Host.Outcome State Fault Refusal :=
  issue .fc (castError 4 2 s.fcCount.toNat s.fcSrc.toNat s.fcDst.toNat) (.narrow s.fcCount.toNat)
    s.fcSrc.toNat s.fcDst.toNat s

end Sys2Proof.Machine
end

