-- ==== Sys2Proof/Machine/Packer.lean ====
section
/-! DEFINITION. The Packer unit: the nibble interleave (40_packer.md R101, R102), the destination layout (R103) and
the command PACK (R104). -/

namespace Sys2Proof.Machine

/-- `GetNibble(byte, index)` (00_scope.md R8): the high nibble for an odd index, the low one for an even. -/
def getNibble (b : Byte) (index : Nat) : Byte := if index % 2 = 1 then b >>> 4 else b &&& 0x0F

/-- The offset in the source buffer of the byte that holds element `(n, i)` (40_packer.md R101). -/
def elementByte (ldb n i : Nat) : Nat := n * ldb + i / 2

/-- The interleaved byte `I(n, b)` (40_packer.md R102): position `i = b mod 8` of sub-block `s = floor(b / 8)`
holds element `16s + i` in its low nibble and element `16s + i + 8` in its high one. `rd j x` is the `j`-th
byte the unit reads for it, at source offset `x`. -/
def interleaved (ldb : Nat) (rd : Nat → Nat → Byte) (n b : Nat) : Byte :=
  let lo := 16 * (b / 8) + b % 8
  let hi := lo + 8
  getNibble (rd 0 (elementByte ldb n lo)) lo ||| (getNibble (rd 1 (elementByte ldb n hi)) hi <<< 4)

/-- How many columns are in full tiles: `8 * T` with `T = floor(N / 8)` (40_packer.md R103). -/
def tiledColumns (n : Nat) : Nat := 8 * (n / 8)

/-- `pos(n, b)`: the destination offset of the interleaved byte of column `n` at line offset `b`, with `cols`
columns in all (40_packer.md R103). -/
def packPos (cols ldb n b : Nat) : Nat :=
  if n < tiledColumns cols then 8 * (n / 8) * ldb + b * 8 + n % 8 else n * ldb + b

/-- The column and line offset whose interleaved byte stands at destination offset `off`: `pos` read backwards
(40_packer.md R108 (a): `pos` is a bijection). -/
def packCell (cols ldb off : Nat) : Nat × Nat :=
  if off < tiledColumns cols * ldb then (8 * (off / (8 * ldb)) + off % 8, off % (8 * ldb) / 8)
  else (off / ldb, off % ldb)

/-- The destination byte of PACK at offset `off` (40_packer.md R104). -/
def packByte (cols ldb : Nat) (rd : Nat → Nat → Byte) (off : Nat) : Byte :=
  interleaved ldb rd (packCell cols ldb off).1 (packCell cols ldb off).2

/-- PACK (40_packer.md R104): the write of its command word to PK_CMD. The operands are the fields of the word
and the PK descriptor registers at this moment (30_encoding.md R82); the first failing check is reported, or the
command is latched and PK is BUSY. What the running command then does is `finish` in Units.lean. -/
def execPack (ctype bits blklen : Nat) (s : State) : Host.Outcome State Fault Refusal :=
  issue .pk (packError ctype bits blklen s.pkN.toNat s.pkK.toNat s.pkSrc.toNat s.pkDst.toNat)
    (.pack s.pkN.toNat s.pkK.toNat blklen) s.pkSrc.toNat s.pkDst.toNat s

end Sys2Proof.Machine
end

