-- ==== Sys2Proof/Machine/Dispatch.lean ====
section
/-! DEFINITION. One arm per command: what its write to the CMD register of its unit does (30_encoding.md R84,
42_host_protocol.md R163, R165). -/

namespace Sys2Proof.Machine

def exec (i : Instr) (s : State) : Host.Outcome State Fault Refusal :=
  match i with
  | .pack ctype bits blklen => Sys2Proof.Machine.execPack ctype bits blklen s
  | .f16ToF32 => Sys2Proof.Machine.execF16ToF32 s
  | .f32ToF16 => Sys2Proof.Machine.execF32ToF16 s

end Sys2Proof.Machine
end

