-- ==== Sys2Proof/Machine/Command.lean ====
section
/-! DEFINITION. A write to a CMD register: the word is decoded and run (42_host_protocol.md R163). This is the
fetch of the core, which has no program counter (10_state.md R27, 20_memory.md R62). -/

namespace Sys2Proof.Machine

/-- `WR u_CMD, cw` (42_host_protocol.md R161, R163): the command the word decodes to at this unit, or ERR_OPCODE. -/
def command (u : UnitId) (cw : Word) (s : State) : Host.Outcome State Fault Refusal :=
  match decode u cw with
  | .ok i => exec i s
  | .error _ => illegalCommand u s

end Sys2Proof.Machine
end

