-- ==== Sys2Proof/Machine/Units.lean ====
section
/-! DEFINITION. What a BUSY unit does to memory (42_host_protocol.md R164): its completion as one atomic step
(20_memory.md R59), the violations of that step's premise (93_implementation_defined.md U3, U4, U5), and the
reset of the core (70_reset_and_hazards.md R210, R211). -/

namespace Sys2Proof.Machine

/-- The destination byte at offset `off` as a function of the source bytes the unit reads for it
(40_packer.md R104, 41_formatcaster.md R131, R140). -/
def destByte (job : Job) (rd : Nat → Nat → Byte) (off : Nat) : Byte :=
  match job with
  | .pack n k blklen => packByte n (ldb k blklen) rd off
  | .widen _ => widenByte rd off
  | .narrow _ => narrowByte rd off

/-- The values the byte at `a` held since the issue and no longer holds. -/
def Latch.oldValues (l : Latch) (a : Nat) : List Byte := (l.seen.filter fun c => c.1 == a).map Prod.snd

/-- What the unit reads at source offset `x`: the byte, or, where a host has stored to it since the issue, any of
the values it held, "chosen independently per byte and per read" (93_implementation_defined.md U4). How often a
unit reads a source byte is unspecified (20_memory.md R51); DESIGN CHOICE (log entry 19, safe): once for each
destination byte, so that the bytes of one destination element can come from different values of a source byte. -/
def racyRead (m : Memory) (l : Latch) (draw : Nat) (j x : Nat) : Byte :=
  match l.oldValues (l.src + x) with
  | [] => m.read (l.src + x)
  | b :: old =>
    (m.read (l.src + x) :: b :: old).getD (Config.freeIndex (draw + j) % (old.length + 2)) (m.read (l.src + x))

/-- The final value of the destination byte at offset `off`: what the operation gives, or any value where the
command's own ranges overlap (U3) or it conflicts with another BUSY command (U5). -/
def unitByte (m : Memory) (l : Latch) (draw off : Nat) : Byte :=
  if l.clash || l.selfOverlap then Config.freeByte draw else destByte l.job (racyRead m l draw) off

/-- What a completion writes at offset `off`: the final value, or nothing where the unit has already written the
byte. After a conflict (U5) every byte is written anew, since all of them end with any value. The source bytes are read anew for each
destination byte: DESIGN CHOICE (log entry 19). -/
def finalByte (m : Memory) (l : Latch) (draw off : Nat) : Option Byte :=
  if l.written.contains off && !l.clash then none else some (unitByte m l (draw + 4 * off) off)

/-- Completion of unit `u` (42_host_protocol.md R164): every destination byte has its final value, STATE becomes
DONE and the latch is dropped; OVR, the descriptors and all other memory stay. -/
def finish (u : UnitId) (s : State) : State :=
  match s.latch u with
  | none => s
  | some l =>
    { s with
      mem := s.mem.fill l.dst (finalByte s.mem l s.draws) l.job.dstLen
      draws := s.draws + 4 * l.job.dstLen }.setPhase u .done

/-! ### Host accesses to memory while units are BUSY -/

/-- Before a host touches the byte at `a`: if `a` is in the destination range of the BUSY unit `u` and the unit
is not known to have written it, it is open whether the unit has done so (70_reset_and_hazards.md R215). If it
has, its byte write is made now, so that the final value does not change again (10_state.md R30). -/
def settle (u : UnitId) (a : Nat) (s : State) : State :=
  match s.latch u with
  | none => s
  | some l =>
    if l.inDst a && !l.written.contains (a - l.dst) then
      if Config.freeFlag s.draws then
        { s with
          mem := s.mem.write a (unitByte s.mem l s.draws (a - l.dst))
          draws := s.draws + 4 }.setLatch u { l with written := (a - l.dst) :: l.written }
      else { s with draws := s.draws + 4 }
    else s

/-- Before a host stores to the byte at `a`: a BUSY unit whose source range holds it may still read the value
that is lost (70_reset_and_hazards.md R214). -/
def remember (u : UnitId) (a : Nat) (s : State) : State :=
  match s.latch u with
  | none => s
  | some l => if l.inSrc a then s.setLatch u { l with seen := (a, s.mem.read a) :: l.seen } else s

/-- Both units settled at `a`. -/
def settleBoth (a : Nat) (s : State) : State := settle .fc a (settle .pk a s)

/-- A host's store of one byte. -/
def hostStore (a : Nat) (b : Byte) (s : State) : State :=
  let t := remember .fc a (remember .pk a (settleBoth a s))
  { t with mem := t.mem.write a b }

/-- A host's store of bytes at `a`, `a + 1`, … (`MEMW`, 30_encoding.md R87). -/
def hostStoreAll (a : Nat) (bs : List Byte) (s : State) : State :=
  match bs with
  | [] => s
  | b :: rest => hostStoreAll (a + 1) rest (hostStore a b s)

/-- A host's load of the `n` bytes at `a`, `a + 1`, … (`MEMR`, 30_encoding.md R87): the state it leaves, in which
what the loads have settled stands, and the bytes. -/
def hostLoadAll (a n : Nat) (s : State) : State × List Byte :=
  match n with
  | 0 => (s, [])
  | n + 1 =>
    let t := settleBoth a s
    let r := hostLoadAll (a + 1) n t
    (r.1, t.mem.read a :: r.2)

/-! ### Reset of the core -/

/-- A reset that strikes unit `u` while it is BUSY leaves any value in every byte of its destination range
(70_reset_and_hazards.md R211). -/
def scrub (u : UnitId) (s : State) : State :=
  match s.latch u with
  | none => s
  | some l =>
    { s with
      mem := s.mem.fill l.dst (fun off => some (Config.freeByte (s.draws + off))) l.job.dstLen
      draws := s.draws + l.job.dstLen }

/-- The platform's reset (70_reset_and_hazards.md R210, R211): every register as after reset, both commands
abandoned. Memory is not changed but for the destination ranges of the commands that were BUSY; the hosts
and the platform are not the core's. -/
def coreReset (s : State) : State :=
  let t := scrub .fc (scrub .pk s)
  { State.reset with
    mem := t.mem, platform := t.platform, hosts := t.hosts, observed := t.observed, turns := t.turns, draws := t.draws }

end Sys2Proof.Machine
end

