-- ==== Sys2Proof/Machine/HostPort.lean ====
section
/-! DEFINITION. The actions of a host (30_encoding.md R87; 42_host_protocol.md R161, R162) and the platform's reset
(70_reset_and_hazards.md R210). -/

namespace Sys2Proof.Machine

/-- `WR reg, v` by register (42_host_protocol.md R161). -/
def writeReg (r : Reg) (v : Word) (s : State) : Host.Outcome State Fault Refusal :=
  match r with
  | .pkN => .next { s with pkN := v }
  | .pkK => .next { s with pkK := v }
  | .pkSrc => .next { s with pkSrc := v }
  | .pkDst => .next { s with pkDst := v }
  | .fcCount => .next { s with fcCount := v }
  | .fcSrc => .next { s with fcSrc := v }
  | .fcDst => .next { s with fcDst := v }
  | .pkCmd => command .pk v s
  | .fcCmd => command .fc v s
  | .pkStatus => .next (writeStatusReg .pk v s)
  | .fcStatus => .next (writeStatusReg .fc v s)
  | .rsv30 | .rsv38 | .rsv68 | .rsv70 | .rsv78 => .next s

/-- The `n` bytes at `a`, `a + 1`, … do not touch the register block. -/
def outsideBlock (p : Platform) (a n : Nat) : Bool := (List.range n).all fun i => !p.inBlock (a + i)

/-- A host's access to the `n` bytes at `a`, …: it runs where all of them are memory, is refused where one is in
the register block (10_state.md R33), and faults where one is no memory (log entry 10). -/
def hostAccess (a n : Nat) (s t : State) : Host.Outcome State Fault Refusal :=
  if s.platform.rangeValid a n then .next t
  else if outsideBlock s.platform a n then .fault .hostAddressNotMemory
  else .refused .registerByteAccess

/-- One action of host `i`, already taken from its program. -/
def act (i : Nat) (x : HostAction) (s : State) : Host.Outcome State Fault Refusal :=
  match x with
  | .regWrite off bytes v =>
    match accessedReg off bytes with
    | some r => writeReg r v s
    | none => .refused .registerAccess
  | .regRead off bytes =>
    match accessedReg off bytes with
    | some r => .next (s.observe i (.reg off (readReg r s)))
    | none => .refused .registerAccess
  | .wait u => .next (s.observe i (.waited u (s.unit u).statusWord))
  | .memWrite a bs => hostAccess a.toNat bs.length s (hostStoreAll a.toNat bs s)
  | .memRead a n =>
    hostAccess a.toNat n s
      ((hostLoadAll a.toNat n s).1.observe i (.mem a (hostLoadAll a.toNat n s).2))
  | .platformReset => .next (coreReset s)

/-- The action has to poll again: a `WAIT` whose unit is still BUSY (30_encoding.md R87). -/
def blocked (x : HostAction) (s : State) : Bool :=
  match x with
  | .wait u => s.busy u
  | .regWrite _ _ _ | .regRead _ _ | .memWrite _ _ | .memRead _ _ | .platformReset => false

/-- The program of host `i` becomes `rest`. -/
def State.setProgram (s : State) (i : Nat) (rest : List HostAction) : State := { s with hosts := s.hosts.set i rest }

/-- A step of host `i`: the next action of its program. A poll that finds the unit BUSY changes nothing
(42_host_protocol.md R162), and a host with nothing to do changes nothing. -/
def hostStep (i : Nat) (s : State) : Host.Outcome State Fault Refusal :=
  match s.hosts[i]? with
  | some (x :: rest) => if blocked x s then .next s else act i x (s.setProgram i rest)
  | some [] => .next s
  | none => .next s

end Sys2Proof.Machine
end

