-- ==== Sys2Proof/Machine/Turn.lean ====
section
/-! DEFINITION. Whose step is next (42_host_protocol.md R160: "Any agent that has a step may take it at any time"). -/

namespace Sys2Proof.Machine

/-- Host `i` has an action that does not have to wait. -/
def hostReady (s : State) (i : Nat) : Bool :=
  match s.hosts[i]? with
  | some (x :: _) => !blocked x s
  | some [] => false
  | none => false

/-- The agents that have a step: hosts with an action to take, and units that are BUSY (42_host_protocol.md R160). -/
def enabled (s : State) : List Agent :=
  ((List.range s.hosts.length).filter (hostReady s)).map Agent.host
    ++ ([UnitId.pk, UnitId.fc].filter fun u => s.busy u).map Agent.unit

/-- A free choice among agents. -/
def freeAgent (draw : Nat) (as : List Agent) : Option Agent := as[Config.freeIndex draw % as.length]?

/-- Who moves: the only agent that can, else whom the given schedule names, else a free choice among those that
can (log entry 3). `none` is the end of the run (42_host_protocol.md R171). -/
def nextAgent (s : State) : Option Agent :=
  match enabled s with
  | [] => none
  | [a] => some a
  | as =>
    match s.turns with
    | [] => freeAgent s.draws as
    | t :: _ => if as.contains t then some t else freeAgent s.draws as

/-- One entry of the schedule and one draw are used up. -/
def tick (s : State) : State := { s with turns := s.turns.tail, draws := s.draws + 1 }

/-- The step of an agent: a host's next action, or a unit's completion (42_host_protocol.md R160). -/
def agentStep (a : Agent) (s : State) : Host.Outcome State Fault Refusal :=
  match a with
  | .host i => hostStep i s
  | .unit u => .next (finish u s)

/-- Put a write of the word `w` to a CMD register at the head of the program of host 0. -/
def placeCommand (cw : Word) (hosts : List (List HostAction)) : List (List HostAction) :=
  match hosts with
  | [] => [[.wr (unitOfWord cw).cmdReg cw]]
  | q :: qs => (.wr (unitOfWord cw).cmdReg cw :: q) :: qs

end Sys2Proof.Machine
end

