-- ==== Sys2Proof/Machine/Step.lean ====
section
/-! DEFINITION. One step of the machine: the step of the agent whose turn it is. -/

namespace Sys2Proof.Machine

/-- One step (42_host_protocol.md R160). Where no agent has one the run has ended (R171) and nothing changes. -/
def step (s : State) : Host.Outcome State Fault Refusal :=
  match nextAgent s with
  | none => .next s
  | some a => agentStep a (tick s)

/-- `s` with the write of a command word, at the register its opcode-table row is written to, as the next action
of host 0, and with host 0 next to move (log entry 11). -/
def State.withFetchWord (s : State) (nbits w : Nat) : State :=
  { s with hosts := placeCommand (tableWord nbits w) s.hosts, turns := .host 0 :: s.turns }

end Sys2Proof.Machine
end

