-- ==== Sys2Proof/Safety.lean ====
section
/-! DEFINITION. What claims about the machine speak of: the states it can be in (`Inv`), the duties of a host
(70_reset_and_hazards.md R214 to R217, R219; 42_host_protocol.md R172), and the functions the spec uses only to state
laws (the inverse of PACK, 40_packer.md R112; the values of fp16 and fp32 patterns, 41_formatcaster.md R145). -/

namespace Sys2Proof.Machine

/-! ### The states the machine can be in -/

/-- A job that unit `u` can have accepted (40_packer.md R104 checks 2 to 6, 41_formatcaster.md R130). -/
def Job.legal (u : UnitId) (j : Job) : Prop :=
  match u, j with
  | .pk, .pack n k blklen =>
    blklen ∈ Config.supportedBlklen ∧ 1 ≤ n ∧ 1 ≤ k ∧ kpad k blklen < addressSpace ∧ packSize n k blklen < addressSpace
  | .fc, .widen count => 4 * count < addressSpace
  | .fc, .narrow count => 4 * count < addressSpace
  | .pk, .widen _ => False
  | .pk, .narrow _ => False
  | .fc, .pack _ _ _ => False

/-- A latch that unit `u` can hold: a legal job, ranges inside the address space and backed by memory, and
records that speak only of those ranges (10_state.md R30, 20_memory.md R56). -/
structure Latch.legal (p : Platform) (u : UnitId) (l : Latch) : Prop where
  job : l.job.legal u
  srcEnd : l.src + l.job.srcLen ≤ addressSpace
  dstEnd : l.dst + l.job.dstLen ≤ addressSpace
  srcValid : p.rangeValid l.src l.job.srcLen = true
  dstValid : p.rangeValid l.dst l.job.dstLen = true
  written : ∀ off ∈ l.written, off < l.job.dstLen
  seen : ∀ c ∈ l.seen, l.inSrc c.1 = true

/-- The invariant of the machine: canonical memory, legal latches, and every conflict between two BUSY commands
marked in both (70_reset_and_hazards.md R216). -/
structure Inv (s : State) : Prop where
  mem : s.mem.wf
  latch : ∀ u l, s.latch u = some l → l.legal s.platform u
  clash : ∀ l l', s.latch .pk = some l → s.latch .fc = some l' → l.conflicts l' = true → l.clash = true ∧ l'.clash = true

/-! ### The duties of a host -/

/-- The command that `i` asks for, with the operands its unit reads at the CMD write (30_encoding.md R82). -/
def requested (i : Instr) (s : State) : Latch :=
  match i with
  | .pack _ _ blklen => Latch.fresh (.pack s.pkN.toNat s.pkK.toNat blklen) s.pkSrc.toNat s.pkDst.toNat
  | .f16ToF32 => Latch.fresh (.widen s.fcCount.toNat) s.fcSrc.toNat s.fcDst.toNat
  | .f32ToF16 => Latch.fresh (.narrow s.fcCount.toNat) s.fcSrc.toNat s.fcDst.toNat

/-- The first check of `i` that fails (60_exceptions.md R189). -/
def firstError (i : Instr) (s : State) : Option ErrCode :=
  match i with
  | .pack ctype bits blklen =>
    packError ctype bits blklen s.pkN.toNat s.pkK.toNat s.pkSrc.toNat s.pkDst.toNat
  | .f16ToF32 => castError 2 4 s.fcCount.toNat s.fcSrc.toNat s.fcDst.toNat
  | .f32ToF16 => castError 4 2 s.fcCount.toNat s.fcSrc.toNat s.fcDst.toNat

/-- Both ranges of a command are memory (20_memory.md R55). -/
def Latch.backed (l : Latch) (p : Platform) : Bool :=
  p.rangeValid l.src l.job.srcLen && p.rangeValid l.dst l.job.dstLen

/-- A CMD write that keeps the duties: the unit is not BUSY (R219 (a)), and a command that passes its checks has
backed ranges (R212), disjoint from each other (R217) and from those of the other unit's command (R216). -/
def commandDutiful (u : UnitId) (cw : Word) (s : State) : Bool :=
  !s.busy u &&
    match decode u cw with
    | .error _ => true
    | .ok i =>
      (firstError i s).isSome
        || ((requested i s).backed s.platform && !(requested i s).selfOverlap
          && !clashesWith u.other (requested i s) s)

/-- No BUSY unit reads or writes a byte of `[a, a + n)` (R214, R215). -/
def storeDutiful (a n : Nat) (s : State) : Bool :=
  [UnitId.pk, UnitId.fc].all fun u =>
    match s.latch u with
    | some l => !overlaps a n l.src l.job.srcLen && !overlaps a n l.dst l.job.dstLen
    | none => true

/-- No BUSY unit writes a byte of `[a, a + n)` (R215). -/
def loadDutiful (a n : Nat) (s : State) : Bool :=
  [UnitId.pk, UnitId.fc].all fun u =>
    match s.latch u with
    | some l => !overlaps a n l.dst l.job.dstLen
    | none => true

/-- The action keeps the duties of a host (42_host_protocol.md R172), and a reset does not strike a BUSY unit. -/
def actionDutiful (x : HostAction) (s : State) : Bool :=
  match x with
  | .regWrite off bytes v =>
    match accessedReg off bytes with
    | none => false
    | some r =>
      if r = .pkCmd then commandDutiful .pk v s else if r = .fcCmd then commandDutiful .fc v s else true
  | .regRead off bytes => (accessedReg off bytes).isSome
  | .wait _ => true
  | .memWrite a bs => s.platform.rangeValid a.toNat bs.length && storeDutiful a.toNat bs.length s
  | .memRead a n => s.platform.rangeValid a.toNat n && loadDutiful a.toNat n s
  | .platformReset => !s.busy .pk && !s.busy .fc

/-- Whichever host moves next keeps its duties. -/
def State.dutiful (s : State) : Prop :=
  ∀ (i : Nat) (x : HostAction) (rest : List HostAction), s.hosts[i]? = some (x :: rest) → actionDutiful x s = true

/-- A running command that nobody has disturbed (20_memory.md R59). -/
structure Latch.calm (l : Latch) : Prop where
  clash : l.clash = false
  written : l.written = []
  seen : l.seen = []
  apart : l.selfOverlap = false

/-- No running command has been disturbed. -/
def State.calm (s : State) : Prop := ∀ u l, s.latch u = some l → l.calm

/-- `t` is reached from `s` by steps in which every host keeps its duties and unit `u` stays BUSY: the window of
70_reset_and_hazards.md section 3. -/
inductive DutifulWhileBusy (u : UnitId) : State → State → Prop where
  | refl (s : State) : DutifulWhileBusy u s s
  | step {s t t' : State} : DutifulWhileBusy u s t → t.dutiful → Machine.step t = .next t' → t'.busy u = true →
      DutifulWhileBusy u s t'

/-! ### What stays the same -/

/-- The seven descriptor registers of `t` are those of `s` (10_state.md R21). -/
def sameDescriptors (s t : State) : Prop :=
  t.pkN = s.pkN ∧ t.pkK = s.pkK ∧ t.pkSrc = s.pkSrc ∧ t.pkDst = s.pkDst ∧ t.fcCount = s.fcCount ∧ t.fcSrc = s.fcSrc
    ∧ t.fcDst = s.fcDst

/-- What is not the core's own is in `t` as in `s`: the platform, the hosts' programs and what they have read. -/
def sameOutside (s t : State) : Prop :=
  t.platform = s.platform ∧ t.hosts = s.hosts ∧ t.observed = s.observed ∧ t.turns = s.turns

/-- Unit `u` of `t` is as in `s`, but that its running command may have been marked as in conflict with a newly
accepted one (10_state.md R30, 70_reset_and_hazards.md R216). -/
def sameUnitButClash (u : UnitId) (s t : State) : Prop :=
  (t.unit u).ovr = (s.unit u).ovr ∧
    ((t.unit u).phase = (s.unit u).phase ∨
      ∃ l, s.latch u = some l ∧ (t.unit u).phase = .busy { l with clash := true })

/-! ### How far a run is from its end -/

/-- The actions hosts have still to take, and the commands still to complete (42_host_protocol.md R168, R171). -/
def workLeft (s : State) : Nat :=
  2 * (s.hosts.map List.length).sum + (s.busy .pk).toNat + (s.busy .fc).toNat

/-- The run has ended (42_host_protocol.md R171). -/
def State.ended (s : State) : Prop := (∀ q ∈ s.hosts, q = []) ∧ s.busy .pk = false ∧ s.busy .fc = false

/-- `k` steps, up to the first that stops. -/
def runFor (k : Nat) (s : State) : Host.Outcome State Fault Refusal :=
  match k with
  | 0 => .next s
  | k + 1 =>
    match step s with
    | .next t => runFor k t
    | .fault r => .fault r
    | .refused r => .refused r

/-! ### Functions that only laws speak of -/

/-- `J(n, b)`: where the interleaved byte of column `n` at line offset `b` stands in a packed buffer
(40_packer.md R112). -/
def packedAt (cols ldb : Nat) (p : Nat → Byte) (n b : Nat) : Byte := p (packPos cols ldb n b)

/-- `e(n, s, m)`: the 4-bit element `m` of sub-block `s` of column `n` in a packed buffer (40_packer.md R112). -/
def packedElement (cols ldb : Nat) (p : Nat → Byte) (n s m : Nat) : Byte :=
  if m < 8 then packedAt cols ldb p n (8 * s + m) &&& 0x0F else packedAt cols ldb p n (8 * s + m - 8) >>> 4

/-- `Unpack(P)` at offset `off = n * Ldb + 8s + j` (40_packer.md R112). -/
def unpackByte (cols ldb : Nat) (p : Nat → Byte) (off : Nat) : Byte :=
  let n := off / ldb
  let s := off % ldb / 8
  let j := off % 8
  packedElement cols ldb p n s (2 * j) ||| (packedElement cols ldb p n s (2 * j + 1) <<< 4)

/-- An fp16 pattern is a NaN (41_formatcaster.md R145). -/
def halfIsNaN (h : Half) : Bool := decide (h &&& 0x7C00 = 0x7C00) && decide (h &&& 0x03FF ≠ 0)

/-- An fp32 pattern is a NaN (41_formatcaster.md R145). -/
def singleIsNaN (x : Single) : Bool := decide (x &&& 0x7F800000 = 0x7F800000) && decide (x &&& 0x007FFFFF ≠ 0)

/-- The magnitude of the fp16 pattern whose low 15 bits are `m`, in units of `2^-24` (41_formatcaster.md R145): `m` for
a subnormal, `(1024 + m) * 2^(e-1)` for a normal. On `0x7C00` the same formula gives `2^16`, "standing for
infinity" (41_formatcaster.md R142). -/
def halfMagnitude (m : Nat) : Nat :=
  if m / 2 ^ 10 = 0 then m % 2 ^ 10 else (1024 + m % 2 ^ 10) * 2 ^ (m / 2 ^ 10 - 1)

/-- The magnitude of the finite fp32 pattern whose low 31 bits are `m`, in units of `2^-149`
(41_formatcaster.md R145). -/
def singleMagnitude (m : Nat) : Nat :=
  if m / 2 ^ 23 = 0 then m % 2 ^ 23 else (2 ^ 23 + m % 2 ^ 23) * 2 ^ (m / 2 ^ 23 - 1)

/-- The distance of two naturals. -/
def distance (a b : Nat) : Nat := (a - b) + (b - a)

end Sys2Proof.Machine
end

