-- ==== Sys2Proof/Certificates/Slice0/Obligations.lean ====
section
/-! DEFINITION. The statements for the provers. Each docstring names the rules of spec/ it formalises; OBLIGATIONS.json
says which are stated by a rule and which are derived. -/

open Sys2Proof Sys2Proof.Machine

/-! ### Encoding -/

/-- 30_encoding.md R80, R84, R87: the word of every well-formed instruction decodes, at its unit, to that
instruction, with every field at every value its width admits. -/
def Obligations.EncodeThenDecode : Prop :=
  ∀ i : Instr, i.wellFormed = true → decode i.unit (encode i) = .ok i

/-- 30_encoding.md R80, R86: a word that decodes is the one command word of what it decodes to, at that unit. -/
def Obligations.DecodeThenEncode : Prop :=
  ∀ (u : UnitId) (cw : Word) (i : Instr), decode u cw = .ok i → i.unit = u ∧ i.wellFormed = true ∧ encode i = cw

/-- 30_encoding.md R86, clause by clause, with `cw[hi:lo]` as a slice of bits; and every word it maps to ILLEGAL
makes the command fail with ERR_OPCODE, unless the write is dropped because the unit is BUSY. -/
def Obligations.DecodeByFields : Prop :=
  ∀ cw : Word,
    (cw.extractLsb' 32 32 ≠ 0 → ∀ u i, decode u cw ≠ .ok i) ∧
    (cw.extractLsb' 32 32 = 0 → cw.extractLsb' 0 8 = 0x01 →
      decode .pk cw = .ok (.pack (cw.extractLsb' 8 4).toNat (cw.extractLsb' 12 4).toNat (cw.extractLsb' 16 16).toNat)) ∧
    (cw.extractLsb' 32 32 = 0 → cw.extractLsb' 0 8 = 0x02 → cw.extractLsb' 8 24 = 0 → decode .fc cw = .ok .f16ToF32) ∧
    (cw.extractLsb' 32 32 = 0 → cw.extractLsb' 0 8 = 0x03 → cw.extractLsb' 8 24 = 0 → decode .fc cw = .ok .f32ToF16) ∧
    (cw.extractLsb' 0 8 ≠ 0x01 → ∀ i, decode .pk cw ≠ .ok i) ∧
    (cw.extractLsb' 0 8 ≠ 0x02 → cw.extractLsb' 0 8 ≠ 0x03 → ∀ i, decode .fc cw ≠ .ok i) ∧
    (cw.extractLsb' 8 24 ≠ 0 → ∀ i, decode .fc cw ≠ .ok i) ∧
    ∀ u s, (∀ i, decode u cw ≠ .ok i) →
      command u cw s = if s.busy u then .next (dropCommand u s) else .next (raise u .opcode s)

/-- 30_encoding.md R84, opcode_table.json: the words of each row are those its mask and match value select, at the
CMD register of its unit, and no word is a command of both units. -/
def Obligations.RowsOfOpcodeTable : Prop :=
  ∀ cw : Word,
    ((∃ c b l, decode .pk cw = .ok (.pack c b l)) ↔ cw &&& 0xFFFFFFFF000000FF = 0x1) ∧
    (decode .fc cw = .ok .f16ToF32 ↔ cw &&& 0xFFFFFFFFFFFFFFFF = 0x2) ∧
    (decode .fc cw = .ok .f32ToF16 ↔ cw &&& 0xFFFFFFFFFFFFFFFF = 0x3) ∧
    ∀ i j, decode .pk cw = .ok i → decode .fc cw ≠ .ok j

/-- Words of 95_test_vectors.md section 4. -/
def Obligations.SpecWordsDecode : Prop :=
  decode .pk 0x104101 = .ok (.pack 1 4 16) ∧ decode .pk 0x804101 = .ok (.pack 1 4 128) ∧
  decode .pk 0x108101 = .ok (.pack 1 8 16) ∧ decode .pk 0x100104101 = .error .reservedNotZero ∧
  decode .pk 0x02 = .error .notAnOpcodeOfUnit ∧ decode .fc 0x02 = .ok .f16ToF32 ∧ decode .fc 0x03 = .ok .f32ToF16 ∧
  decode .fc 0x102 = .error .fcFieldsNotZero ∧ decode .fc 0x01 = .error .notAnOpcodeOfUnit

/-! ### Reset -/

/-- 10_state.md R32, 70_reset_and_hazards.md R210: after reset every register reads 0 and no command is latched. -/
def Obligations.ResetRegistersReadZero : Prop :=
  (∀ r, readReg r State.reset = 0) ∧ ∀ u, State.reset.latch u = none

/-- 70_reset_and_hazards.md R210, R211: the platform's reset, in whatever state it strikes, leaves every register
reading 0, no command latched, and every byte outside the destination ranges of the commands it abandons unchanged.
That the hosts' programs and readings go on is the model's choice (log entry 13). -/
def Obligations.PlatformResetEffect : Prop :=
  ∀ (s : State) (i : Nat), Inv s →
    ∃ t, act i .platformReset s = .next t ∧ (∀ r, readReg r t = 0) ∧ (∀ u, t.latch u = none) ∧ sameOutside s t ∧
      ∀ a, (∀ u l, s.latch u = some l → l.inDst a = false) → t.mem.read a = s.mem.read a

/-- The invariant of the machine holds after reset. -/
def Obligations.InvHoldsAtReset : Prop := Inv State.reset

/-- The invariant of the machine is kept by every step, from every state. The canonical form of memory is the model's
own. That a unit holds a latch with a legal job inside the address space is 10_state.md R30 and 20_memory.md R56; that
both ranges of a BUSY command are memory is the model's choice (log entry 7: others are refused at issue), and so are
the records of what hosts have touched and the marks of conflicts, with what `Inv` says of them (log entries 5, 6). -/
def Obligations.EveryStepKeepsInv : Prop :=
  ∀ s t : State, Inv s → step s = .next t → Inv t

/-! ### Registers -/

/-- 10_state.md R21, 42_host_protocol.md R161, R166: a descriptor register takes the value written, in every state
(also while its unit is BUSY), and nothing else changes. -/
def Obligations.DescriptorWriteReadBack : Prop :=
  ∀ (r : Reg) (v : Word) (i : Nat) (s : State),
    r ∈ [Reg.pkN, .pkK, .pkSrc, .pkDst, .fcCount, .fcSrc, .fcDst] →
    ∃ t, act i (.wr r v) s = .next t ∧ readReg r t = v ∧ (∀ r', r' ≠ r → readReg r' t = readReg r' s) ∧
      t.pk = s.pk ∧ t.fc = s.fc ∧ t.mem = s.mem ∧ sameOutside s t

/-- 42_host_protocol.md R162: a register read returns the register's value (CMD registers and reserved offsets
read 0) and changes nothing but what its host has read. -/
def Obligations.RegisterReadOnlyObserves : Prop :=
  (∀ (r : Reg) (i : Nat) (s : State),
    act i (.rd r) s = .next { s with observed := s.observed ++ [(i, .reg (BitVec.ofNat 7 r.offset) (readReg r s))] }) ∧
  ∀ (r : Reg) (s : State), r ∈ [Reg.pkCmd, .fcCmd, .rsv30, .rsv38, .rsv68, .rsv70, .rsv78] → readReg r s = 0

/-- 10_state.md R26, 60_exceptions.md R181: the fields of STATUS as it is read, phase by phase: STATE is 0 IDLE, 1 BUSY,
2 DONE, 3 ERROR; ERRCODE is 1 to 6 by the error while STATE is ERROR, and 0 in every other state; bit 8 is OVR; every
reserved bit reads 0. -/
def Obligations.StatusWordFields : Prop :=
  ∀ (s : State) (u : UnitId),
    let w := readReg u.statusReg s
    ((s.unit u).phase = .idle → w.extractLsb' 0 2 = 0) ∧
    (∀ l, (s.unit u).phase = .busy l → w.extractLsb' 0 2 = 1) ∧
    ((s.unit u).phase = .done → w.extractLsb' 0 2 = 2) ∧
    (∀ e, (s.unit u).phase = .error e → w.extractLsb' 0 2 = 3) ∧
    ((s.unit u).phase = .error .opcode → w.extractLsb' 4 4 = 1) ∧
    ((s.unit u).phase = .error .bits → w.extractLsb' 4 4 = 2) ∧
    ((s.unit u).phase = .error .blklen → w.extractLsb' 4 4 = 3) ∧
    ((s.unit u).phase = .error .ctype → w.extractLsb' 4 4 = 4) ∧
    ((s.unit u).phase = .error .dimZero → w.extractLsb' 4 4 = 5) ∧
    ((s.unit u).phase = .error .overflow → w.extractLsb' 4 4 = 6) ∧
    ((∀ e, (s.unit u).phase ≠ .error e) → w.extractLsb' 4 4 = 0) ∧
    w.getLsbD 8 = (s.unit u).ovr ∧ w.extractLsb' 2 2 = 0 ∧ w.extractLsb' 9 55 = 0

/-- 10_state.md R26, 42_host_protocol.md R161: a write to STATUS clears OVR if bit 8 of the value is 1, and does
nothing else. -/
def Obligations.StatusWriteClearsOnlyOvr : Prop :=
  ∀ (u : UnitId) (v : Word) (i : Nat) (s : State),
    ∃ t, act i (.wr u.statusReg v) s = .next t ∧
      t.unit u = { phase := (s.unit u).phase, ovr := (s.unit u).ovr && !v.getLsbD 8 } ∧
      t.unit u.other = s.unit u.other ∧ sameDescriptors s t ∧ t.mem = s.mem ∧ sameOutside s t

/-- 10_state.md R33, 42_host_protocol.md R161: a write to a reserved offset does nothing. -/
def Obligations.ReservedOffsetsInert : Prop :=
  ∀ (r : Reg) (v : Word) (i : Nat) (s : State),
    r ∈ [Reg.rsv30, .rsv38, .rsv68, .rsv70, .rsv78] → act i (.wr r v) s = .next s

/-- 10_state.md R33: an access of the register block reaches the register at its offset exactly when it is a
naturally aligned 64-bit one, and any other is refused by name.
The refusal is the model's choice (log entry 9). -/
def Obligations.RegisterAccessShape : Prop :=
  (∀ (off : BitVec 7) (bytes : Nat) (v : Word) (i : Nat) (s : State), bytes ≠ 8 ∨ off.toNat % 8 ≠ 0 →
    act i (.regWrite off bytes v) s = .refused .registerAccess ∧
    act i (.regRead off bytes) s = .refused .registerAccess) ∧
  ∀ (off : BitVec 7) (r : Reg), accessedReg off 8 = some r ↔ off.toNat = r.offset

/-! ### Command issue: drops and errors -/

/-- 42_host_protocol.md R165: a CMD write while the unit is BUSY is dropped, whatever the word, and sets OVR; the
running command and everything else stay as they are. -/
def Obligations.CommandWhileBusyOnlySetsOvr : Prop :=
  (∀ (u : UnitId) (cw : Word) (s : State), s.busy u = true →
    ∃ t, command u cw s = .next t ∧ t.unit u = { phase := (s.unit u).phase, ovr := true } ∧
      t.unit u.other = s.unit u.other ∧ sameDescriptors s t ∧ t.mem = s.mem ∧ sameOutside s t ∧ t.draws = s.draws) ∧
  ∀ (i : Instr) (s : State), s.busy i.unit = true → exec i s = .next (dropCommand i.unit s)

/-- 10_state.md R26, 42_host_protocol.md R165: OVR is sticky: a step from a state with OVR set leaves it set, unless it is
the step of a host that writes STATUS of that unit with bit 8 set, or the reset of the core. -/
def Obligations.OvrStaysUntilCleared : Prop :=
  ∀ (s t : State) (u : UnitId), step s = .next t → (s.unit u).ovr = true →
    (t.unit u).ovr = true ∨
      ∃ (i : Nat) (x : HostAction) (rest : List HostAction), nextAgent s = some (.host i) ∧
        s.hosts[i]? = some (x :: rest) ∧
        (x = .platformReset ∨ ∃ v : Word, v.getLsbD 8 = true ∧ x = .wr u.statusReg v)

/-- 60_exceptions.md R190: what an error entry changes: STATE becomes ERROR with the code, and nothing else. STATUS
then reads `3 + 16 * code`, with OVR as it was. -/
def Obligations.ErrorEntry : Prop :=
  ∀ (u : UnitId) (e : ErrCode) (s : State),
    (raise u e s).unit u = { phase := .error e, ovr := (s.unit u).ovr } ∧ (raise u e s).unit u.other = s.unit u.other ∧
    sameDescriptors s (raise u e s) ∧ (raise u e s).mem = s.mem ∧ sameOutside s (raise u e s) ∧
    (raise u e s).draws = s.draws ∧
    readReg u.statusReg (raise u e s) = BitVec.ofNat 64 (3 + 16 * e.code + 256 * (s.unit u).ovr.toNat)

/-- 60_exceptions.md R182: ERR_OPCODE, raised by either unit for every word that is not one of its commands. Example
of the rule: `WR FC_CMD, 0x01` after reset gives FC_STATUS = 0x13. -/
def Obligations.IllegalWordIsErrOpcode : Prop :=
  (∀ (u : UnitId) (cw : Word) (s : State), s.busy u = false →
    (cw.extractLsb' 32 32 ≠ 0 ∨ (u = .pk ∧ cw.extractLsb' 0 8 ≠ 0x01) ∨
      (u = .fc ∧ cw.extractLsb' 0 8 ≠ 0x02 ∧ cw.extractLsb' 0 8 ≠ 0x03) ∨ (u = .fc ∧ cw.extractLsb' 8 24 ≠ 0)) →
    command u cw s = .next (raise u .opcode s)) ∧
  ∃ t, command .fc 0x01 State.reset = .next t ∧ readReg .fcStatus t = 0x13

/-- 60_exceptions.md R183 with the order of R189: PACK with `bits ≠ 4` reports ERR_BITS, whatever its other operands.
Example of the rule: the word 0x00208101 gives PK_STATUS = 0x23. -/
def Obligations.UnsupportedBitsReported : Prop :=
  (∀ (c b l : Nat) (s : State), s.busy .pk = false → b ≠ 4 → exec (.pack c b l) s = .next (raise .pk .bits s)) ∧
  ∃ t, command .pk 0x00208101 State.reset = .next t ∧ readReg .pkStatus t = 0x23

/-- 60_exceptions.md R184 with the order of R189: PACK whose bits are right and whose block length is not one of 16,
32, 64, 128 reports ERR_BLKLEN. Example of the rule: the word 0x00084101 gives PK_STATUS = 0x33. -/
def Obligations.UnsupportedBlockLengthReported : Prop :=
  (∀ (c l : Nat) (s : State), s.busy .pk = false → l ≠ 16 → l ≠ 32 → l ≠ 64 → l ≠ 128 →
    exec (.pack c 4 l) s = .next (raise .pk .blklen s)) ∧
  ∃ t, command .pk 0x00084101 State.reset = .next t ∧ readReg .pkStatus t = 0x33

/-- 60_exceptions.md R185 with the order of R189: PACK whose bits and block length are supported and whose compute
type is not 1 reports ERR_CTYPE. Example of the rule: the word 0x00204001 gives PK_STATUS = 0x43. -/
def Obligations.UnsupportedComputeTypeReported : Prop :=
  (∀ (c l : Nat) (s : State), s.busy .pk = false → l ∈ [16, 32, 64, 128] → c ≠ 1 →
    exec (.pack c 4 l) s = .next (raise .pk .ctype s)) ∧
  ∃ t, command .pk 0x00204001 State.reset = .next t ∧ readReg .pkStatus t = 0x43

/-- 60_exceptions.md R186 with the order of R189: PACK with supported fields and `PK_N = 0` or `PK_K = 0` reports
ERR_DIM_ZERO; the FC operations never do. Example of the rule: straight after reset, PK_STATUS = 0x53. -/
def Obligations.ZeroDimensionReported : Prop :=
  (∀ (l : Nat) (s : State), s.busy .pk = false → l ∈ [16, 32, 64, 128] → s.pkN = 0 ∨ s.pkK = 0 →
    exec (.pack 1 4 l) s = .next (raise .pk .dimZero s)) ∧
  (∀ (i : Instr) (s t : State), i.unit = .fc → exec i s = .next t → t.fc.phase ≠ .error .dimZero) ∧
  ∃ t, exec (.pack 1 4 32) State.reset = .next t ∧ readReg .pkStatus t = 0x53

/-- 60_exceptions.md R187 with the order of R189: over the naturals, PACK with supported fields and non-zero
dimensions, and the FC operations, report ERR_OVERFLOW when a size or the end of a range does not fit. Example of
the rule: `PK_N = PK_K = 2^40`, block length 16, gives PK_STATUS = 0x63. -/
def Obligations.OverflowReported : Prop :=
  (∀ (l : Nat) (s : State), s.busy .pk = false → l ∈ [16, 32, 64, 128] → s.pkN ≠ 0 → s.pkK ≠ 0 →
    2 ^ 64 ≤ kpad s.pkK.toNat l ∨ 2 ^ 64 ≤ packSize s.pkN.toNat s.pkK.toNat l ∨
      2 ^ 64 < s.pkSrc.toNat + packSize s.pkN.toNat s.pkK.toNat l ∨
      2 ^ 64 < s.pkDst.toNat + packSize s.pkN.toNat s.pkK.toNat l →
    exec (.pack 1 4 l) s = .next (raise .pk .overflow s)) ∧
  (∀ s : State, s.busy .fc = false →
    2 ^ 64 ≤ 2 * s.fcCount.toNat ∨ 2 ^ 64 ≤ 4 * s.fcCount.toNat ∨ 2 ^ 64 < s.fcSrc.toNat + 2 * s.fcCount.toNat ∨
      2 ^ 64 < s.fcDst.toNat + 4 * s.fcCount.toNat →
    exec .f16ToF32 s = .next (raise .fc .overflow s)) ∧
  (∀ s : State, s.busy .fc = false →
    2 ^ 64 ≤ 4 * s.fcCount.toNat ∨ 2 ^ 64 ≤ 2 * s.fcCount.toNat ∨ 2 ^ 64 < s.fcSrc.toNat + 4 * s.fcCount.toNat ∨
      2 ^ 64 < s.fcDst.toNat + 2 * s.fcCount.toNat →
    exec .f32ToF16 s = .next (raise .fc .overflow s)) ∧
  ∃ t, exec (.pack 1 4 16) { State.reset with pkN := 2 ^ 40, pkK := 2 ^ 40 } = .next t ∧ readReg .pkStatus t = 0x63

/-- 60_exceptions.md R191, 42_host_protocol.md R163: a command is accepted from IDLE, DONE and ERROR alike: what its
issue does does not depend on which of them the unit is in. -/
def Obligations.IssueFromAnyRestingState : Prop :=
  ∀ (i : Instr) (s : State) (p q : Phase), p.latch = none → q.latch = none →
    exec i (s.setPhase i.unit p) = exec i (s.setPhase i.unit q)

/-- 42_host_protocol.md R163, 60_exceptions.md R190, R197 (a): what the write of a command word leaves unchanged
whenever it answers a next state: all of memory, the descriptors, the other unit (but for the model's mark of a
conflict with its running command), the hosts and the platform; and OVR, unless the write was dropped. -/
def Obligations.IssueFrame : Prop :=
  ∀ (u : UnitId) (cw : Word) (s t : State), command u cw s = .next t →
    t.mem = s.mem ∧ sameDescriptors s t ∧ sameOutside s t ∧ sameUnitButClash u.other s t ∧
    readReg u.other.statusReg t = readReg u.other.statusReg s ∧
    (s.busy u = false → (t.unit u).ovr = (s.unit u).ovr)

/-- 93_implementation_defined.md U2, 92_eei_decisions.md D17: a command that passes its checks and whose ranges are
not all memory is refused by name. The spec claims nothing of such a command; the refusal is the model's reading of
"A model refuses such a command" (log entry 7). -/
def Obligations.RangeNotMemoryRefused : Prop :=
  ∀ (i : Instr) (s : State), s.busy i.unit = false → firstError i s = none →
    (requested i s).backed s.platform = false → exec i s = .refused .rangeNotMemory

/-! ### What the commands compute -/

/-- 40_packer.md R104 with R100, R102, R103; 42_host_protocol.md R163, R164: PACK whose checks pass and whose ranges are
memory makes PK BUSY with the operands latched and touches nothing else, whether or not its own ranges overlap or it
conflicts with a running command (60_exceptions.md R188, 70_reset_and_hazards.md R216, R217: not checked by the
hardware). Its completion changes no byte outside the destination and leaves DONE; where the ranges are apart and
nothing conflicts it writes every interleaved byte at its position. The mark of a conflict is the model's own (log
entry 6). -/
def Obligations.PackCompletes : Prop :=
  ∀ (l : Nat) (s : State), Inv s → s.busy .pk = false → l ∈ [16, 32, 64, 128] →
    let n := s.pkN.toNat
    let k := s.pkK.toNat
    let src := s.pkSrc.toNat
    let dst := s.pkDst.toNat
    let line := ldb k l
    let cmd := Latch.fresh (.pack n k l) src dst
    1 ≤ n → 1 ≤ k → kpad k l < 2 ^ 64 → n * line < 2 ^ 64 → src + n * line ≤ 2 ^ 64 → dst + n * line ≤ 2 ^ 64 →
    s.platform.rangeValid src (n * line) = true → s.platform.rangeValid dst (n * line) = true →
    ∃ t, exec (.pack 1 4 l) s = .next t ∧
      t.latch .pk = some { cmd with clash := clashesWith .fc cmd s } ∧ t.pk.ovr = s.pk.ovr ∧
      readReg .pkStatus t = BitVec.ofNat 64 (1 + 256 * s.pk.ovr.toNat) ∧
      sameUnitButClash .fc s t ∧ (clashesWith .fc cmd s = false → t.fc = s.fc) ∧
      t.mem = s.mem ∧ sameDescriptors s t ∧ sameOutside s t ∧
      (finish .pk t).pk = { phase := .done, ovr := s.pk.ovr } ∧ (finish .pk t).fc = t.fc ∧
      sameDescriptors s (finish .pk t) ∧ sameOutside s (finish .pk t) ∧
      (overlaps src (n * line) dst (n * line) = false → clashesWith .fc cmd s = false →
        ∀ c b, c < n → b < line →
          (finish .pk t).mem.read (dst + packPos n line c b) =
            (getNibble (s.mem.read (src + c * line + 8 * (b / 8) + b % 8 / 2)) (b % 8) |||
              (getNibble (s.mem.read (src + c * line + 8 * (b / 8) + b % 8 / 2 + 4)) (b % 8 + 8) <<< 4))) ∧
      ∀ a, ¬ (dst ≤ a ∧ a < dst + n * line) → (finish .pk t).mem.read a = s.mem.read a

/-- 41_formatcaster.md R131 with R130; 42_host_protocol.md R163, R164: F16TOF32 whose overflow check passes and whose ranges
are memory makes FC BUSY with the operands latched and touches nothing else, whether or not its own ranges overlap or
it conflicts with a running command (60_exceptions.md R188, 70_reset_and_hazards.md R216, R217). Its completion changes
no byte outside the destination and leaves DONE; where the ranges are apart and nothing conflicts it writes `Widen` of
every source element, little-endian. `count = 0` is among the cases. On a NaN `widen` is some NaN and open (log entry
8); the mark of a conflict is the model's own (log entry 6). -/
def Obligations.F16ToF32Completes : Prop :=
  ∀ s : State, Inv s → s.busy .fc = false →
    let n := s.fcCount.toNat
    let src := s.fcSrc.toNat
    let dst := s.fcDst.toNat
    let cmd := Latch.fresh (.widen n) src dst
    4 * n < 2 ^ 64 → src + 2 * n ≤ 2 ^ 64 → dst + 4 * n ≤ 2 ^ 64 →
    s.platform.rangeValid src (2 * n) = true → s.platform.rangeValid dst (4 * n) = true →
    ∃ t, exec .f16ToF32 s = .next t ∧
      t.latch .fc = some { cmd with clash := clashesWith .pk cmd s } ∧ t.fc.ovr = s.fc.ovr ∧
      readReg .fcStatus t = BitVec.ofNat 64 (1 + 256 * s.fc.ovr.toNat) ∧
      sameUnitButClash .pk s t ∧ (clashesWith .pk cmd s = false → t.pk = s.pk) ∧
      t.mem = s.mem ∧ sameDescriptors s t ∧ sameOutside s t ∧
      (finish .fc t).fc = { phase := .done, ovr := s.fc.ovr } ∧ (finish .fc t).pk = t.pk ∧
      sameDescriptors s (finish .fc t) ∧ sameOutside s (finish .fc t) ∧
      (overlaps src (2 * n) dst (4 * n) = false → clashesWith .pk cmd s = false →
        ∀ i, i < n → (finish .fc t).mem.read4 (dst + 4 * i) = widen (s.mem.read2 (src + 2 * i))) ∧
      ∀ a, ¬ (dst ≤ a ∧ a < dst + 4 * n) → (finish .fc t).mem.read a = s.mem.read a

/-- 41_formatcaster.md R140 with R130; 42_host_protocol.md R163, R164: the same for F32TOF16 and `Narrow`. On a NaN `narrow` is
some NaN and open (log entry 8); the mark of a conflict is the model's own (log entry 6). -/
def Obligations.F32ToF16Completes : Prop :=
  ∀ s : State, Inv s → s.busy .fc = false →
    let n := s.fcCount.toNat
    let src := s.fcSrc.toNat
    let dst := s.fcDst.toNat
    let cmd := Latch.fresh (.narrow n) src dst
    4 * n < 2 ^ 64 → src + 4 * n ≤ 2 ^ 64 → dst + 2 * n ≤ 2 ^ 64 →
    s.platform.rangeValid src (4 * n) = true → s.platform.rangeValid dst (2 * n) = true →
    ∃ t, exec .f32ToF16 s = .next t ∧
      t.latch .fc = some { cmd with clash := clashesWith .pk cmd s } ∧ t.fc.ovr = s.fc.ovr ∧
      readReg .fcStatus t = BitVec.ofNat 64 (1 + 256 * s.fc.ovr.toNat) ∧
      sameUnitButClash .pk s t ∧ (clashesWith .pk cmd s = false → t.pk = s.pk) ∧
      t.mem = s.mem ∧ sameDescriptors s t ∧ sameOutside s t ∧
      (finish .fc t).fc = { phase := .done, ovr := s.fc.ovr } ∧ (finish .fc t).pk = t.pk ∧
      sameDescriptors s (finish .fc t) ∧ sameOutside s (finish .fc t) ∧
      (overlaps src (4 * n) dst (2 * n) = false → clashesWith .pk cmd s = false →
        ∀ i, i < n → (finish .fc t).mem.read2 (dst + 2 * i) = narrow (s.mem.read4 (src + 4 * i))) ∧
      ∀ a, ¬ (dst ≤ a ∧ a < dst + 2 * n) → (finish .fc t).mem.read a = s.mem.read a

/-- 42_host_protocol.md R164, 20_memory.md R51, 93_implementation_defined.md U3, U5: the frame of every completion,
also of a command whose ranges overlap or conflict with another's: DONE, the latch dropped, OVR, the descriptors,
the other unit and every byte outside the destination range unchanged. -/
def Obligations.CompletionFrame : Prop :=
  ∀ (u : UnitId) (l : Latch) (s : State), Inv s → s.latch u = some l →
    (finish u s).unit u = { phase := .done, ovr := (s.unit u).ovr } ∧ (finish u s).unit u.other = s.unit u.other ∧
    sameDescriptors s (finish u s) ∧ sameOutside s (finish u s) ∧
    ∀ a, l.inDst a = false → (finish u s).mem.read a = s.mem.read a

/-- 41_formatcaster.md R130: each destination element depends only on the source element of the same index: two
memories that agree on source element `i` give the same destination element `i`, whatever else they hold. -/
def Obligations.ElementsIndependent : Prop :=
  ∀ (s : State) (m : Memory) (l : Latch) (i : Nat), Inv s → m.wf → s.latch .fc = some l → l.calm →
    (∀ n, l.job = .widen n → i < n → s.mem.read2 (l.src + 2 * i) = m.read2 (l.src + 2 * i) →
      (finish .fc s).mem.read4 (l.dst + 4 * i) = (finish .fc { s with mem := m }).mem.read4 (l.dst + 4 * i)) ∧
    (∀ n, l.job = .narrow n → i < n → s.mem.read4 (l.src + 4 * i) = m.read4 (l.src + 4 * i) →
      (finish .fc s).mem.read2 (l.dst + 2 * i) = (finish .fc { s with mem := m }).mem.read2 (l.dst + 2 * i))

/-! ### The layout of PACK -/

/-- 40_packer.md R102: the interleaved byte of position `i` of sub-block `s` of column `n`, as elements `16s + i` and
`16s + i + 8` of the source and as the eight source bytes `p0 … p7` of the sub-block.
The eight bytes are the spec's own inference ("derived: from rule R101"). -/
def Obligations.InterleavedBytes : Prop :=
  ∀ (line n s : Nat) (S : Nat → Byte),
    let rd : Nat → Nat → Byte := fun _ x => S x
    let elem : Nat → Byte := fun i => getNibble (S (n * line + i / 2)) i
    let p : Nat → Byte := fun j => S (n * line + 8 * s + j)
    (∀ i, i < 8 → interleaved line rd n (8 * s + i) = elem (16 * s + i) ||| (elem (16 * s + i + 8) <<< 4)) ∧
    (∀ j, j < 4 →
      interleaved line rd n (8 * s + 2 * j) = (p j &&& 0xF) ||| ((p (j + 4) &&& 0xF) <<< 4) ∧
      interleaved line rd n (8 * s + 2 * j + 1) = (p j >>> 4) ||| ((p (j + 4) >>> 4) <<< 4))

/-- 40_packer.md R108 (a): `pos` is a bijection from the cells `(n, b)` onto the offsets `0 … size - 1`, and the
reading backwards that the model uses is its inverse.
The spec's own inference ("derived: from rule R103"). -/
def Obligations.PackPositionsBijection : Prop :=
  ∀ cols k blklen : Nat, blklen ∈ [16, 32, 64, 128] →
    let line := ldb k blklen
    (∀ n b, n < cols → b < line →
      packPos cols line n b < cols * line ∧ packCell cols line (packPos cols line n b) = (n, b)) ∧
    ∀ off, off < cols * line →
      (packCell cols line off).1 < cols ∧ (packCell cols line off).2 < line ∧
        packPos cols line (packCell cols line off).1 (packCell cols line off).2 = off

/-- 40_packer.md R109: the destination nibble by nibble. In the tiles, the byte at `n0 * Ldb + 64s + 8i + c` holds
elements `16s + i` and `16s + i + 8` of column `n`; in a leftover column, the byte at `n * Ldb + 8s + i` does.
The spec's own inference ("derived: from rules R102, R103"). -/
def Obligations.PackNibbleByNibble : Prop :=
  ∀ (cols k blklen n s i : Nat) (S : Nat → Byte), blklen ∈ [16, 32, 64, 128] →
    let line := ldb k blklen
    n < cols → 8 * s < line → i < 8 →
    let off := if n < 8 * (cols / 8) then 8 * (n / 8) * line + 64 * s + 8 * i + n % 8 else n * line + 8 * s + i
    let d := packByte cols line (fun _ x => S x) off
    d &&& 0xF = getNibble (S (n * line + (16 * s + i) / 2)) (16 * s + i) ∧
    d >>> 4 = getNibble (S (n * line + (16 * s + i + 8) / 2)) (16 * s + i + 8)

/-- 40_packer.md R112: the round trip, both ways: `Unpack(Pack(S)) = S` and `Pack(Unpack(P)) = P`, byte for byte.
The spec's own inference ("derived: from rule R108"). -/
def Obligations.PackRoundTrip : Prop :=
  ∀ (cols k blklen off : Nat) (S : Nat → Byte), blklen ∈ [16, 32, 64, 128] → off < packSize cols k blklen →
    let line := ldb k blklen
    unpackByte cols line (fun o => packByte cols line (fun _ x => S x) o) off = S off ∧
    packByte cols line (fun _ x => unpackByte cols line S x) off = S off

/-! ### The conversions -/

/-- 41_formatcaster.md R132 with R145: every fp16 pattern that is no infinity and no NaN widens to a finite fp32
pattern of the same sign and exactly the same value (magnitudes in units of `2^-24` and `2^-149`).
The value formulas are the spec's general knowledge (log entry 16). -/
def Obligations.WidenExact : Prop :=
  ∀ h : Half, h &&& 0x7C00 ≠ 0x7C00 →
    (widen h).toNat / 2 ^ 31 = h.toNat / 2 ^ 15 ∧ widen h &&& 0x7F800000 ≠ 0x7F800000 ∧
    singleMagnitude ((widen h).toNat % 2 ^ 31) = halfMagnitude (h.toNat % 2 ^ 15) * 2 ^ 125

/-- 41_formatcaster.md R133: infinities widen to the infinity of the same sign, NaNs to NaNs.
Which NaN is the model's open choice (log entry 8). -/
def Obligations.WidenInfinitiesAndNaNs : Prop :=
  widen 0x7C00 = 0x7F800000 ∧ widen 0xFC00 = 0xFF800000 ∧ ∀ h, halfIsNaN h = true → singleIsNaN (widen h) = true

/-- 41_formatcaster.md R142: for a finite fp32 pattern the result keeps the sign, and its magnitude is nearest to that
of the input among the fp16 magnitudes extended by `2^16` (the pattern 0x7C00, standing for infinity); when two
are equally near, the one with an even pattern is taken.
The tie rule is the spec's own decision D21 (log entry 16). -/
def Obligations.NarrowRoundsToNearestEven : Prop :=
  ∀ x : Single, x &&& 0x7F800000 ≠ 0x7F800000 →
    let v := singleMagnitude (x.toNat % 2 ^ 31)
    let q := (narrow x).toNat % 2 ^ 15
    (narrow x).toNat / 2 ^ 15 = x.toNat / 2 ^ 31 ∧ q ≤ 0x7C00 ∧
    ∀ c, c ≤ 0x7C00 → c ≠ q →
      distance v (halfMagnitude q * 2 ^ 125) < distance v (halfMagnitude c * 2 ^ 125) ∨
      (distance v (halfMagnitude q * 2 ^ 125) = distance v (halfMagnitude c * 2 ^ 125) ∧ q % 2 = 0)

/-- 41_formatcaster.md R141, R143: NaNs narrow to NaNs, infinities to the infinity of the same sign; a NaN never
becomes an infinity and an infinity never a NaN.
Which NaN is the model's open choice (log entry 8). -/
def Obligations.NarrowInfinitiesAndNaNs : Prop :=
  narrow 0x7F800000 = 0x7C00 ∧ narrow 0xFF800000 = 0xFC00 ∧ ∀ x, singleIsNaN (x) = halfIsNaN (narrow x)

/-- 41_formatcaster.md R144 (a): `Narrow` is odd in the sign, for every pattern that is no NaN.
The spec's own inference ("derived: from rules R141, R142"). -/
def Obligations.NarrowOddInSign : Prop :=
  ∀ x : Single, singleIsNaN x = false → narrow (x ^^^ 0x80000000) = narrow x ^^^ 0x8000

/-- 41_formatcaster.md R144 (a): `Narrow` is monotone on finite magnitudes.
The spec's own inference ("derived: from rules R141, R142"). -/
def Obligations.NarrowMonotone : Prop :=
  ∀ x y : Single, x &&& 0x7F800000 ≠ 0x7F800000 → y &&& 0x7F800000 ≠ 0x7F800000 →
    singleMagnitude (x.toNat % 2 ^ 31) ≤ singleMagnitude (y.toNat % 2 ^ 31) →
    halfMagnitude ((narrow x).toNat % 2 ^ 15) ≤ halfMagnitude ((narrow y).toNat % 2 ^ 15)

/-- 41_formatcaster.md R134 (c): narrowing undoes widening, for every pattern that is no NaN.
The spec's own inference ("derived: from rule R132"). -/
def Obligations.NarrowUndoesWiden : Prop :=
  ∀ h : Half, halfIsNaN h = false → narrow (widen h) = h

/-! ### Hosts and memory -/

/-- 30_encoding.md R87, 93_implementation_defined.md U4: a host's store to memory stores its bytes and changes no
other byte, no register and no STATUS, also while units are BUSY.
Bytes of a running range are settled by free choices (log entry 5). -/
def Obligations.HostStoreEffect : Prop :=
  ∀ (a : Word) (bs : List Byte) (i : Nat) (s : State), Inv s → s.platform.rangeValid a.toNat bs.length = true →
    ∃ t, act i (.memWrite a bs) s = .next t ∧ (∀ r, readReg r t = readReg r s) ∧ sameOutside s t ∧
      (∀ j, j < bs.length → t.mem.read (a.toNat + j) = bs.getD j 0) ∧
      ∀ x, ¬ (a.toNat ≤ x ∧ x < a.toNat + bs.length) → t.mem.read x = s.mem.read x

/-- 30_encoding.md R87, 20_memory.md R58 (a): a host's load outside the destination ranges of the running commands
returns the bytes of memory and changes nothing but what its host has read. -/
def Obligations.HostLoadEffect : Prop :=
  ∀ (a : Word) (n : Nat) (i : Nat) (s : State), s.platform.rangeValid a.toNat n = true →
    (∀ u l x, s.latch u = some l → a.toNat ≤ x → x < a.toNat + n → l.inDst x = false) →
    act i (.memRead a n) s =
      .next { s with
        observed := s.observed ++ [(i, .mem a ((List.range n).map fun j => s.mem.read (a.toNat + j)))] }

/-- 10_state.md R33, 20_memory.md R55, 93_implementation_defined.md U6: a host's own access to bytes that are not all
memory stops: it is refused where it touches the register block, and otherwise faults. That it stops is the
model's choice (log entries 9, 10). -/
def Obligations.BadHostAddressStops : Prop :=
  ∀ (a : Word) (bs : List Byte) (n i : Nat) (s : State),
    (s.platform.rangeValid a.toNat bs.length = false →
      act i (.memWrite a bs) s = if outsideBlock s.platform a.toNat bs.length then .fault .hostAddressNotMemory
        else .refused .registerByteAccess) ∧
    (s.platform.rangeValid a.toNat n = false →
      act i (.memRead a n) s = if outsideBlock s.platform a.toNat n then .fault .hostAddressNotMemory
        else .refused .registerByteAccess)

/-- 30_encoding.md R87: `WAIT` polls while its unit is BUSY, which changes nothing, and answers a STATUS whose STATE is
not BUSY.
That such a poll is no step is the model's choice (log entry 3). -/
def Obligations.WaitAnswersWhenNotBusy : Prop :=
  ∀ (s : State) (i : Nat) (u : UnitId) (rest : List HostAction), s.hosts[i]? = some (.wait u :: rest) →
    (s.busy u = true → hostStep i s = .next s) ∧
    (s.busy u = false → ∃ w, w.extractLsb' 0 2 ≠ 1 ∧ w = readReg u.statusReg s ∧
      hostStep i s = .next { s with
        hosts := s.hosts.set i rest, observed := s.observed ++ [(i, .waited u w)] })

/-! ### Steps and runs -/

/-- 42_host_protocol.md R160, R163: where the next action of the host whose turn it is writes a command word, the step
is `exec` of the instruction the word decodes to; around it, one entry of the schedule and one draw are used up
and the action is taken from the host's program. A host named first in the schedule that has an action to take
is the one whose turn it is.
The schedule and the draws are the model's own (log entries 3, 4). -/
def Obligations.StepRunsDecodedCommand : Prop :=
  (∀ (s : State) (j : Nat) (u : UnitId) (cw : Word) (rest : List HostAction) (i : Instr),
    nextAgent s = some (.host j) → s.hosts[j]? = some (.wr u.cmdReg cw :: rest) → decode u cw = .ok i →
    step s = exec i { s with hosts := s.hosts.set j rest, turns := s.turns.tail, draws := s.draws + 1 }) ∧
  ∀ (s : State) (j : Nat) (ts : List Agent), s.turns = .host j :: ts → hostReady s j = true →
    nextAgent s = some (.host j)

/-- Log entry 11 (the model's own way to place a command): the step after `withFetchWord` runs the instruction of the
word, from every state. -/
def Obligations.FetchWordRunsNext : Prop :=
  ∀ (s : State) (w : Nat) (i : Instr), decodeTableWord 64 w = some i →
    step (s.withFetchWord 64 w) =
      exec i { s with hosts := (match s.hosts with | [] => [[]] | q :: qs => q :: qs), draws := s.draws + 1 }

/-- 42_host_protocol.md R160, R164: where it is a unit's turn, the step is its completion.
That the completion is one step is the model's choice (log entry 5). -/
def Obligations.UnitTurnCompletes : Prop :=
  ∀ (s : State) (u : UnitId), nextAgent s = some (.unit u) → step s = .next (finish u (tick s))

/-- 42_host_protocol.md R168, R171: every step of a run that has not ended brings its end nearer, and a run that has
ended stays where it is.
That a poll of a BUSY unit is no step is the model's choice (log entry 3). -/
def Obligations.EveryStepShortensTheRun : Prop :=
  ∀ s t : State, step s = .next t → (¬ s.ended → workLeft t < workLeft s) ∧ (s.ended → t = s)

/-- 42_host_protocol.md R168: every run of finitely many host actions ends within `workLeft` steps, with no unit BUSY,
unless an action of a host stops it: every accepted command completes.
The model has no other fairness than that (log entries 3, 18). -/
def Obligations.RunsEnd : Prop :=
  ∀ s : State, match runFor (workLeft s) s with
    | .next t => State.ended t
    | .fault _ => True
    | .refused _ => True

/-- 10_state.md R21, R31: no step changes the platform; and a step that changes a descriptor register is the write of the
host whose turn it is to a descriptor register, or its reset of the core. -/
def Obligations.OnlyHostsWriteDescriptors : Prop :=
  ∀ s t : State, step s = .next t →
    t.platform = s.platform ∧
    (sameDescriptors s t ∨ ∃ (i : Nat) (x : HostAction) (rest : List HostAction),
      nextAgent s = some (.host i) ∧ s.hosts[i]? = some (x :: rest) ∧
      (x = .platformReset ∨ ∃ r v, r ∈ [Reg.pkN, .pkK, .pkSrc, .pkDst, .fcCount, .fcSrc, .fcDst] ∧ x = .wr r v))

/-- 10_state.md R29, 20_memory.md R51: a byte of memory that a step changes is in the destination range of the unit that
completes in it, or in the range of the store of the host whose turn it is; or it is in the destination range of a
BUSY unit and that host loads it or resets the core (70_reset_and_hazards.md R211). That a load can make a running
unit's write of a byte happen is the model's way of settling it (log entry 5). -/
def Obligations.OnlyOwnersWriteMemory : Prop :=
  ∀ (s t : State) (a : Nat), Inv s → step s = .next t → t.mem.read a ≠ s.mem.read a →
    (∃ u l, nextAgent s = some (.unit u) ∧ s.latch u = some l ∧ l.inDst a = true) ∨
    ∃ (i : Nat) (x : HostAction) (rest : List HostAction),
      nextAgent s = some (.host i) ∧ s.hosts[i]? = some (x :: rest) ∧
      ((∃ (b : Word) (bs : List Byte), x = .memWrite b bs ∧ inRange b.toNat bs.length a = true) ∨
        ((x = .platformReset ∨ ∃ (b : Word) (n : Nat), x = .memRead b n ∧ inRange b.toNat n a = true) ∧
          ∃ u l, s.latch u = some l ∧ l.inDst a = true))

/-- 10_state.md R34: the unit state machine. A step leaves STATE and ERRCODE of a unit as they are, or is the turn of that
unit, which was BUSY, and completes it to DONE, or is the turn of a host that writes its CMD register while it is not
BUSY (to BUSY or ERROR) or resets the core (to IDLE). -/
def Obligations.UnitStateMachine : Prop :=
  ∀ (s t : State) (u : UnitId), step s = .next t →
    ((t.unit u).phase.stateField = (s.unit u).phase.stateField ∧
      (t.unit u).phase.errField = (s.unit u).phase.errField) ∨
    (nextAgent s = some (.unit u) ∧ s.busy u = true ∧ (t.unit u).phase = .done) ∨
    ∃ (i : Nat) (x : HostAction) (rest : List HostAction),
      nextAgent s = some (.host i) ∧ s.hosts[i]? = some (x :: rest) ∧
      ((x = .platformReset ∧ (t.unit u).phase = .idle) ∨
        (s.busy u = false ∧ (∃ cw, x = .wr u.cmdReg cw) ∧ (t.busy u = true ∨ ∃ e, (t.unit u).phase = .error e)))

/-! ### Hosts that keep their duties -/

/-- 70_reset_and_hazards.md R214 to R217, R219: while hosts keep their duties no running command is disturbed: every
step from a calm state leads to a calm state. -/
def Obligations.DutifulStepsStayCalm : Prop :=
  ∀ s t : State, Inv s → s.calm → s.dutiful → step s = .next t → t.calm

/-- 20_memory.md R59: if from the issue of a command to its completion every host keeps its duties, the command is one
atomic step at its completion: the destination range receives the function of the source bytes as they were at
the issue, and the completion changes no other byte.
The spec's own inference ("derived: from rule R58"), and the model's way of running a command (log entry 5). -/
def Obligations.UndisturbedCommandIsAtomic : Prop :=
  ∀ (u : UnitId) (l : Latch) (s t t' : State), Inv s → s.calm → s.latch u = some l → DutifulWhileBusy u s t →
    t.dutiful → step t = .next t' → t'.busy u = false →
    (t'.unit u).phase = .done ∧
    (∀ off, off < l.job.dstLen →
      t'.mem.read (l.dst + off) = destByte l.job (fun _ x => s.mem.read (l.src + x)) off) ∧
    (∀ a, l.inSrc a = true → t'.mem.read a = s.mem.read a) ∧ ∀ a, l.inDst a = false → t'.mem.read a = t.mem.read a

/-- 20_memory.md R60, 70_reset_and_hazards.md R216: for two running commands that do not conflict and that nobody has
disturbed, the order in which they complete does not show. -/
def Obligations.CompletionOrderDoesNotShow : Prop :=
  ∀ s : State, Inv s → s.calm → s.busy .pk = true → s.busy .fc = true →
    finish .pk (finish .fc s) = finish .fc (finish .pk s)

/-! ### Hosts that do not -/

/-- 93_implementation_defined.md U4, 70_reset_and_hazards.md R215: a host's load, wherever memory is, answers a next state.
Each byte it returns is the byte of memory, or, in the destination range of a BUSY command, the byte that command
leaves there at its completion (any value where it conflicts with another command, U5); of a command that nobody had
disturbed that is its operation's function of the source. The load changes no register, and no byte but those it
returns. Settling the byte at the load is the model's way (log entry 5). -/
def Obligations.RacingLoadReturnsOldOrFinal : Prop :=
  ∀ (a : Word) (n i : Nat) (s : State), Inv s → s.platform.rangeValid a.toNat n = true →
    ∃ t bs, act i (.memRead a n) s = .next t ∧ bs.length = n ∧ t.observed = s.observed ++ [(i, .mem a bs)] ∧
      (∀ r, readReg r t = readReg r s) ∧ t.platform = s.platform ∧ t.hosts = s.hosts ∧ t.turns = s.turns ∧
      (∀ x, ¬ (a.toNat ≤ x ∧ x < a.toNat + n) → t.mem.read x = s.mem.read x) ∧
      ∀ j, j < n → bs.getD j 0 = s.mem.read (a.toNat + j) ∨
        ∃ u l, s.latch u = some l ∧ l.inDst (a.toNat + j) = true ∧
          (l.clash = false → (finish u t).mem.read (a.toNat + j) = bs.getD j 0) ∧
          (l.calm → bs.getD j 0 =
            destByte l.job (fun _ x => s.mem.read (l.src + x)) (a.toNat + j - l.dst))

/-- 93_implementation_defined.md U4, 70_reset_and_hazards.md R214, R215: what a host's racing store leaves. After it and the
completion of a command that was undisturbed before, each destination byte the host stored to holds the host's byte or
the unit's, and every other destination byte the unit's. The unit's byte is its operation's function of source bytes
each of which is, for each read, the old one or one the host stored. The reads for one destination byte are
independent of those for another (log entries 5, 19). -/
def Obligations.RacingStoreLeavesEither : Prop :=
  ∀ (a : Word) (bs : List Byte) (i : Nat) (s : State) (u : UnitId) (l : Latch), Inv s →
    s.platform.rangeValid a.toNat bs.length = true → s.latch u = some l → l.calm →
    ∃ t, act i (.memWrite a bs) s = .next t ∧ (finish u t).unit u = { phase := .done, ovr := (s.unit u).ovr } ∧
      ∀ off, off < l.job.dstLen →
        (∃ j, j < bs.length ∧ a.toNat + j = l.dst + off ∧ (finish u t).mem.read (l.dst + off) = bs.getD j 0) ∨
        ∃ rd : Nat → Nat → Byte, (finish u t).mem.read (l.dst + off) = destByte l.job rd off ∧
          ∀ k x, x < l.job.srcLen → rd k x = s.mem.read (l.src + x) ∨
            ∃ j, j < bs.length ∧ a.toNat + j = l.src + x ∧ rd k x = bs.getD j 0
end

