-- ==== Sys2Proof/Laws/State.lean ====
section
/-! SUPPORT. The fields of a state after each named update: no later proof unfolds a record update. -/

namespace Sys2Proof.Machine

@[simp] theorem UnitId.other_other (u : UnitId) : u.other.other = u := by cases u <;> rfl
@[simp] theorem UnitId.other_ne (u : UnitId) : u.other ≠ u := by cases u <;> decide
@[simp] theorem UnitId.ne_other (u : UnitId) : u ≠ u.other := by cases u <;> decide

/-- A unit that is not `u` is the other one. -/
theorem UnitId.eq_other {u v : UnitId} (h : v ≠ u) : v = u.other := by cases u <;> cases v <;> first | rfl | exact absurd rfl h

section setUnit
variable (s : State) (u : UnitId) (x : UnitState)

@[simp] theorem setUnit_pkN : (s.setUnit u x).pkN = s.pkN := by cases u <;> rfl
@[simp] theorem setUnit_pkK : (s.setUnit u x).pkK = s.pkK := by cases u <;> rfl
@[simp] theorem setUnit_pkSrc : (s.setUnit u x).pkSrc = s.pkSrc := by cases u <;> rfl
@[simp] theorem setUnit_pkDst : (s.setUnit u x).pkDst = s.pkDst := by cases u <;> rfl
@[simp] theorem setUnit_fcCount : (s.setUnit u x).fcCount = s.fcCount := by cases u <;> rfl
@[simp] theorem setUnit_fcSrc : (s.setUnit u x).fcSrc = s.fcSrc := by cases u <;> rfl
@[simp] theorem setUnit_fcDst : (s.setUnit u x).fcDst = s.fcDst := by cases u <;> rfl
@[simp] theorem setUnit_mem : (s.setUnit u x).mem = s.mem := by cases u <;> rfl
@[simp] theorem setUnit_platform : (s.setUnit u x).platform = s.platform := by cases u <;> rfl
@[simp] theorem setUnit_hosts : (s.setUnit u x).hosts = s.hosts := by cases u <;> rfl
@[simp] theorem setUnit_observed : (s.setUnit u x).observed = s.observed := by cases u <;> rfl
@[simp] theorem setUnit_turns : (s.setUnit u x).turns = s.turns := by cases u <;> rfl
@[simp] theorem setUnit_draws : (s.setUnit u x).draws = s.draws := by cases u <;> rfl
@[simp] theorem setUnit_unit : (s.setUnit u x).unit u = x := by cases u <;> rfl
@[simp] theorem setUnit_unit_other : (s.setUnit u x).unit u.other = s.unit u.other := by cases u <;> rfl
@[simp] theorem setUnit_other_unit : (s.setUnit u.other x).unit u = s.unit u := by cases u <;> rfl
@[simp] theorem setUnit_setUnit (y : UnitState) : (s.setUnit u x).setUnit u y = s.setUnit u y := by cases u <;> rfl
@[simp] theorem setUnit_self : s.setUnit u (s.unit u) = s := by cases u <;> rfl

theorem setUnit_unit_of_ne {v : UnitId} (h : v ≠ u) : (s.setUnit u x).unit v = s.unit v := by
  rw [UnitId.eq_other h]; exact setUnit_unit_other s u x

end setUnit

@[simp] theorem unit_pk (s : State) : s.unit .pk = s.pk := rfl
@[simp] theorem unit_fc (s : State) : s.unit .fc = s.fc := rfl

section setPhase
variable (s : State) (u : UnitId) (p : Phase)

@[simp] theorem setPhase_pkN : (s.setPhase u p).pkN = s.pkN := setUnit_pkN ..
@[simp] theorem setPhase_pkK : (s.setPhase u p).pkK = s.pkK := setUnit_pkK ..
@[simp] theorem setPhase_pkSrc : (s.setPhase u p).pkSrc = s.pkSrc := setUnit_pkSrc ..
@[simp] theorem setPhase_pkDst : (s.setPhase u p).pkDst = s.pkDst := setUnit_pkDst ..
@[simp] theorem setPhase_fcCount : (s.setPhase u p).fcCount = s.fcCount := setUnit_fcCount ..
@[simp] theorem setPhase_fcSrc : (s.setPhase u p).fcSrc = s.fcSrc := setUnit_fcSrc ..
@[simp] theorem setPhase_fcDst : (s.setPhase u p).fcDst = s.fcDst := setUnit_fcDst ..
@[simp] theorem setPhase_mem : (s.setPhase u p).mem = s.mem := setUnit_mem ..
@[simp] theorem setPhase_platform : (s.setPhase u p).platform = s.platform := setUnit_platform ..
@[simp] theorem setPhase_hosts : (s.setPhase u p).hosts = s.hosts := setUnit_hosts ..
@[simp] theorem setPhase_observed : (s.setPhase u p).observed = s.observed := setUnit_observed ..
@[simp] theorem setPhase_turns : (s.setPhase u p).turns = s.turns := setUnit_turns ..
@[simp] theorem setPhase_draws : (s.setPhase u p).draws = s.draws := setUnit_draws ..
@[simp] theorem setPhase_unit : (s.setPhase u p).unit u = { s.unit u with phase := p } := setUnit_unit ..
@[simp] theorem setPhase_unit_other : (s.setPhase u p).unit u.other = s.unit u.other := setUnit_unit_other ..
@[simp] theorem setPhase_other_unit : (s.setPhase u.other p).unit u = s.unit u := setUnit_other_unit ..
@[simp] theorem setPhase_latch : (s.setPhase u p).latch u = p.latch := by simp [State.latch]
@[simp] theorem setPhase_latch_other : (s.setPhase u p).latch u.other = s.latch u.other := by simp [State.latch]
@[simp] theorem setPhase_other_latch : (s.setPhase u.other p).latch u = s.latch u := by simp [State.latch]

theorem setPhase_unit_of_ne {v : UnitId} (h : v ≠ u) : (s.setPhase u p).unit v = s.unit v := setUnit_unit_of_ne s u _ h
theorem setPhase_latch_of_ne {v : UnitId} (h : v ≠ u) : (s.setPhase u p).latch v = s.latch v := by
  simp [State.latch, setPhase_unit_of_ne s u p h]

end setPhase

section phases
@[simp] theorem latch_idle : Phase.idle.latch = none := rfl
@[simp] theorem latch_busy (l : Latch) : (Phase.busy l).latch = some l := rfl
@[simp] theorem latch_done : Phase.done.latch = none := rfl
@[simp] theorem latch_error (e : ErrCode) : (Phase.error e).latch = none := rfl

/-- A latch is there exactly in a BUSY phase. -/
theorem latch_eq_some {s : State} {u : UnitId} {l : Latch} : s.latch u = some l ↔ (s.unit u).phase = .busy l := by
  unfold State.latch; cases (s.unit u).phase <;> simp

theorem busy_iff {s : State} {u : UnitId} : s.busy u = true ↔ ∃ l, s.latch u = some l := by
  simp [State.busy, Option.isSome_iff_exists]

theorem not_busy_iff {s : State} {u : UnitId} : s.busy u = false ↔ s.latch u = none := by
  simp [State.busy]

/-- What is latched depends on the unit alone. -/
theorem latch_congr {s t : State} {u : UnitId} (h : t.unit u = s.unit u) : t.latch u = s.latch u := by
  simp [State.latch, h]

theorem busy_congr {s t : State} {u : UnitId} (h : t.unit u = s.unit u) : t.busy u = s.busy u := by
  simp [State.busy, latch_congr h]
end phases

section setLatch
variable (s : State) (u : UnitId) (l : Latch)

@[simp] theorem setLatch_pkN : (s.setLatch u l).pkN = s.pkN := setPhase_pkN ..
@[simp] theorem setLatch_pkK : (s.setLatch u l).pkK = s.pkK := setPhase_pkK ..
@[simp] theorem setLatch_pkSrc : (s.setLatch u l).pkSrc = s.pkSrc := setPhase_pkSrc ..
@[simp] theorem setLatch_pkDst : (s.setLatch u l).pkDst = s.pkDst := setPhase_pkDst ..
@[simp] theorem setLatch_fcCount : (s.setLatch u l).fcCount = s.fcCount := setPhase_fcCount ..
@[simp] theorem setLatch_fcSrc : (s.setLatch u l).fcSrc = s.fcSrc := setPhase_fcSrc ..
@[simp] theorem setLatch_fcDst : (s.setLatch u l).fcDst = s.fcDst := setPhase_fcDst ..
@[simp] theorem setLatch_mem : (s.setLatch u l).mem = s.mem := setPhase_mem ..
@[simp] theorem setLatch_platform : (s.setLatch u l).platform = s.platform := setPhase_platform ..
@[simp] theorem setLatch_hosts : (s.setLatch u l).hosts = s.hosts := setPhase_hosts ..
@[simp] theorem setLatch_observed : (s.setLatch u l).observed = s.observed := setPhase_observed ..
@[simp] theorem setLatch_turns : (s.setLatch u l).turns = s.turns := setPhase_turns ..
@[simp] theorem setLatch_draws : (s.setLatch u l).draws = s.draws := setPhase_draws ..
@[simp] theorem setLatch_unit : (s.setLatch u l).unit u = { s.unit u with phase := .busy l } := setPhase_unit ..
@[simp] theorem setLatch_latch : (s.setLatch u l).latch u = some l := by simp [State.setLatch]
@[simp] theorem setLatch_unit_other : (s.setLatch u l).unit u.other = s.unit u.other := setPhase_unit_other ..
@[simp] theorem setLatch_other_unit : (s.setLatch u.other l).unit u = s.unit u := setPhase_other_unit ..

theorem setLatch_unit_of_ne {v : UnitId} (h : v ≠ u) : (s.setLatch u l).unit v = s.unit v := setPhase_unit_of_ne s u _ h
theorem setLatch_latch_of_ne {v : UnitId} (h : v ≠ u) : (s.setLatch u l).latch v = s.latch v :=
  setPhase_latch_of_ne s u _ h

end setLatch

section observe
variable (s : State) (i : Nat) (r : Reading)

@[simp] theorem observe_mem : (s.observe i r).mem = s.mem := rfl
@[simp] theorem observe_unit (u : UnitId) : (s.observe i r).unit u = s.unit u := by cases u <;> rfl
@[simp] theorem observe_latch (u : UnitId) : (s.observe i r).latch u = s.latch u := latch_congr (observe_unit s i r u)
@[simp] theorem observe_busy (u : UnitId) : (s.observe i r).busy u = s.busy u := busy_congr (observe_unit s i r u)
@[simp] theorem observe_platform : (s.observe i r).platform = s.platform := rfl
@[simp] theorem observe_hosts : (s.observe i r).hosts = s.hosts := rfl
@[simp] theorem observe_turns : (s.observe i r).turns = s.turns := rfl
@[simp] theorem observe_draws : (s.observe i r).draws = s.draws := rfl
@[simp] theorem observe_observed : (s.observe i r).observed = s.observed ++ [(i, r)] := rfl
@[simp] theorem observe_pkN : (s.observe i r).pkN = s.pkN := rfl
@[simp] theorem observe_pkK : (s.observe i r).pkK = s.pkK := rfl
@[simp] theorem observe_pkSrc : (s.observe i r).pkSrc = s.pkSrc := rfl
@[simp] theorem observe_pkDst : (s.observe i r).pkDst = s.pkDst := rfl
@[simp] theorem observe_fcCount : (s.observe i r).fcCount = s.fcCount := rfl
@[simp] theorem observe_fcSrc : (s.observe i r).fcSrc = s.fcSrc := rfl
@[simp] theorem observe_fcDst : (s.observe i r).fcDst = s.fcDst := rfl

end observe

section tick
variable (s : State)

@[simp] theorem tick_mem : (tick s).mem = s.mem := rfl
@[simp] theorem tick_unit (u : UnitId) : (tick s).unit u = s.unit u := by cases u <;> rfl
@[simp] theorem tick_latch (u : UnitId) : (tick s).latch u = s.latch u := latch_congr (tick_unit s u)
@[simp] theorem tick_busy (u : UnitId) : (tick s).busy u = s.busy u := busy_congr (tick_unit s u)
@[simp] theorem tick_platform : (tick s).platform = s.platform := rfl
@[simp] theorem tick_hosts : (tick s).hosts = s.hosts := rfl
@[simp] theorem tick_observed : (tick s).observed = s.observed := rfl
@[simp] theorem tick_draws : (tick s).draws = s.draws + 1 := rfl
@[simp] theorem tick_turns : (tick s).turns = s.turns.tail := rfl
@[simp] theorem tick_pkN : (tick s).pkN = s.pkN := rfl
@[simp] theorem tick_pkK : (tick s).pkK = s.pkK := rfl
@[simp] theorem tick_pkSrc : (tick s).pkSrc = s.pkSrc := rfl
@[simp] theorem tick_pkDst : (tick s).pkDst = s.pkDst := rfl
@[simp] theorem tick_fcCount : (tick s).fcCount = s.fcCount := rfl
@[simp] theorem tick_fcSrc : (tick s).fcSrc = s.fcSrc := rfl
@[simp] theorem tick_fcDst : (tick s).fcDst = s.fcDst := rfl

end tick

section setProgram
variable (s : State) (i : Nat) (rest : List HostAction)

@[simp] theorem setProgram_hosts : (s.setProgram i rest).hosts = s.hosts.set i rest := rfl
@[simp] theorem setProgram_unit (u : UnitId) : (s.setProgram i rest).unit u = s.unit u := by cases u <;> rfl
@[simp] theorem setProgram_latch (u : UnitId) : (s.setProgram i rest).latch u = s.latch u :=
  latch_congr (setProgram_unit s i rest u)
@[simp] theorem setProgram_busy (u : UnitId) : (s.setProgram i rest).busy u = s.busy u :=
  busy_congr (setProgram_unit s i rest u)
@[simp] theorem setProgram_mem : (s.setProgram i rest).mem = s.mem := rfl
@[simp] theorem setProgram_platform : (s.setProgram i rest).platform = s.platform := rfl
@[simp] theorem setProgram_observed : (s.setProgram i rest).observed = s.observed := rfl
@[simp] theorem setProgram_turns : (s.setProgram i rest).turns = s.turns := rfl
@[simp] theorem setProgram_draws : (s.setProgram i rest).draws = s.draws := rfl
@[simp] theorem setProgram_pkN : (s.setProgram i rest).pkN = s.pkN := rfl
@[simp] theorem setProgram_pkK : (s.setProgram i rest).pkK = s.pkK := rfl
@[simp] theorem setProgram_pkSrc : (s.setProgram i rest).pkSrc = s.pkSrc := rfl
@[simp] theorem setProgram_pkDst : (s.setProgram i rest).pkDst = s.pkDst := rfl
@[simp] theorem setProgram_fcCount : (s.setProgram i rest).fcCount = s.fcCount := rfl
@[simp] theorem setProgram_fcSrc : (s.setProgram i rest).fcSrc = s.fcSrc := rfl
@[simp] theorem setProgram_fcDst : (s.setProgram i rest).fcDst = s.fcDst := rfl
@[simp] theorem setProgram_pk : (s.setProgram i rest).pk = s.pk := rfl
@[simp] theorem setProgram_fc : (s.setProgram i rest).fc = s.fc := rfl

end setProgram

section mem
variable (s : State) (m : Memory)

@[simp] theorem mem_unit (u : UnitId) : ({ s with mem := m } : State).unit u = s.unit u := by cases u <;> rfl
@[simp] theorem mem_latch (u : UnitId) : ({ s with mem := m } : State).latch u = s.latch u :=
  latch_congr (mem_unit s m u)
@[simp] theorem mem_draws_unit (d : Nat) (u : UnitId) : ({ s with mem := m, draws := d } : State).unit u = s.unit u := by
  cases u <;> rfl
@[simp] theorem mem_draws_latch (d : Nat) (u : UnitId) : ({ s with mem := m, draws := d } : State).latch u = s.latch u :=
  latch_congr (mem_draws_unit s m d u)
@[simp] theorem draws_unit (d : Nat) (u : UnitId) : ({ s with draws := d } : State).unit u = s.unit u := by cases u <;> rfl
@[simp] theorem draws_latch (d : Nat) (u : UnitId) : ({ s with draws := d } : State).latch u = s.latch u :=
  latch_congr (draws_unit s d u)

end mem

end Sys2Proof.Machine
end

