-- ==== Sys2Proof/Laws/Issue.lean ====
section
/-! SUPPORT. Command issue: the three things the write of a command word can do, and what each leaves alone. -/

namespace Sys2Proof.Machine

section markClash
variable (v : UnitId) (l : Latch) (s : State)

/-- Marking a conflict is the replacement of a latch, or nothing. -/
theorem markClash_eq : markClash v l s = s ∨ ∃ l', s.latch v = some l' ∧ l.conflicts l' = true ∧
    markClash v l s = s.setLatch v { l' with clash := true } := by
  unfold markClash
  cases h : s.latch v with
  | none => exact .inl rfl
  | some l' =>
    by_cases hc : l.conflicts l' = true
    · exact .inr ⟨l', rfl, hc, by simp [hc]⟩
    · exact .inl (by simp [hc])

@[simp] theorem markClash_pkN : (markClash v l s).pkN = s.pkN := by
  rcases markClash_eq v l s with h | ⟨_, _, _, h⟩ <;> simp [h]
@[simp] theorem markClash_pkK : (markClash v l s).pkK = s.pkK := by
  rcases markClash_eq v l s with h | ⟨_, _, _, h⟩ <;> simp [h]
@[simp] theorem markClash_pkSrc : (markClash v l s).pkSrc = s.pkSrc := by
  rcases markClash_eq v l s with h | ⟨_, _, _, h⟩ <;> simp [h]
@[simp] theorem markClash_pkDst : (markClash v l s).pkDst = s.pkDst := by
  rcases markClash_eq v l s with h | ⟨_, _, _, h⟩ <;> simp [h]
@[simp] theorem markClash_fcCount : (markClash v l s).fcCount = s.fcCount := by
  rcases markClash_eq v l s with h | ⟨_, _, _, h⟩ <;> simp [h]
@[simp] theorem markClash_fcSrc : (markClash v l s).fcSrc = s.fcSrc := by
  rcases markClash_eq v l s with h | ⟨_, _, _, h⟩ <;> simp [h]
@[simp] theorem markClash_fcDst : (markClash v l s).fcDst = s.fcDst := by
  rcases markClash_eq v l s with h | ⟨_, _, _, h⟩ <;> simp [h]
@[simp] theorem markClash_mem : (markClash v l s).mem = s.mem := by
  rcases markClash_eq v l s with h | ⟨_, _, _, h⟩ <;> simp [h]
@[simp] theorem markClash_platform : (markClash v l s).platform = s.platform := by
  rcases markClash_eq v l s with h | ⟨_, _, _, h⟩ <;> simp [h]
@[simp] theorem markClash_hosts : (markClash v l s).hosts = s.hosts := by
  rcases markClash_eq v l s with h | ⟨_, _, _, h⟩ <;> simp [h]
@[simp] theorem markClash_observed : (markClash v l s).observed = s.observed := by
  rcases markClash_eq v l s with h | ⟨_, _, _, h⟩ <;> simp [h]
@[simp] theorem markClash_turns : (markClash v l s).turns = s.turns := by
  rcases markClash_eq v l s with h | ⟨_, _, _, h⟩ <;> simp [h]
@[simp] theorem markClash_draws : (markClash v l s).draws = s.draws := by
  rcases markClash_eq v l s with h | ⟨_, _, _, h⟩ <;> simp [h]

theorem markClash_unit_of_ne {u : UnitId} (hu : u ≠ v) : (markClash v l s).unit u = s.unit u := by
  rcases markClash_eq v l s with h | ⟨_, _, _, h⟩ <;> simp [h, setLatch_unit_of_ne, hu]

/-- Marking keeps OVR, and of a latch everything but the mark. -/
theorem markClash_unit : (markClash v l s).unit v = s.unit v ∨ ∃ l', s.latch v = some l' ∧ l.conflicts l' = true ∧
    (markClash v l s).unit v = { s.unit v with phase := .busy { l' with clash := true } } := by
  rcases markClash_eq v l s with h | ⟨l', h1, h2, h⟩
  · exact .inl (by rw [h])
  · exact .inr ⟨l', h1, h2, by rw [h]; simp⟩

end markClash

section latchCommand
variable (u : UnitId) (l : Latch) (s : State)

@[simp] theorem latchCommand_latch :
    (latchCommand u l s).latch u = some { l with clash := clashesWith u.other l s } := by simp [latchCommand]
@[simp] theorem latchCommand_ovr : ((latchCommand u l s).unit u).ovr = (s.unit u).ovr := by
  simp [latchCommand, markClash_unit_of_ne u.other l s (UnitId.ne_other u)]
@[simp] theorem latchCommand_mem : (latchCommand u l s).mem = s.mem := by simp [latchCommand]
@[simp] theorem latchCommand_platform : (latchCommand u l s).platform = s.platform := by simp [latchCommand]
@[simp] theorem latchCommand_hosts : (latchCommand u l s).hosts = s.hosts := by simp [latchCommand]
@[simp] theorem latchCommand_observed : (latchCommand u l s).observed = s.observed := by simp [latchCommand]
@[simp] theorem latchCommand_turns : (latchCommand u l s).turns = s.turns := by simp [latchCommand]
@[simp] theorem latchCommand_draws : (latchCommand u l s).draws = s.draws := by simp [latchCommand]
@[simp] theorem latchCommand_pkN : (latchCommand u l s).pkN = s.pkN := by simp [latchCommand]
@[simp] theorem latchCommand_pkK : (latchCommand u l s).pkK = s.pkK := by simp [latchCommand]
@[simp] theorem latchCommand_pkSrc : (latchCommand u l s).pkSrc = s.pkSrc := by simp [latchCommand]
@[simp] theorem latchCommand_pkDst : (latchCommand u l s).pkDst = s.pkDst := by simp [latchCommand]
@[simp] theorem latchCommand_fcCount : (latchCommand u l s).fcCount = s.fcCount := by simp [latchCommand]
@[simp] theorem latchCommand_fcSrc : (latchCommand u l s).fcSrc = s.fcSrc := by simp [latchCommand]
@[simp] theorem latchCommand_fcDst : (latchCommand u l s).fcDst = s.fcDst := by simp [latchCommand]

/-- The other unit after a command is latched: as before, or with its latch marked. -/
theorem latchCommand_other : (latchCommand u l s).unit u.other = s.unit u.other ∨
    ∃ l', s.latch u.other = some l' ∧ l.conflicts l' = true ∧
      (latchCommand u l s).unit u.other = { s.unit u.other with phase := .busy { l' with clash := true } } := by
  have h : (latchCommand u l s).unit u.other = (markClash u.other l s).unit u.other := by simp [latchCommand]
  rw [h]; exact markClash_unit u.other l s

end latchCommand

/-- What the issue of a command can do when it answers a next state: drop, report, or latch. -/
theorem issue_cases {u : UnitId} {err : Option ErrCode} {job : Job} {src dst : Nat} {s t : State}
    (h : issue u err job src dst s = .next t) :
    (s.busy u = true ∧ t = dropCommand u s) ∨
    (s.busy u = false ∧ ∃ e, err = some e ∧ t = raise u e s) ∨
    (s.busy u = false ∧ err = none ∧ s.platform.rangeValid src job.srcLen = true ∧
      s.platform.rangeValid dst job.dstLen = true ∧ t = latchCommand u (Latch.fresh job src dst) s) := by
  unfold issue at h
  split at h
  · next hb => exact .inl ⟨hb, by simpa using h.symm⟩
  · next hb =>
    have hb := Bool.not_eq_true _ ▸ hb
    cases err with
    | some e => exact .inr (.inl ⟨hb, e, rfl, by simpa using h.symm⟩)
    | none =>
      simp only [accept] at h
      split at h
      · next hv =>
        rw [Bool.and_eq_true] at hv
        exact .inr (.inr ⟨hb, rfl, hv.1, hv.2, by simpa using h.symm⟩)
      · cases h

/-- The issue of a command whose unit is free and whose ranges are memory answers a next state. -/
theorem issue_none {u : UnitId} {job : Job} {src dst : Nat} {s : State} (hb : s.busy u = false)
    (hs : s.platform.rangeValid src job.srcLen = true) (hd : s.platform.rangeValid dst job.dstLen = true) :
    issue u none job src dst s = .next (latchCommand u (Latch.fresh job src dst) s) := by
  simp [issue, accept, hb, hs, hd]

theorem issue_some {u : UnitId} {e : ErrCode} {job : Job} {src dst : Nat} {s : State} (hb : s.busy u = false) :
    issue u (some e) job src dst s = .next (raise u e s) := by simp [issue, hb]

theorem issue_busy {u : UnitId} {err : Option ErrCode} {job : Job} {src dst : Nat} {s : State} (hb : s.busy u = true) :
    issue u err job src dst s = .next (dropCommand u s) := by simp [issue, hb]

end Sys2Proof.Machine
end

