-- ==== Sys2Proof/Laws/Memory.lean ====
section
/-! SUPPORT. Memory: read after write, what a fill leaves, and that every operation keeps the canonical form. -/

namespace Sys2Proof.Machine

@[simp] theorem Memory.read_nil (a : Nat) : Memory.read [] a = Memory.unlisted := rfl

theorem Memory.read_cons_entry (c : Host.Cell) (m : Memory) (a : Nat) :
    Memory.read (c :: m) a = if c.1 = a then c.2 else Memory.read m a := rfl

/-- An address below every entry reads as unlisted. -/
theorem Memory.read_of_forall_lt {m : Memory} {a : Nat} (h : ∀ c ∈ m, a < c.1) : m.read a = Memory.unlisted := by
  induction m with
  | nil => rfl
  | cons c m ih =>
    rw [Memory.read_cons_entry, if_neg (by have := h c (by simp); omega)]
    exact ih fun d hd => h d (by simp [hd])

theorem Memory.read_cons {m : Memory} {a x : Nat} {b : Byte} (h : ∀ c ∈ m, a < c.1) :
    (Memory.cons a b m).read x = if x = a then b else m.read x := by
  unfold Memory.cons
  split
  · next hb =>
    split
    · next hx => rw [hx, Memory.read_of_forall_lt h, hb]
    · rfl
  · rw [Memory.read_cons_entry]
    by_cases hx : x = a
    · simp [hx]
    · simp [hx, Ne.symm hx]

theorem Memory.wf_nil : Memory.wf [] := ⟨List.Pairwise.nil, fun _ h => absurd h (List.not_mem_nil)⟩

theorem Memory.wf_tail {c : Host.Cell} {m : Memory} (h : Memory.wf (c :: m)) : Memory.wf m :=
  ⟨(List.pairwise_cons.1 h.1).2, fun d hd => h.2 d (by simp [hd])⟩

theorem Memory.wf_head {c : Host.Cell} {m : Memory} (h : Memory.wf (c :: m)) : ∀ d ∈ m, c.1 < d.1 :=
  (List.pairwise_cons.1 h.1).1

/-- Read after write: the byte written at its own address, every other byte as before. -/
theorem Memory.read_write {m : Memory} (h : m.wf) (a : Nat) (b : Byte) (x : Nat) :
    (m.write a b).read x = if x = a then b else m.read x := by
  induction m with
  | nil => exact Memory.read_cons (by simp)
  | cons c m ih =>
    have hd := Memory.wf_head h
    simp only [Memory.write]
    split
    · next hlt =>
      refine Memory.read_cons fun d hm => ?_
      rcases List.mem_cons.1 hm with rfl | hm
      · exact hlt
      · exact hlt.trans (hd d hm)
    · next hlt =>
      split
      · next heq =>
        rw [Memory.read_cons (heq ▸ hd)]
        split
        · rfl
        · next hx => rw [Memory.read_cons_entry, if_neg (by omega)]
      · next hne =>
        rw [Memory.read_cons_entry, Memory.read_cons_entry, ih (Memory.wf_tail h)]
        split
        · next hc => rw [if_neg (by omega)]
        · rfl

theorem Memory.mem_write {m : Memory} {a : Nat} {b : Byte} {d : Host.Cell} (h : d ∈ m.write a b) :
    (d = (a, b) ∧ b ≠ Memory.unlisted) ∨ d ∈ m := by
  have hcons : ∀ n : Memory, d ∈ Memory.cons a b n → (d = (a, b) ∧ b ≠ Memory.unlisted) ∨ d ∈ n := by
    intro n hn
    unfold Memory.cons at hn
    split at hn
    · exact .inr hn
    · next hb => exact (List.mem_cons.1 hn).imp (fun h => ⟨h, hb⟩) id
  induction m with
  | nil => exact hcons _ h
  | cons c m ih =>
    simp only [Memory.write] at h
    split at h
    · exact hcons _ h
    · split at h
      · exact (hcons _ h).imp id (List.mem_cons_of_mem _)
      · rcases List.mem_cons.1 h with rfl | h
        · exact .inr (by simp)
        · exact (ih h).imp id (List.mem_cons_of_mem _)

theorem Memory.pairwise_cons_of {m : Memory} {a : Nat} {b : Byte} (h : ∀ c ∈ m, a < c.1)
    (hm : m.Pairwise fun c d => c.1 < d.1) : (Memory.cons a b m).Pairwise fun c d => c.1 < d.1 := by
  unfold Memory.cons
  split
  · exact hm
  · exact List.pairwise_cons.2 ⟨h, hm⟩

/-- A write inside the address space keeps the canonical form. -/
theorem Memory.wf_write {m : Memory} (h : m.wf) {a : Nat} (ha : a < addressSpace) (b : Byte) : (m.write a b).wf := by
  refine ⟨?_, fun d hd => ?_⟩
  · induction m with
    | nil => exact Memory.pairwise_cons_of (by simp) List.Pairwise.nil
    | cons c m ih =>
      have hd := Memory.wf_head h
      simp only [Memory.write]
      split
      · next hlt =>
        refine Memory.pairwise_cons_of (fun d hm => ?_) h.1
        rcases List.mem_cons.1 hm with rfl | hm
        · exact hlt
        · exact hlt.trans (hd d hm)
      · split
        · next heq => exact Memory.pairwise_cons_of (heq ▸ hd) (Memory.wf_tail h).1
        · refine List.pairwise_cons.2 ⟨fun d hm => ?_, ih (Memory.wf_tail h)⟩
          rcases Memory.mem_write hm with ⟨rfl, -⟩ | hm
          · change c.1 < a; omega
          · exact hd d hm
  · rcases Memory.mem_write hd with ⟨rfl, hb⟩ | hd
    · exact ⟨ha, hb⟩
    · exact h.2 d hd

/-- A fill inside the address space keeps the canonical form. -/
theorem Memory.wf_fill {m : Memory} (h : m.wf) {base n : Nat} (hn : base + n ≤ addressSpace) (val : Nat → Option Byte) :
    (m.fill base val n).wf := by
  induction n with
  | zero => exact h
  | succ n ih =>
    simp only [Memory.fill]
    split
    · exact Memory.wf_write (ih (by omega)) (by omega) _
    · exact ih (by omega)

/-- What a fill leaves: the given bytes where there is one, every other byte as before. -/
theorem Memory.read_fill {m : Memory} (h : m.wf) {base n : Nat} (hn : base + n ≤ addressSpace) (val : Nat → Option Byte)
    (x : Nat) :
    (m.fill base val n).read x = if base ≤ x ∧ x < base + n then (val (x - base)).getD (m.read x) else m.read x := by
  induction n with
  | zero => simp [Memory.fill, show ¬ (base ≤ x ∧ x < base) by omega]
  | succ n ih =>
    have hn' : base + n ≤ addressSpace := by omega
    simp only [Memory.fill]
    split
    · next b hb =>
      rw [Memory.read_write (Memory.wf_fill h hn' val), ih hn']
      by_cases hx : x = base + n
      · subst hx; simp [hb]
      · rw [if_neg hx]; congr 1; simp only [eq_iff_iff]; omega
    · next hb =>
      rw [ih hn']
      by_cases hx : x = base + n
      · subst hx; simp [hb]
      · congr 1; simp only [eq_iff_iff]; omega

/-- Two memories in canonical form that read alike are the same list. -/
theorem Memory.ext_of_read {m n : Memory} (hm : m.wf) (hn : n.wf) (h : ∀ a, m.read a = n.read a) : m = n := by
  induction m generalizing n with
  | nil =>
    cases n with
    | nil => rfl
    | cons d n =>
      have := h d.1
      simp only [Memory.read_nil, Memory.read_cons_entry, if_true] at this
      exact absurd this.symm (hn.2 d (by simp)).2
  | cons c m ih =>
    cases n with
    | nil =>
      have := h c.1
      simp only [Memory.read_nil, Memory.read_cons_entry, if_true] at this
      exact absurd this (hm.2 c (by simp)).2
    | cons d n =>
      have hc := hm.2 c (by simp)
      have hd := hn.2 d (by simp)
      have key : c.1 = d.1 := by
        rcases Nat.lt_trichotomy c.1 d.1 with hlt | heq | hgt
        · have := h c.1
          rw [Memory.read_cons_entry, if_pos rfl, Memory.read_of_forall_lt (m := d :: n) (a := c.1)
            (fun e he => by
              rcases List.mem_cons.1 he with rfl | he
              · exact hlt
              · exact hlt.trans (Memory.wf_head hn e he))] at this
          exact absurd this hc.2
        · exact heq
        · have := h d.1
          rw [Memory.read_cons_entry (c := d), if_pos rfl, Memory.read_of_forall_lt (m := c :: m) (a := d.1)
            (fun e he => by
              rcases List.mem_cons.1 he with rfl | he
              · exact hgt
              · exact hgt.trans (Memory.wf_head hm e he))] at this
          exact absurd this.symm hd.2
      have hval : c.2 = d.2 := by simpa [Memory.read_cons_entry, key] using h d.1
      have htail : m = n := ih (Memory.wf_tail hm) (Memory.wf_tail hn) fun a => by
        by_cases ha : c.1 = a
        · rw [Memory.read_of_forall_lt (ha ▸ Memory.wf_head hm),
            Memory.read_of_forall_lt ((key.symm.trans ha) ▸ Memory.wf_head hn)]
        · simpa [Memory.read_cons_entry, ha, key ▸ ha] using h a
      rw [htail, Prod.ext key hval]

end Sys2Proof.Machine
end

