-- ==== Sys2Proof/Laws/PerInstr.lean ====
section
/-! SUPPORT. Facts about every instruction as syntax, one lemma per constructor. -/

namespace Sys2Proof.Laws.TableRow

/-- The mask of an instruction's row in the opcode table (30_encoding.md R84). -/
def mask : Instr → Word
  | .pack _ _ _ => 0xFFFFFFFF000000FF
  | .f16ToF32 => 0xFFFFFFFFFFFFFFFF
  | .f32ToF16 => 0xFFFFFFFFFFFFFFFF

/-- The match value of an instruction's row in the opcode table (30_encoding.md R84). -/
def value : Instr → Word
  | .pack _ _ _ => 0x0000000000000001
  | .f16ToF32 => 0x0000000000000002
  | .f32ToF16 => 0x0000000000000003

/-- The command word of a well-formed instruction lies in its row of the opcode table. -/
def Statement (i : Instr) : Prop := i.wellFormed = true → encode i &&& mask i = value i

theorem pack (ctype bits blklen : Nat) : Statement (.pack ctype bits blklen) := by
  intro h
  simp only [Instr.wellFormed, Bool.and_eq_true, decide_eq_true_eq] at h
  obtain ⟨c, rfl⟩ : ∃ c : BitVec 4, ctype = c.toNat := ⟨BitVec.ofNat 4 ctype, by simp; omega⟩
  obtain ⟨b, rfl⟩ : ∃ b : BitVec 4, bits = b.toNat := ⟨BitVec.ofNat 4 bits, by simp; omega⟩
  obtain ⟨l, rfl⟩ : ∃ l : BitVec 16, blklen = l.toNat := ⟨BitVec.ofNat 16 blklen, by simp; omega⟩
  have e : encode (.pack c.toNat b.toNat l.toNat) = (0#32 ++ l ++ b ++ c ++ 1#8) := by
    apply BitVec.eq_of_toNat_eq
    simp only [encode, BitVec.toNat_append, BitVec.toNat_ofNat, Nat.shiftLeft_eq]
    have hc := c.isLt; have hb := b.isLt; have hl := l.isLt
    rw [Nat.mod_eq_of_lt (by omega)]
    have step : ∀ (x k y : Nat), y < 2 ^ k → x * 2 ^ k ||| y = x * 2 ^ k + y := by
      intro x k y hy; rw [Nat.mul_comm, Nat.two_pow_add_eq_or_of_lt hy]
    rw [step _ 16 _ hl, step _ 4 _ hb, step _ 4 _ hc, step _ 8 _ (by decide)]
    omega
  rw [e]
  ext i hi
  simp only [mask, value, BitVec.getElem_and, BitVec.getElem_append]
  interval_cases i <;> simp

theorem f16ToF32 : Statement .f16ToF32 := fun _ => by decide

theorem f32ToF16 : Statement .f32ToF16 := fun _ => by decide

end Sys2Proof.Laws.TableRow
end

