-- ==== Sys2Proof/Laws/Ranges.lean ====
section
/-! SUPPORT. Ranges of addresses: membership, overlap and validity, as the propositions they stand for. -/

namespace Sys2Proof.Machine

theorem inRange_iff {base len a : Nat} : inRange base len a = true ↔ base ≤ a ∧ a < base + len := by
  simp [inRange]

theorem inRange_eq_false {base len a : Nat} : inRange base len a = false ↔ ¬ (base ≤ a ∧ a < base + len) := by
  rw [← inRange_iff, Bool.not_eq_true]

/-- Two ranges overlap exactly when they share an address. -/
theorem overlaps_iff {a m b n : Nat} : overlaps a m b n = true ↔ ∃ x, (a ≤ x ∧ x < a + m) ∧ b ≤ x ∧ x < b + n := by
  simp only [overlaps, decide_eq_true_eq]
  constructor
  · intro h; exact ⟨max a b, by omega⟩
  · rintro ⟨x, h1, h2⟩; omega

theorem overlaps_eq_false {a m b n : Nat} :
    overlaps a m b n = false ↔ ∀ x, a ≤ x → x < a + m → ¬ (b ≤ x ∧ x < b + n) := by
  rw [← Bool.not_eq_true, overlaps_iff]
  constructor
  · intro h x h1 h2 h3; exact h ⟨x, ⟨h1, h2⟩, h3⟩
  · rintro h ⟨x, ⟨h1, h2⟩, h3⟩; exact h x h1 h2 h3

theorem overlaps_comm (a m b n : Nat) : overlaps a m b n = overlaps b n a m := by
  simp only [overlaps, Nat.max_comm, Nat.min_comm]

theorem Latch.inSrc_iff {l : Latch} {a : Nat} : l.inSrc a = true ↔ l.src ≤ a ∧ a < l.src + l.job.srcLen := inRange_iff
theorem Latch.inDst_iff {l : Latch} {a : Nat} : l.inDst a = true ↔ l.dst ≤ a ∧ a < l.dst + l.job.dstLen := inRange_iff

/-- Conflict is mutual. -/
theorem Latch.conflicts_comm (l l' : Latch) : l.conflicts l' = l'.conflicts l := by
  simp only [Latch.conflicts]
  rw [overlaps_comm l'.dst _ l.src, overlaps_comm l'.dst _ l.dst, overlaps_comm l'.src _ l.dst]
  exact Bool.eq_iff_iff.2 (by simp only [Bool.or_eq_true]; tauto)

theorem Platform.rangeValid_iff {p : Platform} {base len : Nat} :
    p.rangeValid base len = true ↔ ∀ a, base ≤ a → a < base + len → p.memValid a = true := by
  simp only [Platform.rangeValid, List.all_eq_true, List.mem_range]
  constructor
  · intro h a h1 h2
    simpa [Nat.add_sub_cancel' h1] using h (a - base) (by omega)
  · intro h i hi; exact h _ (by omega) (by omega)

theorem Platform.lt_of_memValid {p : Platform} {a : Nat} (h : p.memValid a = true) : a < addressSpace := by
  simp only [Platform.memValid, Bool.and_eq_true, decide_eq_true_eq] at h; exact h.1.1

/-- A valid range that is not empty ends inside the address space. -/
theorem Platform.end_of_rangeValid {p : Platform} {base len : Nat} (h : p.rangeValid base len = true) (hl : 0 < len) :
    base + len ≤ addressSpace := by
  have := Platform.lt_of_memValid (Platform.rangeValid_iff.1 h (base + len - 1) (by omega) (by omega))
  omega

end Sys2Proof.Machine
end

