-- ==== Sys2Proof/Laws/Units.lean ====
section
/-! SUPPORT. What the units do to memory: completion, the settling of bytes a host touches, and reset, each with
what it leaves alone. -/

namespace Sys2Proof.Machine

/-! ### Completion -/

theorem finish_of_none {u : UnitId} {s : State} (h : s.latch u = none) : finish u s = s := by simp [finish, h]

section finish
variable {u : UnitId} {s : State} {l : Latch}

theorem finish_of_some (h : s.latch u = some l) :
    finish u s = State.setPhase { s with
      mem := s.mem.fill l.dst (finalByte s.mem l s.draws) l.job.dstLen
      draws := s.draws + 4 * l.job.dstLen } u .done := by simp [finish, h]

theorem finish_mem (h : s.latch u = some l) :
    (finish u s).mem = s.mem.fill l.dst (finalByte s.mem l s.draws) l.job.dstLen := by simp [finish_of_some h]

theorem finish_unit (h : s.latch u = some l) : (finish u s).unit u = { s.unit u with phase := .done } := by
  simp [finish_of_some h]

theorem finish_latch : (finish u s).latch u = none := by
  cases h : s.latch u with
  | none => rw [finish_of_none h, h]
  | some l => simp [finish_of_some h]

theorem finish_unit_of_ne {v : UnitId} (hv : v ≠ u) : (finish u s).unit v = s.unit v := by
  cases h : s.latch u with
  | none => rw [finish_of_none h]
  | some l => simp [finish_of_some h, setPhase_unit_of_ne, hv]

variable (u s)
@[simp] theorem finish_platform : (finish u s).platform = s.platform := by
  cases h : s.latch u <;> simp [finish, h]
@[simp] theorem finish_hosts : (finish u s).hosts = s.hosts := by cases h : s.latch u <;> simp [finish, h]
@[simp] theorem finish_observed : (finish u s).observed = s.observed := by cases h : s.latch u <;> simp [finish, h]
@[simp] theorem finish_turns : (finish u s).turns = s.turns := by cases h : s.latch u <;> simp [finish, h]
@[simp] theorem finish_pkN : (finish u s).pkN = s.pkN := by cases h : s.latch u <;> simp [finish, h]
@[simp] theorem finish_pkK : (finish u s).pkK = s.pkK := by cases h : s.latch u <;> simp [finish, h]
@[simp] theorem finish_pkSrc : (finish u s).pkSrc = s.pkSrc := by cases h : s.latch u <;> simp [finish, h]
@[simp] theorem finish_pkDst : (finish u s).pkDst = s.pkDst := by cases h : s.latch u <;> simp [finish, h]
@[simp] theorem finish_fcCount : (finish u s).fcCount = s.fcCount := by cases h : s.latch u <;> simp [finish, h]
@[simp] theorem finish_fcSrc : (finish u s).fcSrc = s.fcSrc := by cases h : s.latch u <;> simp [finish, h]
@[simp] theorem finish_fcDst : (finish u s).fcDst = s.fcDst := by cases h : s.latch u <;> simp [finish, h]
end finish

/-- In a latch whose source no host has stored to, a read is a read of memory. -/
theorem racyRead_of_seen_nil {m : Memory} {l : Latch} (h : l.seen = []) (draw j x : Nat) :
    racyRead m l draw j x = m.read (l.src + x) := by simp [racyRead, Latch.oldValues, h]

/-- The final byte of an undisturbed command is what its operation gives. -/
theorem finalByte_of_undisturbed {m : Memory} {l : Latch} (hc : l.clash = false) (hw : l.written = []) (hs : l.seen = [])
    (ho : l.selfOverlap = false) (draw off : Nat) :
    finalByte m l draw off = some (destByte l.job (fun _ x => m.read (l.src + x)) off) := by
  have : racyRead m l (draw + 4 * off) = fun _ x => m.read (l.src + x) := by
    funext j x; exact racyRead_of_seen_nil hs _ j x
  simp [finalByte, unitByte, hc, hw, ho, this]

/-! ### Accesses of hosts -/

/-- What an access of memory by a host can change besides memory: of a latch, the records of what hosts have
touched, and the counter of free values. -/
structure HostTouch (s t : State) : Prop where
  pkN : t.pkN = s.pkN
  pkK : t.pkK = s.pkK
  pkSrc : t.pkSrc = s.pkSrc
  pkDst : t.pkDst = s.pkDst
  fcCount : t.fcCount = s.fcCount
  fcSrc : t.fcSrc = s.fcSrc
  fcDst : t.fcDst = s.fcDst
  platform : t.platform = s.platform
  hosts : t.hosts = s.hosts
  observed : t.observed = s.observed
  turns : t.turns = s.turns
  ovr : ∀ u, (t.unit u).ovr = (s.unit u).ovr
  phase : ∀ u, (t.unit u).phase = (s.unit u).phase ∨
    ∃ l w c, s.latch u = some l ∧ (t.unit u).phase = .busy { l with written := w, seen := c } ∧
      (∀ off ∈ w, off ∈ l.written ∨ off < l.job.dstLen) ∧ ∀ d ∈ c, d ∈ l.seen ∨ l.inSrc d.1 = true

theorem HostTouch.refl (s : State) : HostTouch s s where
  pkN := rfl
  pkK := rfl
  pkSrc := rfl
  pkDst := rfl
  fcCount := rfl
  fcSrc := rfl
  fcDst := rfl
  platform := rfl
  hosts := rfl
  observed := rfl
  turns := rfl
  ovr _ := rfl
  phase _ := .inl rfl

theorem HostTouch.trans {s t r : State} (h : HostTouch s t) (k : HostTouch t r) : HostTouch s r where
  pkN := k.pkN.trans h.pkN
  pkK := k.pkK.trans h.pkK
  pkSrc := k.pkSrc.trans h.pkSrc
  pkDst := k.pkDst.trans h.pkDst
  fcCount := k.fcCount.trans h.fcCount
  fcSrc := k.fcSrc.trans h.fcSrc
  fcDst := k.fcDst.trans h.fcDst
  platform := k.platform.trans h.platform
  hosts := k.hosts.trans h.hosts
  observed := k.observed.trans h.observed
  turns := k.turns.trans h.turns
  ovr u := (k.ovr u).trans (h.ovr u)
  phase u := by
    rcases k.phase u with hk | ⟨l, w, c, hl, hp, hw, hc⟩
    · rw [hk]; exact h.phase u
    · rcases h.phase u with hh | ⟨l', w', c', hl', hp', hw', hc'⟩
      · refine .inr ⟨l, w, c, ?_, hp, hw, hc⟩
        rwa [latch_eq_some, ← hh, ← latch_eq_some]
      · obtain rfl : l = { l' with written := w', seen := c' } := by
          rw [latch_eq_some, hp'] at hl; injection hl with hl; exact hl.symm
        refine .inr ⟨l', w, c, hl', hp, fun off ho => ?_, fun d hd => ?_⟩
        · exact (hw off ho).elim (hw' off) .inr
        · exact (hc d hd).elim (hc' d) .inr

/-- An access keeps a unit BUSY or not BUSY, and of a latch all but the two records. -/
theorem HostTouch.latch {s t : State} (h : HostTouch s t) {u : UnitId} {l : Latch} (hl : t.latch u = some l) :
    ∃ l', s.latch u = some l' ∧ l = { l' with written := l.written, seen := l.seen } ∧
      (∀ off ∈ l.written, off ∈ l'.written ∨ off < l'.job.dstLen) ∧
      ∀ d ∈ l.seen, d ∈ l'.seen ∨ l'.inSrc d.1 = true := by
  rcases h.phase u with hh | ⟨l', w, c, hl', hp, hw, hc⟩
  · rw [latch_eq_some, hh, ← latch_eq_some] at hl
    exact ⟨l, hl, rfl, fun _ h => .inl h, fun _ h => .inl h⟩
  · obtain rfl : l = { l' with written := w, seen := c } := by
      rw [latch_eq_some, hp] at hl; injection hl with hl; exact hl.symm
    exact ⟨l', hl', rfl, hw, hc⟩

theorem HostTouch.busy {s t : State} (h : HostTouch s t) (u : UnitId) : t.busy u = s.busy u := by
  rcases h.phase u with hh | ⟨l', w, c, hl', hp, -, -⟩
  · simp [State.busy, State.latch, hh]
  · simp [State.busy, hl', latch_eq_some.2 hp]

/-- Replacing a latch's records, the memory and the counter is such a change. -/
theorem HostTouch.of_latch {s : State} {u : UnitId} {l : Latch} (hl : s.latch u = some l) {w : List Nat}
    {c : List Host.Cell} (hw : ∀ off ∈ w, off ∈ l.written ∨ off < l.job.dstLen)
    (hc : ∀ d ∈ c, d ∈ l.seen ∨ l.inSrc d.1 = true) (m : Memory) (d : Nat) :
    HostTouch s (State.setLatch { s with mem := m, draws := d } u { l with written := w, seen := c }) where
  pkN := by simp
  pkK := by simp
  pkSrc := by simp
  pkDst := by simp
  fcCount := by simp
  fcSrc := by simp
  fcDst := by simp
  platform := by simp
  hosts := by simp
  observed := by simp
  turns := by simp
  ovr v := by
    by_cases hv : v = u
    · subst hv; simp
    · simp [setLatch_unit_of_ne, hv]
  phase v := by
    by_cases hv : v = u
    · subst hv; exact .inr ⟨l, w, c, hl, by simp, hw, hc⟩
    · exact .inl (by simp [setLatch_unit_of_ne, hv])

theorem HostTouch.of_mem (s : State) (m : Memory) (d : Nat) : HostTouch s { s with mem := m, draws := d } where
  pkN := rfl
  pkK := rfl
  pkSrc := rfl
  pkDst := rfl
  fcCount := rfl
  fcSrc := rfl
  fcDst := rfl
  platform := rfl
  hosts := rfl
  observed := rfl
  turns := rfl
  ovr u := by cases u <;> rfl
  phase u := .inl (by cases u <;> rfl)

/-- What settling a byte can do: nothing, a draw, or the unit's own write of that byte. -/
theorem settle_cases (u : UnitId) (a : Nat) (s : State) :
    settle u a s = s ∨ ∃ l, s.latch u = some l ∧ l.inDst a = true ∧
      (settle u a s = { s with draws := s.draws + 4 } ∨
        settle u a s = State.setLatch { s with
          mem := s.mem.write a (unitByte s.mem l s.draws (a - l.dst)), draws := s.draws + 4 } u
          { l with written := (a - l.dst) :: l.written }) := by
  unfold settle
  cases hl : s.latch u with
  | none => exact .inl rfl
  | some l =>
    by_cases hc : (l.inDst a && !l.written.contains (a - l.dst)) = true
    · refine .inr ⟨l, rfl, (Bool.and_eq_true _ _ ▸ hc).1, ?_⟩
      simp only [hc, if_true]
      split
      · exact .inr rfl
      · exact .inl rfl
    · exact .inl (by simp only [hc]; rfl)

theorem settle_touch (u : UnitId) (a : Nat) (s : State) : HostTouch s (settle u a s) := by
  rcases settle_cases u a s with h | ⟨l, hl, hd, h | h⟩
  · rw [h]; exact HostTouch.refl s
  · rw [h]; exact HostTouch.of_mem s s.mem _
  · rw [h]
    refine HostTouch.of_latch hl (c := l.seen) (fun off ho => ?_) (fun _ h => .inl h) _ _
    rcases List.mem_cons.1 ho with rfl | ho
    · exact .inr (by have := Latch.inDst_iff.1 hd; omega)
    · exact .inl ho

/-- Settling at an address outside the destination range does nothing. -/
theorem settle_of_not_inDst {u : UnitId} {a : Nat} {s : State} (h : ∀ l, s.latch u = some l → l.inDst a = false) :
    settle u a s = s := by
  unfold settle
  cases hl : s.latch u with
  | none => rfl
  | some l => simp [h l hl]

/-- Settling writes no byte but the one at `a`. -/
theorem settle_read {u : UnitId} {a x : Nat} {s : State} (hm : s.mem.wf) (hx : x ≠ a) :
    (settle u a s).mem.read x = s.mem.read x := by
  rcases settle_cases u a s with h | ⟨l, -, -, h | h⟩ <;> simp [h, Memory.read_write hm, hx]

theorem settle_wf {u : UnitId} {a : Nat} {s : State} (hm : s.mem.wf) (ha : a < addressSpace) :
    (settle u a s).mem.wf := by
  rcases settle_cases u a s with h | ⟨l, -, -, h | h⟩
  · rwa [h]
  · rwa [h]
  · rw [h]; simpa using Memory.wf_write hm ha _

theorem settleBoth_touch (a : Nat) (s : State) : HostTouch s (settleBoth a s) :=
  (settle_touch .pk a s).trans (settle_touch .fc a _)

theorem settleBoth_read {a x : Nat} {s : State} (hm : s.mem.wf) (ha : a < addressSpace) (hx : x ≠ a) :
    (settleBoth a s).mem.read x = s.mem.read x := by
  unfold settleBoth; rw [settle_read (settle_wf hm ha) hx, settle_read hm hx]

theorem settleBoth_wf {a : Nat} {s : State} (hm : s.mem.wf) (ha : a < addressSpace) : (settleBoth a s).mem.wf :=
  settle_wf (settle_wf hm ha) ha

/-- Settling outside every destination range does nothing. -/
theorem settleBoth_of_not_inDst {a : Nat} {s : State} (h : ∀ u l, s.latch u = some l → l.inDst a = false) :
    settleBoth a s = s := by
  unfold settleBoth
  rw [settle_of_not_inDst (u := .pk) (h .pk), settle_of_not_inDst (h .fc)]

theorem remember_touch (u : UnitId) (a : Nat) (s : State) : HostTouch s (remember u a s) := by
  unfold remember
  cases hl : s.latch u with
  | none => exact HostTouch.refl s
  | some l =>
    simp only
    split
    · next hs =>
      refine HostTouch.of_latch hl (w := l.written) (fun _ h => .inl h) (fun d hd => ?_) s.mem s.draws
      rcases List.mem_cons.1 hd with rfl | hd
      · exact .inr hs
      · exact .inl hd
    · exact HostTouch.refl s

@[simp] theorem remember_mem (u : UnitId) (a : Nat) (s : State) : (remember u a s).mem = s.mem := by
  unfold remember
  cases s.latch u with
  | none => rfl
  | some l => simp only; split <;> simp

/-- A store outside every source range needs nothing remembered. -/
theorem remember_of_not_inSrc {u : UnitId} {a : Nat} {s : State} (h : ∀ l, s.latch u = some l → l.inSrc a = false) :
    remember u a s = s := by
  unfold remember
  cases hl : s.latch u with
  | none => rfl
  | some l => simp [h l hl]

theorem hostStore_touch (a : Nat) (b : Byte) (s : State) : HostTouch s (hostStore a b s) :=
  ((settleBoth_touch a s).trans ((remember_touch .pk a _).trans (remember_touch .fc a _))).trans
    (HostTouch.of_mem _ _ _)

/-- After a host's store the byte reads as stored, and every other byte as before. -/
theorem hostStore_read {a : Nat} {s : State} (hm : s.mem.wf) (ha : a < addressSpace) (b : Byte) (x : Nat) :
    (hostStore a b s).mem.read x = if x = a then b else s.mem.read x := by
  simp only [hostStore, remember_mem]
  rw [Memory.read_write (settleBoth_wf hm ha)]
  split
  · rfl
  · next hx => exact settleBoth_read hm ha hx

theorem hostStore_wf {a : Nat} {s : State} (hm : s.mem.wf) (ha : a < addressSpace) (b : Byte) :
    (hostStore a b s).mem.wf := by
  simp only [hostStore, remember_mem]; exact Memory.wf_write (settleBoth_wf hm ha) ha b

/-- A store that touches no range of a BUSY unit is a plain write. -/
theorem hostStore_of_outside {a : Nat} {b : Byte} {s : State} (hd : ∀ u l, s.latch u = some l → l.inDst a = false)
    (hs : ∀ u l, s.latch u = some l → l.inSrc a = false) : hostStore a b s = { s with mem := s.mem.write a b } := by
  simp only [hostStore]
  rw [settleBoth_of_not_inDst hd, remember_of_not_inSrc (u := .pk) (hs .pk), remember_of_not_inSrc (hs .fc)]

theorem hostStoreAll_touch (a : Nat) (bs : List Byte) (s : State) : HostTouch s (hostStoreAll a bs s) := by
  induction bs generalizing a s with
  | nil => exact HostTouch.refl s
  | cons b bs ih => exact (hostStore_touch a b s).trans (ih _ _)

theorem hostStoreAll_wf {a : Nat} {bs : List Byte} {s : State} (hm : s.mem.wf) (ha : a + bs.length ≤ addressSpace) :
    (hostStoreAll a bs s).mem.wf := by
  induction bs generalizing a s with
  | nil => exact hm
  | cons b bs ih =>
    rw [List.length_cons] at ha
    exact ih (hostStore_wf hm (by omega) b) (by omega)

theorem hostLoadAll_touch (a n : Nat) (s : State) : HostTouch s (hostLoadAll a n s).1 := by
  induction n generalizing a s with
  | zero => exact HostTouch.refl s
  | succ n ih => exact (settleBoth_touch a s).trans (ih _ _)

theorem hostLoadAll_wf {a n : Nat} {s : State} (hm : s.mem.wf) (ha : a + n ≤ addressSpace) :
    (hostLoadAll a n s).1.mem.wf := by
  induction n generalizing a s with
  | zero => exact hm
  | succ n ih => exact ih (settleBoth_wf hm (by omega)) (by omega)

theorem hostLoadAll_read {a n x : Nat} {s : State} (hm : s.mem.wf) (ha : a + n ≤ addressSpace)
    (hx : ¬ (a ≤ x ∧ x < a + n)) : (hostLoadAll a n s).1.mem.read x = s.mem.read x := by
  induction n generalizing a s with
  | zero => rfl
  | succ n ih =>
    rw [hostLoadAll, ih (settleBoth_wf hm (by omega)) (by omega) (by omega), settleBoth_read hm (by omega) (by omega)]

/-! ### Reset -/

theorem scrub_of_none {u : UnitId} {s : State} (h : s.latch u = none) : scrub u s = s := by simp [scrub, h]

@[simp] theorem scrub_unit (u v : UnitId) (s : State) : (scrub u s).unit v = s.unit v := by
  unfold scrub; cases s.latch u <;> simp

@[simp] theorem scrub_latch (u v : UnitId) (s : State) : (scrub u s).latch v = s.latch v := latch_congr (scrub_unit u v s)

theorem scrub_wf {u : UnitId} {s : State} (hm : s.mem.wf)
    (hd : ∀ l, s.latch u = some l → l.dst + l.job.dstLen ≤ addressSpace) : (scrub u s).mem.wf := by
  unfold scrub
  cases hl : s.latch u with
  | none => exact hm
  | some l => exact Memory.wf_fill hm (hd l hl) _

theorem scrub_read {u : UnitId} {s : State} {x : Nat} (hm : s.mem.wf)
    (hd : ∀ l, s.latch u = some l → l.dst + l.job.dstLen ≤ addressSpace)
    (hx : ∀ l, s.latch u = some l → l.inDst x = false) : (scrub u s).mem.read x = s.mem.read x := by
  unfold scrub
  cases hl : s.latch u with
  | none => rfl
  | some l =>
    have := hx l hl
    rw [Latch.inDst, inRange_eq_false] at this
    change (Memory.fill _ _ _ _).read x = _
    rw [Memory.read_fill hm (hd l hl), if_neg this]

@[simp] theorem scrub_platform (u : UnitId) (s : State) : (scrub u s).platform = s.platform := by
  unfold scrub; cases s.latch u <;> rfl
@[simp] theorem scrub_hosts (u : UnitId) (s : State) : (scrub u s).hosts = s.hosts := by
  unfold scrub; cases s.latch u <;> rfl
@[simp] theorem scrub_observed (u : UnitId) (s : State) : (scrub u s).observed = s.observed := by
  unfold scrub; cases s.latch u <;> rfl
@[simp] theorem scrub_turns (u : UnitId) (s : State) : (scrub u s).turns = s.turns := by
  unfold scrub; cases s.latch u <;> rfl

@[simp] theorem coreReset_platform (s : State) : (coreReset s).platform = s.platform := by simp [coreReset]
@[simp] theorem coreReset_hosts (s : State) : (coreReset s).hosts = s.hosts := by simp [coreReset]
@[simp] theorem coreReset_observed (s : State) : (coreReset s).observed = s.observed := by simp [coreReset]
@[simp] theorem coreReset_turns (s : State) : (coreReset s).turns = s.turns := by simp [coreReset]
@[simp] theorem coreReset_mem (s : State) : (coreReset s).mem = (scrub .fc (scrub .pk s)).mem := rfl
@[simp] theorem coreReset_unit (s : State) (u : UnitId) : (coreReset s).unit u = UnitState.reset := by cases u <;> rfl
@[simp] theorem coreReset_latch (s : State) (u : UnitId) : (coreReset s).latch u = none := by cases u <;> rfl

end Sys2Proof.Machine
end

