-- ==== Sys2Proof/Laws/Step.lean ====
section
/-! SUPPORT. What one step can do, said once: the inversion of the decoder, of a command, of a host's action and of
`step`. -/

namespace Sys2Proof.Machine

/-! ### Commands -/

/-- A word that decodes at a unit is a command of that unit. -/
theorem unit_of_decode {u : UnitId} {cw : Word} {i : Instr} (h : decode u cw = .ok i) : i.unit = u := by
  unfold decode at h
  split at h
  · cases h
  · cases u
    · simp only at h
      split at h
      · cases h; rfl
      · cases h
    · simp only at h
      split at h
      · split at h
        · cases h; rfl
        · cases h
      · split at h
        · split at h
          · cases h; rfl
          · cases h
        · cases h

/-- Every command is an issue with its first failing check and its operands. -/
theorem exec_eq_issue (i : Instr) (s : State) :
    exec i s = issue i.unit (firstError i s) (requested i s).job (requested i s).src (requested i s).dst s := by
  cases i <;> rfl

theorem requested_eq_fresh (i : Instr) (s : State) :
    Latch.fresh (requested i s).job (requested i s).src (requested i s).dst = requested i s := by cases i <;> rfl

/-- The clash mark of a requested command is not set yet. -/
@[simp] theorem requested_clash (i : Instr) (s : State) : (requested i s).clash = false := by cases i <;> rfl
@[simp] theorem requested_written (i : Instr) (s : State) : (requested i s).written = [] := by cases i <;> rfl
@[simp] theorem requested_seen (i : Instr) (s : State) : (requested i s).seen = [] := by cases i <;> rfl

theorem exec_cases {i : Instr} {s t : State} (h : exec i s = .next t) :
    (s.busy i.unit = true ∧ t = dropCommand i.unit s) ∨
    (s.busy i.unit = false ∧ ∃ e, firstError i s = some e ∧ t = raise i.unit e s) ∨
    (s.busy i.unit = false ∧ firstError i s = none ∧ (requested i s).backed s.platform = true ∧
      t = latchCommand i.unit (requested i s) s) := by
  rw [exec_eq_issue] at h
  rcases issue_cases h with h | h | ⟨h1, h2, h3, h4, h5⟩
  · exact .inl h
  · exact .inr (.inl h)
  · exact .inr (.inr ⟨h1, h2, by simp [Latch.backed, h3, h4], by rw [h5, requested_eq_fresh]⟩)

theorem command_cases {u : UnitId} {cw : Word} {s t : State} (h : command u cw s = .next t) :
    (s.busy u = true ∧ t = dropCommand u s) ∨
    (s.busy u = false ∧ ∃ e, t = raise u e s) ∨
    (s.busy u = false ∧ ∃ i, decode u cw = .ok i ∧ firstError i s = none ∧ (requested i s).backed s.platform = true ∧
      t = latchCommand u (requested i s) s) := by
  unfold command at h
  split at h
  · next i hi =>
    have hu := unit_of_decode hi
    rcases exec_cases h with h | ⟨h1, e, -, h3⟩ | ⟨h1, h2, h3, h4⟩
    · exact .inl (hu ▸ h)
    · exact .inr (.inl ⟨hu ▸ h1, e, hu ▸ h3⟩)
    · exact .inr (.inr ⟨hu ▸ h1, i, hi, h2, h3, hu ▸ h4⟩)
  · unfold illegalCommand at h
    split at h
    · next hb => exact .inl ⟨hb, by simpa using h.symm⟩
    · next hb => exact .inr (.inl ⟨Bool.not_eq_true _ ▸ hb, .opcode, by simpa using h.symm⟩)

/-! ### Actions of a host -/

/-- The register of an aligned 64-bit access at a register's own offset. -/
@[simp] theorem accessedReg_offset (r : Reg) : accessedReg (BitVec.ofNat 7 r.offset) 8 = some r := by
  cases r <;> decide

theorem accessedReg_bytes {off : BitVec 7} {bytes : Nat} {r : Reg} (h : accessedReg off bytes = some r) :
    bytes = 8 ∧ off = BitVec.ofNat 7 r.offset := by
  unfold accessedReg at h
  split at h
  · next hc =>
    refine ⟨hc.1, ?_⟩
    have : ∀ off : BitVec 7, off.toNat % 8 = 0 → off = BitVec.ofNat 7 (regAt (off.toNat / 8)).offset := by decide
    rw [← Option.some.inj h]; exact this off hc.2
  · cases h

/-- What a register write can do: issue a command, write STATUS, or change descriptors. -/
theorem writeReg_cases {r : Reg} {v : Word} {s t : State} (h : writeReg r v s = .next t) :
    (∃ u, r = u.cmdReg ∧ command u v s = .next t) ∨ (∃ u, r = u.statusReg ∧ t = writeStatusReg u v s) ∨
    (t.pk = s.pk ∧ t.fc = s.fc ∧ t.mem = s.mem ∧ t.platform = s.platform ∧ t.hosts = s.hosts ∧
      t.observed = s.observed ∧ t.turns = s.turns ∧ t.draws = s.draws) := by
  cases r
  case pkCmd => exact .inl ⟨.pk, rfl, h⟩
  case fcCmd => exact .inl ⟨.fc, rfl, h⟩
  case pkStatus => cases h; exact .inr (.inl ⟨.pk, rfl, rfl⟩)
  case fcStatus => cases h; exact .inr (.inl ⟨.fc, rfl, rfl⟩)
  all_goals (cases h; exact .inr (.inr ⟨rfl, rfl, rfl, rfl, rfl, rfl, rfl, rfl⟩))

theorem hostAccess_cases {a n : Nat} {s t r : State} (h : hostAccess a n s t = .next r) :
    s.platform.rangeValid a n = true ∧ r = t := by
  unfold hostAccess at h
  split at h
  · next hv => exact ⟨hv, by simpa using h.symm⟩
  · split at h <;> cases h

/-- What an action of a host can do when it answers a next state. -/
theorem act_cases {i : Nat} {x : HostAction} {s t : State} (h : act i x s = .next t) :
    (∃ r v, x = .wr r v ∧ writeReg r v s = .next t) ∨
    (∃ r, x = .rd r ∧ t = s.observe i (.reg (BitVec.ofNat 7 r.offset) (readReg r s))) ∨
    (∃ u, x = .wait u ∧ t = s.observe i (.waited u (s.unit u).statusWord)) ∨
    (∃ a bs, x = .memWrite a bs ∧ s.platform.rangeValid a.toNat bs.length = true ∧ t = hostStoreAll a.toNat bs s) ∨
    (∃ a n, x = .memRead a n ∧ s.platform.rangeValid a.toNat n = true ∧
      t = (hostLoadAll a.toNat n s).1.observe i (.mem a (hostLoadAll a.toNat n s).2)) ∨
    (x = .platformReset ∧ t = coreReset s) := by
  cases x with
  | regWrite off bytes v =>
    simp only [act] at h
    split at h
    · next r hr =>
      obtain ⟨rfl, rfl⟩ := accessedReg_bytes hr
      exact .inl ⟨r, v, rfl, h⟩
    · cases h
  | regRead off bytes =>
    simp only [act] at h
    split at h
    · next r hr =>
      obtain ⟨rfl, rfl⟩ := accessedReg_bytes hr
      exact .inr (.inl ⟨r, rfl, by simpa using h.symm⟩)
    · cases h
  | wait u => exact .inr (.inr (.inl ⟨u, rfl, by simpa [act] using h.symm⟩))
  | memWrite a bs =>
    obtain ⟨h1, h2⟩ := hostAccess_cases h
    exact .inr (.inr (.inr (.inl ⟨a, bs, rfl, h1, h2⟩)))
  | memRead a n =>
    obtain ⟨h1, h2⟩ := hostAccess_cases h
    exact .inr (.inr (.inr (.inr (.inl ⟨a, n, rfl, h1, h2⟩))))
  | platformReset => exact .inr (.inr (.inr (.inr (.inr ⟨rfl, by simpa [act] using h.symm⟩))))

/-! ### Turns -/

theorem hostReady_iff {s : State} {i : Nat} :
    hostReady s i = true ↔ ∃ x rest, s.hosts[i]? = some (x :: rest) ∧ blocked x s = false := by
  unfold hostReady
  constructor
  · intro h
    split at h
    · next x rest hq => exact ⟨x, rest, hq, by simpa using h⟩
    · cases h
    · cases h
  · rintro ⟨x, rest, hq, hb⟩; simp [hq, hb]

/-- Who has a step (42_host_protocol.md R160). -/
theorem mem_enabled {s : State} {a : Agent} :
    a ∈ enabled s ↔ (∃ i, a = .host i ∧ hostReady s i = true) ∨ ∃ u, a = .unit u ∧ s.busy u = true := by
  simp only [enabled, List.mem_append, List.mem_map, List.mem_filter, List.mem_range]
  constructor
  · rintro (⟨i, ⟨-, h⟩, rfl⟩ | ⟨u, ⟨-, h⟩, rfl⟩)
    · exact .inl ⟨i, rfl, h⟩
    · exact .inr ⟨u, rfl, h⟩
  · rintro (⟨i, rfl, h⟩ | ⟨u, rfl, h⟩)
    · refine .inl ⟨i, ⟨?_, h⟩, rfl⟩
      obtain ⟨x, rest, hq, -⟩ := hostReady_iff.1 h
      exact (List.getElem?_eq_some_iff.1 hq).1
    · exact .inr ⟨u, ⟨by cases u <;> simp, h⟩, rfl⟩

theorem freeAgent_mem {n : Nat} {as : List Agent} {a : Agent} (h : freeAgent n as = some a) : a ∈ as :=
  List.mem_of_getElem? h

/-- Whoever moves has a step. -/
theorem nextAgent_mem {s : State} {a : Agent} (h : nextAgent s = some a) : a ∈ enabled s := by
  unfold nextAgent at h
  split at h
  · cases h
  · next b hb => simp only [hb]; cases h; simp
  · split at h
    · exact freeAgent_mem h
    · split at h
      · next hc => cases h; simpa using hc
      · exact freeAgent_mem h

/-- Nobody moves only where nobody has a step. -/
theorem nextAgent_eq_none {s : State} : nextAgent s = none ↔ enabled s = [] := by
  constructor
  · intro h
    by_contra hne
    have hfree : ∀ n (as : List Agent), as ≠ [] → freeAgent n as ≠ none := by
      intro n as has hn
      rw [freeAgent, List.getElem?_eq_none_iff] at hn
      exact absurd (Nat.mod_lt (Config.freeIndex n) (List.length_pos_iff.2 has)) (by omega)
    unfold nextAgent at h
    split at h
    · next he => exact hne he
    · cases h
    · split at h
      · exact hfree _ _ hne h
      · split at h
        · cases h
        · exact hfree _ _ hne h
  · intro h; simp [nextAgent, h]

/-- A blocked action is a `WAIT` on a BUSY unit. -/
theorem blocked_iff {x : HostAction} {s : State} : blocked x s = true ↔ ∃ u, x = .wait u ∧ s.busy u = true := by
  cases x <;> simp [blocked]

/-- What a step can do: nothing where the run has ended, the completion of the BUSY unit whose turn it is, or the next
action of the host whose turn it is. -/
theorem step_cases {s t : State} (h : step s = .next t) :
    (enabled s = [] ∧ t = s) ∨
    (∃ u l, nextAgent s = some (.unit u) ∧ s.latch u = some l ∧ t = finish u (tick s)) ∨
    ∃ i x rest, nextAgent s = some (.host i) ∧ s.hosts[i]? = some (x :: rest) ∧ blocked x s = false ∧
      act i x ((tick s).setProgram i rest) = .next t := by
  unfold step at h
  split at h
  · next hn => exact .inl ⟨nextAgent_eq_none.1 hn, by simpa using h.symm⟩
  · next a ha =>
    rcases mem_enabled.1 (nextAgent_mem ha) with ⟨i, rfl, hi⟩ | ⟨u, rfl, hu⟩
    · obtain ⟨x, rest, hq, hb⟩ := hostReady_iff.1 hi
      refine .inr (.inr ⟨i, x, rest, ha, hq, hb, ?_⟩)
      have hb' : blocked x (tick s) = false := by
        rw [← hb]; cases x <;> simp [blocked, State.busy]
      simpa [agentStep, hostStep, hq, hb'] using h
    · obtain ⟨l, hl⟩ := busy_iff.1 hu
      exact .inr (.inl ⟨u, l, ha, hl, by simpa [agentStep] using h.symm⟩)

end Sys2Proof.Machine
end

