-- ==== Sys2Proof/Tests/Slice0.lean ====
section
/-! SUPPORT. Tests with expected results from 95_test_vectors.md and the worked examples of the rules, the smoke test of the
well-formedness checks, and one witness for every statement that has hypotheses. -/

namespace Sys2Proof.Tests
open Sys2Proof Sys2Proof.Machine

/-! ### Helpers -/

/-- What `f` says of the next state, where there is one. -/
def after {α : Type} (o : Host.Outcome State Fault Refusal) (f : State → α) : Option α :=
  match o with
  | .next s => some (f s)
  | .fault _ => none
  | .refused _ => none

/-- Memory with the bytes `bs` at `a`, … and nothing else. -/
def bytesAt (a : Nat) (bs : List Byte) : Memory := hostStoreAll a bs State.reset |>.mem

/-- The `n` bytes at `a`, …. -/
def window (m : Memory) (a n : Nat) : List Byte := (List.range n).map fun i => m.read (a + i)

/-- Reset, with descriptors for one PACK of `n` columns of 16 values from 0x1000 to 0x2000. -/
def packReady (n : Nat) : State := { State.reset with pkN := BitVec.ofNat 64 n, pkK := 16, pkSrc := 0x1000, pkDst := 0x2000 }

/-- Reset, with descriptors for one conversion of `n` elements. -/
def castReady (n src dst : Nat) : State :=
  { State.reset with fcCount := BitVec.ofNat 64 n, fcSrc := BitVec.ofNat 64 src, fcDst := BitVec.ofNat 64 dst }

/-- PK runs a PACK of one column of 16 values, from 0x1000 to 0x2000. -/
def pkRuns : State := (packReady 1).setLatch .pk (Latch.fresh (.pack 1 16 16) 0x1000 0x2000)

/-- FC widens two elements, from 0x3000 to 0x3100. -/
def fcWidens : State := (castReady 2 0x3000 0x3100).setLatch .fc (Latch.fresh (.widen 2) 0x3000 0x3100)

/-- FC narrows two elements, from 0x3000 to 0x3100. -/
def fcNarrows : State := (castReady 2 0x3000 0x3100).setLatch .fc (Latch.fresh (.narrow 2) 0x3000 0x3100)

/-- Both units run, on ranges that are pairwise disjoint (program 4 of 95_test_vectors.md in small). -/
def bothRun : State := pkRuns.setLatch .fc (Latch.fresh (.widen 2) 0x3000 0x3100)

/-- A platform with memory in the first 64 KiB only. -/
def smallPlatform : Platform := { nrfcBase := 0x40000000, regions := [{ base := 0, size := 0x10000 }] }

/-! ### Well-formedness: an ill-formed term for each check -/

theorem test_wf_accepts : Instr.wellFormed (.pack 15 15 0xFFFF) = true := by decide
theorem test_wf_refuses_ctype : Instr.wellFormed (.pack 16 4 16) = false := by decide
theorem test_wf_refuses_bits : Instr.wellFormed (.pack 1 16 16) = false := by decide
theorem test_wf_refuses_blklen : Instr.wellFormed (.pack 1 4 0x10000) = false := by decide
theorem test_platform_wf_refuses_misaligned : Platform.wf { Config.resetPlatform with nrfcBase := 0x40000004 } = false := by
  decide
theorem test_platform_wf_refuses_end :
    Platform.wf { Config.resetPlatform with nrfcBase := 0xFFFFFFFFFFFFFF88 } = false := by decide
theorem test_platform_wf_accepts : Config.resetPlatform.wf = true := by decide

/-! ### Decoding: words written out field by field from 30_encoding.md R80 -/

/-- RSV, BLKLEN = 16, BITS = 4, CTYPE = 1, OP = 0x01 (95_test_vectors.md section 4, row 1). -/
theorem test_decode_pack :
    decode .pk (0b00000000000000000000000000000000#32 ++ 0b0000000000010000#16 ++ 0b0100#4 ++ 0b0001#4 ++ 0b00000001#8)
      = .ok (.pack 1 4 16) := by rfl
/-- Every field its own value, so that no two can be exchanged. -/
theorem test_decode_pack_fields :
    decode .pk (0b00000000000000000000000000000000#32 ++ 0b1000000001000011#16 ++ 0b1010#4 ++ 0b0110#4 ++ 0b00000001#8)
      = .ok (.pack 6 10 0x8043) := by rfl
/-- OP = 0x02, all else 0. -/
theorem test_decode_f16ToF32 :
    decode .fc (0b00000000000000000000000000000000#32 ++ 0b0000000000000000#16 ++ 0b0000#4 ++ 0b0000#4 ++ 0b00000010#8)
      = .ok .f16ToF32 := by rfl
/-- OP = 0x03, all else 0. -/
theorem test_decode_f32ToF16 :
    decode .fc (0b00000000000000000000000000000000#32 ++ 0b0000000000000000#16 ++ 0b0000#4 ++ 0b0000#4 ++ 0b00000011#8)
      = .ok .f32ToF16 := by rfl
/-- 95_test_vectors.md section 4: reserved opcodes, the other unit's opcodes, FC opcodes with fields. -/
theorem test_decode_illegal :
    decode .pk 0x00 = .error .notAnOpcodeOfUnit ∧ decode .pk 0x104104 = .error .notAnOpcodeOfUnit ∧
      decode .fc 0xFF = .error .notAnOpcodeOfUnit ∧ decode .fc 0x104102 = .error .fcFieldsNotZero ∧
      decode .fc 0x103 = .error .fcFieldsNotZero := by refine ⟨?_, ?_, ?_, ?_, ?_⟩ <;> rfl
/-- 30_encoding.md R87: the word of `cw(PACK, 4, 64, 1)`, and the FC words. -/
theorem test_encode : encode (.pack 1 4 64) = 0x404101 ∧ encode .f16ToF32 = 0x2 ∧ encode .f32ToF16 = 0x3 := by decide
/-- The match values of opcode_table.json. -/
theorem test_decodeTableWord :
    decodeTableWord 64 0x1 = some (.pack 0 0 0) ∧ decodeTableWord 64 0x2 = some .f16ToF32 ∧
      decodeTableWord 64 0x3 = some .f32ToF16 ∧ decodeTableWord 64 0x4 = none := by decide

/-! ### The commands -/

/-- 95_test_vectors.md program 5: one column of program 1, in the tail path. -/
theorem test_pack_tail :
    window (finish .pk { pkRuns with mem := bytesAt 0x1000 [0x3B, 0xD8, 0x75, 0x12, 0xAF, 0x4C, 0xE9, 0x86] }).mem 0x2000 8
      = [0xFB, 0xA3, 0xC8, 0x4D, 0x95, 0xE7, 0x62, 0x81] := by decide

/-- 95_test_vectors.md section 2.4 (program 1): one full tile and one tail column. -/
theorem test_pack_tile :
    (List.range 72).map (packByte 9 8 fun _ x => BitVec.ofNat 8 (0x9D * x + 0x3B)) =
      [0xFB, 0x73, 0xFB, 0x73, 0xFB, 0x73, 0xFB, 0x73, 0xA3, 0x92, 0x70, 0x6F, 0x4D, 0x3C, 0x1A, 0x09] ++
      [0xC8, 0x40, 0xC8, 0x40, 0xC8, 0x40, 0xC8, 0x40, 0x4D, 0x3C, 0x1A, 0x09, 0xE7, 0xD6, 0xB4, 0xA3] ++
      [0x95, 0x1D, 0x95, 0x1D, 0x95, 0x1D, 0x95, 0x1D, 0xE7, 0xD5, 0xB4, 0xA2, 0x81, 0x7F, 0x5E, 0x4C] ++
      [0x62, 0xEA, 0x62, 0xEA, 0x62, 0xEA, 0x62, 0xEA, 0x81, 0x6F, 0x5E, 0x3C, 0x2B, 0x09, 0xF8, 0xD6] ++
      [0xFB, 0xE7, 0xC8, 0x81, 0x95, 0x2B, 0x62, 0xC5] := by decide

/-- 95_test_vectors.md section 3.5, row 1. -/
theorem test_f16ToF32_bytes :
    window (finish .fc { fcWidens with mem := bytesAt 0x3000 [0x00, 0x3C, 0x01, 0x80] }).mem 0x3100 8
      = [0x00, 0x00, 0x80, 0x3F, 0x00, 0x00, 0x80, 0xB3] := by decide

/-- 41_formatcaster.md R131, corner cases, and R133 for the infinities. -/
theorem test_widen_rows :
    widen 0x8000 = 0x80000000 ∧ widen 0x0001 = 0x33800000 ∧ widen 0x03FF = 0x387FC000 ∧ widen 0x1C00 = 0x3B800000 ∧
      widen 0x5C00 = 0x43800000 ∧ widen 0xFC00 = 0xFF800000 := by decide

/-- 95_test_vectors.md section 3.5, row 3: odd addresses. -/
theorem test_f32ToF16_bytes :
    window (finish .fc (({ castReady 1 0x3001 0x3103 with mem := bytesAt 0x3001 [0x00, 0x00, 0x80, 0x3F] }).setLatch .fc
      (Latch.fresh (.narrow 1) 0x3001 0x3103))).mem 0x3102 4 = [0x00, 0x00, 0x3C, 0x00] := by decide

/-- 41_formatcaster.md R140, corner cases: ties, a mantissa carry, overflow, the smallest subnormal. -/
theorem test_narrow_rows :
    narrow 0x3F801000 = 0x3C00 ∧ narrow 0x3F803000 = 0x3C02 ∧ narrow 0x3FFFF000 = 0x4000 ∧ narrow 0x477FEFFF = 0x7BFF ∧
      narrow 0x477FF000 = 0x7C00 ∧ narrow 0x33000000 = 0x0000 ∧ narrow 0x33000001 = 0x0001 ∧ narrow 0x387FE000 = 0x0400 ∧
      narrow 0x80000000 = 0x8000 := by decide

/-- 95_test_vectors.md program 6, section 5.2: the first command after reset. -/
theorem test_step_after_reset :
    after (step (State.reset.withFetchWord 64 0x104101)) (readReg .pkStatus) = some 0x53 ∧
      after (step (State.reset.withFetchWord 64 0x2)) (readReg .fcStatus) = some 1 ∧
      after (step (State.reset.withFetchWord 64 0x3)) (readReg .fcStatus) = some 1 := by decide

/-- 95_test_vectors.md section 6: the drop of a CMD write, and clearing OVR. -/
theorem test_drop :
    after (act 0 (.wr .pkCmd 0x3) pkRuns) (readReg .pkStatus) = some 0x101 ∧
      after (act 0 (.wr .pkStatus 0x100) (dropCommand .pk pkRuns)) (readReg .pkStatus) = some 1 := by decide

/-! ### Witnesses: states and operands that meet the hypotheses of the statements -/

theorem legal_pack : (Latch.fresh (.pack 1 16 16) 0x1000 0x2000).legal Config.resetPlatform .pk where
  job := by refine ⟨?_, ?_, ?_, ?_, ?_⟩ <;> decide
  srcEnd := by decide
  dstEnd := by decide
  srcValid := by decide
  dstValid := by decide
  written _ h := absurd h List.not_mem_nil
  seen _ h := absurd h List.not_mem_nil

theorem legal_widen : (Latch.fresh (.widen 2) 0x3000 0x3100).legal Config.resetPlatform .fc where
  job := by change 4 * 2 < addressSpace; decide
  srcEnd := by decide
  dstEnd := by decide
  srcValid := by decide
  dstValid := by decide
  written _ h := absurd h List.not_mem_nil
  seen _ h := absurd h List.not_mem_nil

theorem legal_narrow : (Latch.fresh (.narrow 2) 0x3000 0x3100).legal Config.resetPlatform .fc where
  job := by change 4 * 2 < addressSpace; decide
  srcEnd := by decide
  dstEnd := by decide
  srcValid := by decide
  dstValid := by decide
  written _ h := absurd h List.not_mem_nil
  seen _ h := absurd h List.not_mem_nil

theorem inv_pkRuns : Inv pkRuns where
  mem := Memory.wf_nil
  latch u l hl := by cases u <;> cases hl; exact legal_pack
  clash l l' _ hl' := by cases hl'

theorem inv_fcWidens : Inv fcWidens where
  mem := Memory.wf_nil
  latch u l hl := by cases u <;> cases hl; exact legal_widen
  clash l l' hl := by cases hl

theorem inv_fcNarrows : Inv fcNarrows where
  mem := Memory.wf_nil
  latch u l hl := by cases u <;> cases hl; exact legal_narrow
  clash l l' hl := by cases hl

theorem inv_bothRun : Inv bothRun where
  mem := Memory.wf_nil
  latch u l hl := by
    cases u <;> cases hl
    · exact legal_pack
    · exact legal_widen
  clash l l' hl hl' hc := by cases hl; cases hl'; exact absurd hc (by decide)

theorem calm_pack : (Latch.fresh (.pack 1 16 16) 0x1000 0x2000).calm := ⟨rfl, rfl, rfl, by decide⟩
theorem calm_widen : (Latch.fresh (.widen 2) 0x3000 0x3100).calm := ⟨rfl, rfl, rfl, by decide⟩
theorem calm_narrow : (Latch.fresh (.narrow 2) 0x3000 0x3100).calm := ⟨rfl, rfl, rfl, by decide⟩

theorem calm_pkRuns : pkRuns.calm := fun u l hl => by cases u <;> cases hl; exact calm_pack

theorem calm_bothRun : bothRun.calm := fun u l hl => by
  cases u <;> cases hl
  · exact calm_pack
  · exact calm_widen

/-- No host has anything to do, so none breaks a duty. -/
theorem dutiful_of_no_hosts {s : State} (h : s.hosts = []) : s.dutiful := fun i x rest hq => by simp [h] at hq

/-- A host about to store the input of the next command, outside the ranges of the running one. -/
def pkRunsHostStores : State := { pkRuns with hosts := [[.memWrite 0x5000 [1, 2]]] }

theorem dutiful_pkRunsHostStores : pkRunsHostStores.dutiful := fun i x rest hq => by
  match i, hq with
  | 0, hq => cases hq; decide
  | n + 1, hq => simp [pkRunsHostStores] at hq

theorem witness_EncodeThenDecode : Instr.wellFormed (.pack 15 15 0xFFFF) = true ∧ Instr.wellFormed .f16ToF32 = true ∧
    Instr.wellFormed .f32ToF16 = true := by decide

theorem witness_DecodeThenEncode : decode .pk 0xFFFFFF01 = .ok (.pack 15 15 0xFFFF) ∧ decode .fc 0x2 = .ok .f16ToF32 ∧
    decode .fc 0x3 = .ok .f32ToF16 := ⟨rfl, rfl, rfl⟩

/-- One word for each clause: RSV = 1, each opcode with RSV = 0, a field of an FC opcode not 0, no opcode. -/
theorem witness_DecodeByFields :
    (0x100000001 : Word).extractLsb' 32 32 ≠ 0 ∧
    ((0xFFFFFF01 : Word).extractLsb' 32 32 = 0 ∧ (0xFFFFFF01 : Word).extractLsb' 0 8 = 0x01) ∧
    ((0x2 : Word).extractLsb' 32 32 = 0 ∧ (0x2 : Word).extractLsb' 0 8 = 0x02 ∧ (0x2 : Word).extractLsb' 8 24 = 0) ∧
    ((0x3 : Word).extractLsb' 32 32 = 0 ∧ (0x3 : Word).extractLsb' 0 8 = 0x03 ∧ (0x3 : Word).extractLsb' 8 24 = 0) ∧
    (0x00 : Word).extractLsb' 0 8 ≠ 0x01 ∧ ((0x04 : Word).extractLsb' 0 8 ≠ 0x02 ∧ (0x04 : Word).extractLsb' 0 8 ≠ 0x03) ∧
    (0x102 : Word).extractLsb' 8 24 ≠ 0 ∧ ∀ i, decode .fc 0x102 ≠ .ok i := by
  refine ⟨by decide, by decide, by decide, by decide, by decide, by decide, by decide, fun i h => ?_⟩; cases h

theorem witness_RowsOfOpcodeTable : decode .pk 0x104101 = .ok (.pack 1 4 16) ∧ (0x104101 : Word) &&& 0xFFFFFFFF000000FF = 0x1 :=
  ⟨rfl, by decide⟩

theorem witness_PlatformResetEffect : Inv pkRuns ∧ ∀ u l, pkRuns.latch u = some l → l.inDst 0x2008 = false :=
  ⟨inv_pkRuns, fun u l hl => by cases u <;> cases hl; decide⟩

theorem witness_EveryStepKeepsInv : Inv pkRuns ∧ step pkRuns = .next (finish .pk (tick pkRuns)) := ⟨inv_pkRuns, rfl⟩

theorem witness_DescriptorWriteReadBack :
    ∀ r ∈ [Reg.pkN, .fcDst], r ∈ [Reg.pkN, .pkK, .pkSrc, .pkDst, .fcCount, .fcSrc, .fcDst] := by decide

theorem witness_RegisterReadOnlyObserves :
    ∀ r ∈ [Reg.pkCmd, .rsv78], r ∈ [Reg.pkCmd, .fcCmd, .rsv30, .rsv38, .rsv68, .rsv70, .rsv78] := by decide

/-- One state for each phase and each error. -/
theorem witness_StatusWordFields :
    (State.reset.unit .pk).phase = .idle ∧ (pkRuns.unit .pk).phase = .busy (Latch.fresh (.pack 1 16 16) 0x1000 0x2000) ∧
      ((finish .pk pkRuns).unit .pk).phase = .done ∧
      ∀ e ∈ [ErrCode.opcode, .bits, .blklen, .ctype, .dimZero, .overflow],
        ((raise .fc e State.reset).unit .fc).phase = .error e := by decide

theorem witness_ReservedOffsetsInert : Reg.rsv30 ∈ [Reg.rsv30, .rsv38, .rsv68, .rsv70, .rsv78] ∧
    Reg.rsv78 ∈ [Reg.rsv30, .rsv38, .rsv68, .rsv70, .rsv78] := by decide

/-- A 32-bit access, a misaligned 64-bit one, and the first and last registers of the block. -/
theorem witness_RegisterAccessShape :
    (4 ≠ 8 ∨ (0x00#7).toNat % 8 ≠ 0) ∧ (8 ≠ 8 ∨ (0x7C#7).toNat % 8 ≠ 0) ∧ accessedReg 0x00 8 = some .pkN ∧
      accessedReg 0x78 8 = some .rsv78 := by decide

theorem witness_CommandWhileBusyOnlySetsOvr : pkRuns.busy (Instr.unit (.pack 1 4 16)) = true ∧ fcWidens.busy .fc = true := by
  decide

theorem witness_OvrStaysUntilCleared :
    step (dropCommand .pk pkRuns) = .next (finish .pk (tick (dropCommand .pk pkRuns))) ∧
      ((dropCommand .pk pkRuns).unit .pk).ovr = true := ⟨rfl, rfl⟩

/-- One word for each way of being ILLEGAL. -/
theorem witness_IllegalWordIsErrOpcode :
    State.reset.busy .pk = false ∧ State.reset.busy .fc = false ∧ (0x100000001 : Word).extractLsb' 32 32 ≠ 0 ∧
      (0x02 : Word).extractLsb' 0 8 ≠ 0x01 ∧ ((0x04 : Word).extractLsb' 0 8 ≠ 0x02 ∧ (0x04 : Word).extractLsb' 0 8 ≠ 0x03) ∧
      (0x102 : Word).extractLsb' 8 24 ≠ 0 := by decide

theorem witness_UnsupportedBitsReported : (packReady 1).busy .pk = false ∧ (0 : Nat) ≠ 4 ∧ (15 : Nat) ≠ 4 := by decide

theorem witness_UnsupportedBlockLengthReported : (packReady 1).busy .pk = false ∧ (256 : Nat) ≠ 16 ∧ (256 : Nat) ≠ 32 ∧
    (256 : Nat) ≠ 64 ∧ (256 : Nat) ≠ 128 := by decide

theorem witness_UnsupportedComputeTypeReported : (packReady 1).busy .pk = false ∧ 128 ∈ [16, 32, 64, 128] ∧ (0 : Nat) ≠ 1 := by
  decide

theorem witness_ZeroDimensionReported :
    ({ packReady 1 with pkN := 0 } : State).busy .pk = false ∧ 16 ∈ [16, 32, 64, 128] ∧
      ({ packReady 1 with pkN := 0 } : State).pkN = 0 ∧ ({ packReady 1 with pkK := 0 } : State).pkK = 0 ∧
      exec .f16ToF32 State.reset = .next (latchCommand .fc (Latch.fresh (.widen 0) 0 0) State.reset) :=
  ⟨rfl, by decide, rfl, rfl, rfl⟩

/-- Boundary values of 95_test_vectors.md section 5: `Kpad = 2^64`, `size = 2^64`, an end one byte past the address
space; and for the FC operations the same. -/
theorem witness_OverflowReported :
    (packReady 1).busy .pk = false ∧ (packReady 1).pkN ≠ 0 ∧ (packReady 1).pkK ≠ 0 ∧ 16 ∈ [16, 32, 64, 128] ∧
      2 ^ 64 ≤ kpad (2 ^ 64 - 15) 16 ∧ 2 ^ 64 ≤ packSize (2 ^ 32) (2 ^ 33) 16 ∧ 2 ^ 64 < (2 ^ 64 - 7) + packSize 1 16 16 ∧
      (castReady (2 ^ 62) 0 0).busy .fc = false ∧ 2 ^ 64 ≤ 4 * (castReady (2 ^ 62) 0 0).fcCount.toNat ∧
      2 ^ 64 < (castReady 2 (2 ^ 64 - 3) 0x3100).fcSrc.toNat + 2 * (castReady 2 (2 ^ 64 - 3) 0x3100).fcCount.toNat := by
  decide

theorem witness_IssueFromAnyRestingState :
    Phase.latch .idle = none ∧ Phase.latch .done = none ∧ Phase.latch (.error .ctype) = none := by decide

theorem witness_IssueFrame :
    command .pk 0x104101 (packReady 1) = .next pkRuns ∧ (packReady 1).busy .pk = false := ⟨rfl, rfl⟩

/-- A destination range that reaches into the register block, and a source range past the end of a small memory. -/
theorem witness_RangeNotMemoryRefused :
    (({ packReady 1 with pkDst := 0x3FFFFFFC } : State).busy .pk = false ∧
      firstError (.pack 1 4 16) { packReady 1 with pkDst := 0x3FFFFFFC } = none ∧
      (requested (.pack 1 4 16) { packReady 1 with pkDst := 0x3FFFFFFC }).backed Config.resetPlatform = false) ∧
    (firstError .f16ToF32 { castReady 2 0xFFFE 0x3100 with platform := smallPlatform } = none ∧
      (requested .f16ToF32 (castReady 2 0xFFFE 0x3100)).backed smallPlatform = false) := by decide

/-- PACK's descriptors in place while FC runs a command on other ranges. -/
def packBeside : State := { fcWidens with pkN := 1, pkK := 16, pkSrc := 0x1000, pkDst := 0x2000 }

theorem inv_packBeside : Inv packBeside := ⟨Memory.wf_nil, inv_fcWidens.latch, fun l l' hl => by cases hl⟩

/-- FC's descriptors in place while PK runs a command on other ranges. -/
def castBeside : State := { pkRuns with fcCount := 2, fcSrc := 0x3000, fcDst := 0x3100 }

theorem inv_castBeside : Inv castBeside := ⟨Memory.wf_nil, inv_pkRuns.latch, fun l l' _ hl' => by cases hl'⟩

theorem witness_PackCompletes :
    Inv packBeside ∧ packBeside.busy .pk = false ∧ 16 ∈ [16, 32, 64, 128] ∧ packBeside.pkN.toNat = 1 ∧
      packBeside.pkK.toNat = 16 ∧ kpad 16 16 < 2 ^ 64 ∧ 1 * ldb 16 16 < 2 ^ 64 ∧ 0x1000 + 1 * ldb 16 16 ≤ 2 ^ 64 ∧
      0x2000 + 1 * ldb 16 16 ≤ 2 ^ 64 ∧ packBeside.platform.rangeValid 0x1000 (1 * ldb 16 16) = true ∧
      packBeside.platform.rangeValid 0x2000 (1 * ldb 16 16) = true ∧
      overlaps 0x1000 (1 * ldb 16 16) 0x2000 (1 * ldb 16 16) = false ∧
      ∀ r, packBeside.latch .fc = some r → (Latch.fresh (.pack 1 16 16) 0x1000 0x2000).conflicts r = false :=
  ⟨inv_packBeside, by decide, by decide, by decide, by decide, by decide, by decide, by decide, by decide, by decide,
    by decide, by decide, fun r hr => by cases hr; decide⟩

theorem witness_F16ToF32Completes :
    Inv castBeside ∧ castBeside.busy .fc = false ∧ castBeside.fcCount.toNat = 2 ∧ 4 * 2 < 2 ^ 64 ∧
      0x3000 + 2 * 2 ≤ 2 ^ 64 ∧ 0x3100 + 4 * 2 ≤ 2 ^ 64 ∧ castBeside.platform.rangeValid 0x3000 (2 * 2) = true ∧
      castBeside.platform.rangeValid 0x3100 (4 * 2) = true ∧ overlaps 0x3000 (2 * 2) 0x3100 (4 * 2) = false ∧
      ∀ r, castBeside.latch .pk = some r → (Latch.fresh (.widen 2) 0x3000 0x3100).conflicts r = false :=
  ⟨inv_castBeside, by decide, by decide, by decide, by decide, by decide, by decide, by decide, by decide,
    fun r hr => by cases hr; decide⟩

theorem witness_F32ToF16Completes :
    Inv castBeside ∧ castBeside.busy .fc = false ∧ castBeside.fcCount.toNat = 2 ∧ 4 * 2 < 2 ^ 64 ∧
      0x3000 + 4 * 2 ≤ 2 ^ 64 ∧ 0x3100 + 2 * 2 ≤ 2 ^ 64 ∧ castBeside.platform.rangeValid 0x3000 (4 * 2) = true ∧
      castBeside.platform.rangeValid 0x3100 (2 * 2) = true ∧ overlaps 0x3000 (4 * 2) 0x3100 (2 * 2) = false ∧
      ∀ r, castBeside.latch .pk = some r → (Latch.fresh (.narrow 2) 0x3000 0x3100).conflicts r = false :=
  ⟨inv_castBeside, by decide, by decide, by decide, by decide, by decide, by decide, by decide, by decide,
    fun r hr => by cases hr; decide⟩

/-- The forms a contract violation takes: PACK in place, PACK onto the source of the running FC command, and FC onto the
destination of the running PACK. Each passes its checks, over ranges that are memory. -/
theorem witness_CompletesOnViolation :
    (firstError (.pack 1 4 16) { packBeside with pkDst := 0x1000 } = none ∧
      overlaps 0x1000 (1 * ldb 16 16) 0x1000 (1 * ldb 16 16) = true ∧
      packBeside.platform.rangeValid 0x1000 (1 * ldb 16 16) = true) ∧
    (clashesWith .fc (Latch.fresh (.pack 1 16 16) 0x1000 0x3003) packBeside = true ∧
      packBeside.platform.rangeValid 0x3003 (1 * ldb 16 16) = true) ∧
    (clashesWith .pk (Latch.fresh (.widen 2) 0x3000 0x2007) castBeside = true ∧
      clashesWith .pk (Latch.fresh (.narrow 2) 0x2007 0x3100) castBeside = true) := by decide

/-- Without any element (`count = 0`), where both ranges are empty. -/
theorem witness_CastOfNothing :
    firstError .f16ToF32 State.reset = none ∧ firstError .f32ToF16 State.reset = none ∧
      State.reset.platform.rangeValid 0 0 = true ∧ overlaps 0 0 0 0 = false := by decide

theorem witness_CompletionFrame :
    Inv bothRun ∧ bothRun.latch .fc = some (Latch.fresh (.widen 2) 0x3000 0x3100) ∧
      (Latch.fresh (.widen 2) 0x3000 0x3100).inDst 0x3108 = false := ⟨inv_bothRun, rfl, by decide⟩

/-- Two memories that agree on source element 0 and differ on element 1. -/
theorem witness_ElementsIndependent :
    (Inv fcWidens ∧ Memory.wf [(0x3002, 0x3C)] ∧ fcWidens.latch .fc = some (Latch.fresh (.widen 2) 0x3000 0x3100) ∧
      (Latch.fresh (.widen 2) 0x3000 0x3100).calm ∧ fcWidens.mem.read2 0x3000 = Memory.read2 [(0x3002, 0x3C)] 0x3000) ∧
    (Inv fcNarrows ∧ Memory.wf [(0x3004, 0x3C)] ∧ fcNarrows.latch .fc = some (Latch.fresh (.narrow 2) 0x3000 0x3100) ∧
      (Latch.fresh (.narrow 2) 0x3000 0x3100).calm ∧ fcNarrows.mem.read4 0x3000 = Memory.read4 [(0x3004, 0x3C)] 0x3000) :=
  ⟨⟨inv_fcWidens, by decide, rfl, calm_widen, by decide⟩, ⟨inv_fcNarrows, by decide, rfl, calm_narrow, by decide⟩⟩

/-- The last position and the last pair of bytes of a sub-block. -/
theorem witness_InterleavedBytes : 7 < 8 ∧ 3 < 4 := by decide

/-- The last cell of nine columns, in the tail, and the last of the tile. -/
theorem witness_PackPositionsBijection :
    16 ∈ [16, 32, 64, 128] ∧ 8 < 9 ∧ 7 < ldb 16 16 ∧ packPos 9 8 8 7 = 71 ∧ packPos 9 8 7 7 = 63 ∧ 71 < 9 * ldb 16 16 := by
  decide

theorem witness_PackNibbleByNibble :
    16 ∈ [16, 32, 64, 128] ∧ 8 < 9 ∧ 7 < 9 ∧ 8 * 1 < ldb 17 16 ∧ 7 < 8 ∧ 7 < 8 * (9 / 8) ∧ ¬ 8 < 8 * (9 / 8) := by decide

theorem witness_PackRoundTrip : 128 ∈ [16, 32, 64, 128] ∧ 575 < packSize 9 1 128 := by decide

/-- The smallest subnormal and the largest normal. -/
theorem witness_WidenExact : (0x0001 : Half) &&& 0x7C00 ≠ 0x7C00 ∧ (0x7BFF : Half) &&& 0x7C00 ≠ 0x7C00 := by decide

theorem witness_WidenInfinitiesAndNaNs : halfIsNaN 0x7C01 = true ∧ halfIsNaN 0xFFFF = true := by decide

/-- A tie, and the largest finite pattern. -/
theorem witness_NarrowRoundsToNearestEven :
    (0x3F801000 : Single) &&& 0x7F800000 ≠ 0x7F800000 ∧ (0x7F7FFFFF : Single) &&& 0x7F800000 ≠ 0x7F800000 ∧
      0x7BFF ≤ 0x7C00 ∧ 0x7BFF ≠ (narrow 0x7F7FFFFF).toNat % 2 ^ 15 := by decide

theorem witness_NarrowOddInSign : singleIsNaN 0x7F800000 = false ∧ singleIsNaN 0x00000001 = false := by decide

theorem witness_NarrowMonotone :
    (0x477FEFFF : Single) &&& 0x7F800000 ≠ 0x7F800000 ∧ (0x477FF000 : Single) &&& 0x7F800000 ≠ 0x7F800000 ∧
      singleMagnitude ((0x477FEFFF : Single).toNat % 2 ^ 31) ≤ singleMagnitude ((0x477FF000 : Single).toNat % 2 ^ 31) := by
  decide

theorem witness_NarrowUndoesWiden : halfIsNaN 0x7C00 = false ∧ halfIsNaN 0x8001 = false := by decide

/-- A store into the destination range of a running command, and one of nothing. -/
theorem witness_HostStoreEffect :
    Inv pkRuns ∧ pkRuns.platform.rangeValid (0x2007 : Word).toNat [(1 : Byte), 2].length = true ∧
      pkRuns.platform.rangeValid (0x2007 : Word).toNat ([] : List Byte).length = true := ⟨inv_pkRuns, by decide, by decide⟩

/-- A load right behind the destination range of the running command. -/
theorem witness_HostLoadEffect :
    pkRuns.platform.rangeValid (0x2008 : Word).toNat 2 = true ∧
      ∀ u l x, pkRuns.latch u = some l → (0x2008 : Word).toNat ≤ x → x < (0x2008 : Word).toNat + 2 → l.inDst x = false :=
  ⟨by decide, fun u l x hl h1 _ => by
    cases u <;> cases hl
    have h2 : 0x2008 ≤ x := h1
    change inRange 0x2000 8 x = false
    rw [inRange_eq_false]; omega⟩

/-- A load of the last destination byte of the running command and of the byte behind it. -/
theorem witness_RacingLoadReturnsOldOrFinal :
    Inv pkRuns ∧ pkRuns.platform.rangeValid (0x2007 : Word).toNat 2 = true ∧
      pkRuns.latch .pk = some (Latch.fresh (.pack 1 16 16) 0x1000 0x2000) ∧
      (Latch.fresh (.pack 1 16 16) 0x1000 0x2000).inDst 0x2007 = true ∧
      (Latch.fresh (.pack 1 16 16) 0x1000 0x2000).calm := ⟨inv_pkRuns, by decide, rfl, by decide, calm_pack⟩

/-- A store over the last source byte of the running command, and one over its last destination byte. -/
theorem witness_RacingStoreLeavesEither :
    Inv pkRuns ∧ pkRuns.platform.rangeValid (0x1007 : Word).toNat [(1 : Byte), 2].length = true ∧
      pkRuns.platform.rangeValid (0x2007 : Word).toNat [(1 : Byte), 2].length = true ∧
      pkRuns.latch .pk = some (Latch.fresh (.pack 1 16 16) 0x1000 0x2000) ∧
      (Latch.fresh (.pack 1 16 16) 0x1000 0x2000).calm ∧ 7 < (Job.pack 1 16 16).dstLen ∧ 7 < (Job.pack 1 16 16).srcLen :=
  ⟨inv_pkRuns, by decide, by decide, rfl, calm_pack, by decide, by decide⟩

/-- The last byte before the block together with its first, and the first byte behind a small memory. -/
theorem witness_BadHostAddressStops :
    Config.resetPlatform.rangeValid (0x3FFFFFFF : Word).toNat [(1 : Byte), 2].length = false ∧
      outsideBlock Config.resetPlatform (0x3FFFFFFF : Word).toNat 2 = false ∧
      smallPlatform.rangeValid (0xFFFF : Word).toNat 2 = false ∧ outsideBlock smallPlatform (0xFFFF : Word).toNat 2 = true := by
  decide

theorem witness_WaitAnswersWhenNotBusy :
    ({ pkRuns with hosts := [[.wait .pk], [.wait .fc]] } : State).hosts[0]? = some (.wait .pk :: []) ∧
      ({ pkRuns with hosts := [[.wait .pk], [.wait .fc]] } : State).hosts[1]? = some (.wait .fc :: []) ∧
      pkRuns.busy .pk = true ∧ pkRuns.busy .fc = false := by decide

theorem witness_StepRunsDecodedCommand :
    let s : State := { packReady 1 with hosts := [[.wr .pkCmd 0x104101]], turns := [.host 0] }
    nextAgent s = some (.host 0) ∧ s.hosts[0]? = some (.wr UnitId.pk.cmdReg 0x104101 :: []) ∧ hostReady s 0 = true ∧
      s.turns = .host 0 :: [] := by decide

theorem witness_FetchWordRunsNext : decodeTableWord 64 0x104101 = some (.pack 1 4 16) ∧
    decodeTableWord 64 0x2 = some .f16ToF32 ∧ decodeTableWord 64 0x3 = some .f32ToF16 := by decide

theorem witness_UnitTurnCompletes : nextAgent pkRuns = some (.unit .pk) ∧ nextAgent fcWidens = some (.unit .fc) := by decide

/-- A run that has not ended, and one that has. -/
theorem witness_EveryStepShortensTheRun :
    (step pkRuns = .next (finish .pk (tick pkRuns)) ∧ ¬ pkRuns.ended) ∧
      (step State.reset = .next State.reset ∧ State.reset.ended) :=
  ⟨⟨rfl, fun h => absurd h.2.1 (by decide)⟩, ⟨rfl, fun _ h => absurd h List.not_mem_nil, rfl, rfl⟩⟩

/-- A host's descriptor write. -/
theorem witness_OnlyHostsWriteDescriptors :
    step { State.reset with hosts := [[.wr .pkK 5]] } =
      .next { State.reset with hosts := [[]], pkK := 5, draws := 1 } := by rfl

/-- The completion of F16TOF32 writes 0x3102: the element at 0x3000 is 1.0. -/
theorem witness_OnlyOwnersWriteMemory :
    let s : State := { fcWidens with mem := [(0x3001, 0x3C)] }
    Inv s ∧ step s = .next (finish .fc (tick s)) ∧ (finish .fc (tick s)).mem.read 0x3102 ≠ s.mem.read 0x3102 :=
  ⟨⟨by decide, inv_fcWidens.latch, inv_fcWidens.clash⟩, rfl, by decide⟩

theorem witness_UnitStateMachine :
    step { packReady 1 with hosts := [[.wr .pkCmd 0x104101]] } = .next { pkRuns with hosts := [[]], draws := 1 } := by rfl

theorem witness_DutifulStepsStayCalm :
    Inv pkRuns ∧ pkRuns.calm ∧ pkRuns.dutiful ∧ step pkRuns = .next (finish .pk (tick pkRuns)) :=
  ⟨inv_pkRuns, calm_pkRuns, dutiful_of_no_hosts rfl, rfl⟩

/-- A host stores in between, outside the ranges of the running command, and PK completes in the step after. -/
theorem witness_UndisturbedCommandIsAtomic :
    let s : State := { pkRunsHostStores with turns := [.host 0] }
    let t : State := { pkRuns with mem := [(0x5000, 1), (0x5001, 2)], hosts := [[]], draws := 1 }
    Inv s ∧ s.calm ∧ s.latch .pk = some (Latch.fresh (.pack 1 16 16) 0x1000 0x2000) ∧ DutifulWhileBusy .pk s t ∧ t.dutiful ∧
      step t = .next (finish .pk (tick t)) ∧ (finish .pk (tick t)).busy .pk = false := by
  refine ⟨⟨Memory.wf_nil, inv_pkRuns.latch, inv_pkRuns.clash⟩, calm_pkRuns, rfl,
    .step (.refl _) (fun i x rest hq => dutiful_pkRunsHostStores i x rest hq) rfl rfl, ?_, rfl, rfl⟩
  intro i x rest hq
  match i, hq with
  | 0, hq => cases hq
  | n + 1, hq => simp at hq

theorem witness_CompletionOrderDoesNotShow :
    Inv bothRun ∧ bothRun.calm ∧ bothRun.busy .pk = true ∧ bothRun.busy .fc = true :=
  ⟨inv_bothRun, calm_bothRun, rfl, rfl⟩

end Sys2Proof.Tests
end

section
/-! The decoder by fields (30_encoding.md R86): the fields of a word as slices of bits, the words that decode at each
unit, and what a word that does not decode makes of a command. -/

namespace Sys2Proof.Machine

/-! ### Fields as slices of bits -/

/-- The two spellings of `cw[hi:lo]`: by division and remainder, and as a slice of bits (00_scope.md R7). -/
theorem cwField_eq_toNat (cw : Word) (lo width : Nat) : cwField cw lo width = (cw.extractLsb' lo width).toNat := by
  rw [BitVec.extractLsb'_toNat, Nat.shiftRight_eq_div_pow]; rfl

theorem cwField_eq_iff {n width : Nat} (hn : n < 2 ^ width) (cw : Word) (lo : Nat) :
    cwField cw lo width = n ↔ cw.extractLsb' lo width = BitVec.ofNat width n := by
  rw [cwField_eq_toNat, ← BitVec.toNat_inj, BitVec.toNat_ofNat, Nat.mod_eq_of_lt hn]

theorem cwRsv_eq_zero_iff {cw : Word} : cwRsv cw = 0 ↔ cw.extractLsb' 32 32 = 0 :=
  cwField_eq_iff (by decide) cw 32

theorem cwOp_eq_iff {cw : Word} {n : Nat} (hn : n < 2 ^ 8) : cwOp cw = n ↔ cw.extractLsb' 0 8 = BitVec.ofNat 8 n :=
  cwField_eq_iff hn cw 0

/-! ### The words that decode at each unit -/

theorem decode_pk_eq_ok_iff {cw : Word} {i : Instr} :
    decode .pk cw = .ok i ↔
      cwRsv cw = 0 ∧ cwOp cw = 0x01 ∧ i = .pack (cwCtype cw) (cwBits cw) (cwBlklen cw) := by
  by_cases hrsv : cwRsv cw = 0
  · by_cases hop : cwOp cw = 0x01
    · simp [decode, hrsv, hop, eq_comm]
    · simp [decode, hrsv, hop]
  · simp [decode, hrsv]

theorem decode_fc_eq_ok_iff {cw : Word} {i : Instr} :
    decode .fc cw = .ok i ↔
      cwRsv cw = 0 ∧ cwField cw 8 24 = 0 ∧ ((cwOp cw = 0x02 ∧ i = .f16ToF32) ∨ (cwOp cw = 0x03 ∧ i = .f32ToF16)) := by
  by_cases hrsv : cwRsv cw = 0
  · by_cases hwiden : cwOp cw = 0x02
    · by_cases hfields : cwField cw 8 24 = 0 <;> simp [decode, hrsv, hwiden, hfields, eq_comm]
    · by_cases hnarrow : cwOp cw = 0x03
      · by_cases hfields : cwField cw 8 24 = 0 <;> simp [decode, hrsv, hnarrow, hfields, eq_comm]
      · simp [decode, hrsv, hwiden, hnarrow]
  · simp [decode, hrsv]

theorem cwRsv_of_decode {u : UnitId} {cw : Word} {i : Instr} (h : decode u cw = .ok i) : cwRsv cw = 0 := by
  cases u with
  | pk => exact (decode_pk_eq_ok_iff.mp h).1
  | fc => exact (decode_fc_eq_ok_iff.mp h).1

/-! ### A word that does not decode -/

theorem command_of_not_decode {u : UnitId} {cw : Word} (h : ∀ i, decode u cw ≠ .ok i) (s : State) :
    command u cw s = illegalCommand u s := by
  unfold command
  split
  · next i hi => exact absurd hi (h i)
  · rfl

/-- Settles O3, from the words that decode at each unit (`decode_pk_eq_ok_iff`, `decode_fc_eq_ok_iff`) with the fields
read as slices of bits, and from the command of a word that does not decode. -/
theorem decodeByFields : Obligations.DecodeByFields := by
  intro cw
  have hop1 : cwOp cw = 0x01 ↔ cw.extractLsb' 0 8 = 0x01 := cwOp_eq_iff (by decide)
  have hop2 : cwOp cw = 0x02 ↔ cw.extractLsb' 0 8 = 0x02 := cwOp_eq_iff (by decide)
  have hop3 : cwOp cw = 0x03 ↔ cw.extractLsb' 0 8 = 0x03 := cwOp_eq_iff (by decide)
  have hfc : cwField cw 8 24 = 0 ↔ cw.extractLsb' 8 24 = 0 := cwField_eq_iff (by decide) cw 8
  refine ⟨?rsv, ?pack, ?widen, ?narrow, ?pkOther, ?fcOther, ?fcFields, ?illegal⟩
  case rsv => exact fun hrsv u i h => hrsv (cwRsv_eq_zero_iff.mp (cwRsv_of_decode h))
  case pack =>
    intro hrsv hop
    rw [← cwField_eq_toNat, ← cwField_eq_toNat, ← cwField_eq_toNat]
    exact decode_pk_eq_ok_iff.mpr ⟨cwRsv_eq_zero_iff.mpr hrsv, hop1.mpr hop, rfl⟩
  case widen =>
    exact fun hrsv hop hf =>
      decode_fc_eq_ok_iff.mpr ⟨cwRsv_eq_zero_iff.mpr hrsv, hfc.mpr hf, .inl ⟨hop2.mpr hop, rfl⟩⟩
  case narrow =>
    exact fun hrsv hop hf =>
      decode_fc_eq_ok_iff.mpr ⟨cwRsv_eq_zero_iff.mpr hrsv, hfc.mpr hf, .inr ⟨hop3.mpr hop, rfl⟩⟩
  case pkOther =>
    intro hop i h
    obtain ⟨-, hop', -⟩ := decode_pk_eq_ok_iff.mp h
    exact hop (hop1.mp hop')
  case fcOther =>
    intro hn2 hn3 i h
    obtain ⟨-, -, ⟨hop, -⟩ | ⟨hop, -⟩⟩ := decode_fc_eq_ok_iff.mp h
    · exact hn2 (hop2.mp hop)
    · exact hn3 (hop3.mp hop)
  case fcFields =>
    intro hf i h
    obtain ⟨-, hf', -⟩ := decode_fc_eq_ok_iff.mp h
    exact hf (hfc.mp hf')
  case illegal => exact fun u s h => command_of_not_decode h s

end Sys2Proof.Machine
end

section
/-! The errors of a command issue (60_exceptions.md R182 to R187): the checks in their order (R189), each by the condition
under which it is the first that fails, and the error that the issue of a command to a unit that is not BUSY then raises. -/

namespace Sys2Proof.Machine

/-! ### The issue of a command whose check fails -/

theorem exec_of_firstError {i : Instr} {e : ErrCode} {s : State} (hb : s.busy i.unit = false)
    (he : firstError i s = some e) : exec i s = .next (raise i.unit e s) := by
  rw [exec_eq_issue, he, issue_some hb]

theorem illegalCommand_of_not_busy {u : UnitId} {s : State} (hb : s.busy u = false) :
    illegalCommand u s = .next (raise u .opcode s) := by simp [illegalCommand, hb]

theorem command_of_decode {u : UnitId} {cw : Word} {i : Instr} (h : decode u cw = .ok i) (s : State) :
    command u cw s = exec i s := by simp [command, h]

/-- STATUS after an error entry (60_exceptions.md R190): ERROR in STATE, the code in ERRCODE, OVR as it was. -/
theorem readReg_statusReg_raise (u : UnitId) (e : ErrCode) (s : State) :
    readReg u.statusReg (raise u e s) = BitVec.ofNat 64 (3 + 16 * e.code + 256 * (s.unit u).ovr.toNat) := by
  cases u <;>
    simp [UnitId.statusReg, readReg, raise, State.setPhase, State.setUnit, UnitState.statusWord, Phase.stateField,
      Phase.errField, Nat.mul_comm]

theorem word_toNat_eq_zero_iff {x : Word} : x.toNat = 0 ↔ x = 0 := BitVec.toNat_inj (y := 0)

/-! ### The checks of PACK in their order (40_packer.md R104) -/

section packError
variable {c b l n k src dst : Nat}

theorem mem_supportedBits : b ∈ Config.supportedBits ↔ b = 4 := List.mem_singleton
theorem mem_supportedCtype : c ∈ Config.supportedCtype ↔ c = 1 := List.mem_singleton
theorem mem_supportedBlklen : l ∈ Config.supportedBlklen ↔ l ∈ [16, 32, 64, 128] := Iff.rfl

theorem packError_bits (hb : b ≠ 4) : packError c b l n k src dst = some .bits :=
  if_pos (mt mem_supportedBits.mp hb)

/-- With bits 4 the block length is the first check. -/
theorem packError_four : packError c 4 l n k src dst =
    if l ∉ Config.supportedBlklen then some .blklen
    else if c ∉ Config.supportedCtype then some .ctype
    else if n = 0 ∨ k = 0 then some .dimZero
    else if packOverflows n k src dst l then some .overflow
    else none := if_neg (not_not.mpr (mem_supportedBits.mpr rfl))

theorem packError_blklen (hl : l ∉ [16, 32, 64, 128]) : packError c 4 l n k src dst = some .blklen := by
  rw [packError_four, if_pos (mt mem_supportedBlklen.mp hl)]

theorem packError_ctype (hl : l ∈ [16, 32, 64, 128]) (hc : c ≠ 1) : packError c 4 l n k src dst = some .ctype := by
  rw [packError_four, if_neg (not_not.mpr (mem_supportedBlklen.mpr hl)), if_pos (mt mem_supportedCtype.mp hc)]

/-- With supported fields the dimensions are the first check. -/
theorem packError_supported (hl : l ∈ [16, 32, 64, 128]) : packError 1 4 l n k src dst =
    if n = 0 ∨ k = 0 then some .dimZero else if packOverflows n k src dst l then some .overflow else none := by
  rw [packError_four, if_neg (not_not.mpr (mem_supportedBlklen.mpr hl)), if_neg (not_not.mpr (mem_supportedCtype.mpr rfl))]

theorem packError_dimZero (hl : l ∈ [16, 32, 64, 128]) (hzero : n = 0 ∨ k = 0) :
    packError 1 4 l n k src dst = some .dimZero := by
  rw [packError_supported hl, if_pos hzero]

theorem packOverflows_iff : packOverflows n k src dst l = true ↔
    addressSpace ≤ kpad k l ∨ addressSpace ≤ packSize n k l ∨ addressSpace < src + packSize n k l ∨
      addressSpace < dst + packSize n k l := by
  simp only [packOverflows, Bool.or_eq_true, decide_eq_true_eq, or_assoc]

theorem packError_overflow (hl : l ∈ [16, 32, 64, 128]) (hn : n ≠ 0) (hk : k ≠ 0)
    (ho : packOverflows n k src dst l = true) : packError 1 4 l n k src dst = some .overflow := by
  rw [packError_supported hl, if_neg (not_or.mpr ⟨hn, hk⟩), if_pos ho]

end packError

/-! ### The check of the FC operations (41_formatcaster.md R130) -/

theorem castError_eq_some_iff {ssz dsz count src dst : Nat} {e : ErrCode} :
    castError ssz dsz count src dst = some e ↔
      (addressSpace ≤ dsz * count ∨ addressSpace ≤ ssz * count ∨ addressSpace < src + ssz * count ∨
        addressSpace < dst + dsz * count) ∧ e = .overflow := by
  rw [castError, Option.ite_some_none_eq_some, eq_comm (a := ErrCode.overflow)]

theorem eq_overflow_of_firstError_fc {i : Instr} {s : State} {e : ErrCode} (hu : i.unit = .fc)
    (he : firstError i s = some e) : e = .overflow := by
  cases i with
  | pack c b l => cases hu
  | f16ToF32 => exact (castError_eq_some_iff.mp he).2
  | f32ToF16 => exact (castError_eq_some_iff.mp he).2

theorem phase_ne_error_of_busy {u : UnitId} {s : State} (hb : s.busy u = true) (e : ErrCode) :
    (s.unit u).phase ≠ .error e := by
  intro hp
  simp [State.busy, State.latch, hp, Phase.latch] at hb

/-- An issue that leaves its unit in ERROR has reported its first failing check: a drop and an acceptance
leave the unit BUSY. -/
theorem firstError_of_exec_error {i : Instr} {s t : State} {e : ErrCode} (h : exec i s = .next t)
    (ht : (t.unit i.unit).phase = .error e) : firstError i s = some e := by
  obtain ⟨hb, rfl⟩ | ⟨-, e', he, rfl⟩ | ⟨-, -, -, rfl⟩ := exec_cases h
  · have hbusy : (dropCommand i.unit s).busy i.unit = true := by simpa [dropCommand, State.busy, State.latch] using hb
    exact absurd ht (phase_ne_error_of_busy hbusy e)
  · have hcode : e' = e := by simpa [raise] using ht
    rw [he, hcode]
  · have hbusy : (latchCommand i.unit (requested i s) s).busy i.unit = true := by simp [State.busy]
    exact absurd ht (phase_ne_error_of_busy hbusy e)

/-! ### The error that an issue to a unit that is not BUSY raises -/

section raises
variable {s : State} {c b l : Nat}

/-- The four ways of being ILLEGAL, read off the decoder by fields (30_encoding.md R86). -/
theorem command_raises_opcode {u : UnitId} {cw : Word} (hb : s.busy u = false)
    (hill : cw.extractLsb' 32 32 ≠ 0 ∨ (u = .pk ∧ cw.extractLsb' 0 8 ≠ 0x01) ∨
      (u = .fc ∧ cw.extractLsb' 0 8 ≠ 0x02 ∧ cw.extractLsb' 0 8 ≠ 0x03) ∨ (u = .fc ∧ cw.extractLsb' 8 24 ≠ 0)) :
    command u cw s = .next (raise u .opcode s) := by
  obtain ⟨hrsv, -, -, -, hpk, hfc, hfields, -⟩ := decodeByFields cw
  have hdec : ∀ i, decode u cw ≠ .ok i := by
    obtain h | ⟨rfl, h⟩ | ⟨rfl, h2, h3⟩ | ⟨rfl, h⟩ := hill
    · exact hrsv h u
    · exact hpk h
    · exact hfc h2 h3
    · exact hfields h
  rw [command_of_not_decode hdec, illegalCommand_of_not_busy hb]

theorem exec_pack_raises_bits (hb : s.busy .pk = false) (hbits : b ≠ 4) :
    exec (.pack c b l) s = .next (raise .pk .bits s) :=
  exec_of_firstError (i := .pack c b l) hb (packError_bits hbits)

theorem exec_pack_raises_blklen (hb : s.busy .pk = false) (hl : l ∉ [16, 32, 64, 128]) :
    exec (.pack c 4 l) s = .next (raise .pk .blklen s) :=
  exec_of_firstError (i := .pack c 4 l) hb (packError_blklen hl)

theorem exec_pack_raises_ctype (hb : s.busy .pk = false) (hl : l ∈ [16, 32, 64, 128]) (hc : c ≠ 1) :
    exec (.pack c 4 l) s = .next (raise .pk .ctype s) :=
  exec_of_firstError (i := .pack c 4 l) hb (packError_ctype hl hc)

theorem exec_pack_raises_dimZero (hb : s.busy .pk = false) (hl : l ∈ [16, 32, 64, 128]) (hzero : s.pkN = 0 ∨ s.pkK = 0) :
    exec (.pack 1 4 l) s = .next (raise .pk .dimZero s) := by
  have hdim : s.pkN.toNat = 0 ∨ s.pkK.toNat = 0 := by simpa only [word_toNat_eq_zero_iff] using hzero
  exact exec_of_firstError (i := .pack 1 4 l) hb (packError_dimZero hl hdim)

theorem exec_pack_raises_overflow (hb : s.busy .pk = false) (hl : l ∈ [16, 32, 64, 128]) (hn : s.pkN ≠ 0) (hk : s.pkK ≠ 0)
    (ho : packOverflows s.pkN.toNat s.pkK.toNat s.pkSrc.toNat s.pkDst.toNat l = true) :
    exec (.pack 1 4 l) s = .next (raise .pk .overflow s) := by
  have hn' : s.pkN.toNat ≠ 0 := mt word_toNat_eq_zero_iff.mp hn
  have hk' : s.pkK.toNat ≠ 0 := mt word_toNat_eq_zero_iff.mp hk
  exact exec_of_firstError (i := .pack 1 4 l) hb (packError_overflow hl hn' hk' ho)

end raises

/-! ### The obligations: the general rule, and the rule's own example read from STATUS -/

/-- Settles O19, by the decoder by fields (`command_raises_opcode`). -/
theorem illegalWordIsErrOpcode : Obligations.IllegalWordIsErrOpcode :=
  ⟨fun _ _ _ hb hill => command_raises_opcode hb hill,
    _, command_raises_opcode rfl (.inr (.inr (.inl (by decide)))), readReg_statusReg_raise .fc .opcode State.reset⟩

/-- Settles O20: the check of bits is the first. -/
theorem unsupportedBitsReported : Obligations.UnsupportedBitsReported := by
  have hdec : decode .pk 0x00208101 = .ok (.pack 1 8 32) := rfl
  exact ⟨fun _ _ _ _ hb hbits => exec_pack_raises_bits hb hbits,
    _, (command_of_decode hdec _).trans (exec_pack_raises_bits rfl (by decide)),
    readReg_statusReg_raise .pk .bits State.reset⟩

/-- Settles O21: with bits 4 the check of the block length is the first that can fail. -/
theorem unsupportedBlockLengthReported : Obligations.UnsupportedBlockLengthReported := by
  have hdec : decode .pk 0x00084101 = .ok (.pack 1 4 8) := rfl
  exact ⟨fun _ _ _ hb h16 h32 h64 h128 => exec_pack_raises_blklen hb (by simp [h16, h32, h64, h128]),
    _, (command_of_decode hdec _).trans (exec_pack_raises_blklen rfl (by decide)),
    readReg_statusReg_raise .pk .blklen State.reset⟩

/-- Settles O22: with bits 4 and a supported block length the check of the compute type is the first that can fail. -/
theorem unsupportedComputeTypeReported : Obligations.UnsupportedComputeTypeReported := by
  have hdec : decode .pk 0x00204001 = .ok (.pack 0 4 32) := rfl
  exact ⟨fun _ _ _ hb hl hc => exec_pack_raises_ctype hb hl hc,
    _, (command_of_decode hdec _).trans (exec_pack_raises_ctype rfl (by decide) (by decide)),
    readReg_statusReg_raise .pk .ctype State.reset⟩

/-- Settles O23: with supported fields the check of the dimensions is the first that can fail, and FC has no check but
the one of overflow (`eq_overflow_of_firstError_fc`). -/
theorem zeroDimensionReported : Obligations.ZeroDimensionReported := by
  refine ⟨fun _ _ hb hl hzero => exec_pack_raises_dimZero hb hl hzero, ?fc,
    _, exec_pack_raises_dimZero rfl (by decide) (.inl rfl), readReg_statusReg_raise .pk .dimZero State.reset⟩
  case fc =>
    intro i s t hu h ht
    have herr : firstError i s = some .dimZero := firstError_of_exec_error h (by rw [hu]; exact ht)
    cases eq_overflow_of_firstError_fc hu herr

/-- Settles O24: past the other checks of PACK, and as the only check of the FC operations, the one of overflow fails. -/
theorem overflowReported : Obligations.OverflowReported := by
  refine ⟨fun _ _ hb hl hn hk ho => exec_pack_raises_overflow hb hl hn hk (packOverflows_iff.mpr ho), ?widen, ?narrow,
    _, exec_pack_raises_overflow rfl (by decide) (by decide) (by decide) (by decide),
    readReg_statusReg_raise .pk .overflow _⟩
  case widen =>
    intro s hb ho
    exact exec_of_firstError (i := .f16ToF32) hb (castError_eq_some_iff.mpr ⟨or_left_comm.mp ho, rfl⟩)
  case narrow =>
    intro s hb ho
    exact exec_of_firstError (i := .f32ToF16) hb (castError_eq_some_iff.mpr ⟨or_left_comm.mp ho, rfl⟩)

end Sys2Proof.Machine
end

section
/-! The encoder against the decoder (30_encoding.md R80, R86, R87): the fields of the word of an instruction, the one
word of what decodes, and the rows of the opcode table. -/

namespace Sys2Proof.Machine

/-- The word of PACK as a number: no field reaches into the next. -/
theorem toNat_encode_pack {c b l : Nat} (hc : c < 2 ^ 4) (hb : b < 2 ^ 4) (hl : l < 2 ^ 16) :
    (encode (.pack c b l)).toNat = 0x01 + c * 2 ^ 8 + b * 2 ^ 12 + l * 2 ^ 16 := by
  rw [encode, BitVec.toNat_ofNat, Nat.mod_eq_of_lt (by omega)]

/-- Settles O1: each field of the word of PACK is read off its number; the words of FC are two fixed words. -/
theorem encodeThenDecode : Obligations.EncodeThenDecode := by
  intro i hwf
  cases i with
  | pack c b l =>
    simp only [Instr.wellFormed, Bool.and_eq_true, decide_eq_true_eq] at hwf
    obtain ⟨⟨hc, hb⟩, hl⟩ := hwf
    have hword := toNat_encode_pack hc hb hl
    have hfields : cwRsv (encode (.pack c b l)) = 0 ∧ cwOp (encode (.pack c b l)) = 0x01 ∧
        cwCtype (encode (.pack c b l)) = c ∧ cwBits (encode (.pack c b l)) = b ∧ cwBlklen (encode (.pack c b l)) = l := by
      simp only [cwRsv, cwOp, cwCtype, cwBits, cwBlklen, cwField, hword]
      omega
    obtain ⟨hrsv, hop, hct, hbi, hbl⟩ := hfields
    exact decode_pk_eq_ok_iff.mpr ⟨hrsv, hop, by rw [hct, hbi, hbl]⟩
  | f16ToF32 => rfl
  | f32ToF16 => rfl

/-- Settles O2: the fields the decoder reads, with RSV and OP known, make up the whole word. -/
theorem decodeThenEncode : Obligations.DecodeThenEncode := by
  intro u cw i h
  have hlt := cw.isLt
  refine ⟨unit_of_decode h, ?_⟩
  cases u with
  | pk =>
    obtain ⟨hrsv, hop, rfl⟩ := decode_pk_eq_ok_iff.mp h
    simp only [cwRsv, cwOp, cwField] at hrsv hop
    have hc : cwCtype cw < 2 ^ 4 := Nat.mod_lt _ (by decide)
    have hb : cwBits cw < 2 ^ 4 := Nat.mod_lt _ (by decide)
    have hl : cwBlklen cw < 2 ^ 16 := Nat.mod_lt _ (by decide)
    refine ⟨by simp only [Instr.wellFormed, hc, hb, hl, decide_true, Bool.and_self], BitVec.eq_of_toNat_eq ?_⟩
    rw [toNat_encode_pack hc hb hl]
    simp only [cwCtype, cwBits, cwBlklen, cwField]
    omega
  | fc =>
    obtain ⟨hrsv, hf, hop⟩ := decode_fc_eq_ok_iff.mp h
    simp only [cwRsv, cwOp, cwField] at hrsv hf hop
    obtain ⟨hop, rfl⟩ | ⟨hop, rfl⟩ := hop
    · exact ⟨rfl, BitVec.eq_of_toNat_eq (show 2 = cw.toNat by omega)⟩
    · exact ⟨rfl, BitVec.eq_of_toNat_eq (show 3 = cw.toNat by omega)⟩

/-- A word in the row of PACK has RSV 0 and OP 1: the mask keeps both fields whole. -/
theorem decode_pk_of_row {cw : Word} (h : cw &&& 0xFFFFFFFF000000FF = 0x1) :
    decode .pk cw = .ok (.pack (cwCtype cw) (cwBits cw) (cwBlklen cw)) := by
  have hrsv : cw.extractLsb' 32 32 = 0 := by
    have := congrArg (BitVec.extractLsb' 32 32) h
    rw [BitVec.extractLsb'_and] at this
    exact (BitVec.and_allOnes (x := cw.extractLsb' 32 32)).symm.trans this
  have hop : cw.extractLsb' 0 8 = 0x01 := by
    have := congrArg (BitVec.extractLsb' 0 8) h
    rw [BitVec.extractLsb'_and] at this
    exact (BitVec.and_allOnes (x := cw.extractLsb' 0 8)).symm.trans this
  exact decode_pk_eq_ok_iff.mpr ⟨cwRsv_eq_zero_iff.mpr hrsv, (cwOp_eq_iff (by decide)).mpr hop, rfl⟩

/-- An instruction that a word decodes to has that word's row in the opcode table. -/
theorem row_of_decode {u : UnitId} {cw : Word} {i : Instr} (h : decode u cw = .ok i) :
    cw &&& Laws.TableRow.mask i = Laws.TableRow.value i := by
  obtain ⟨-, hwf, rfl⟩ := decodeThenEncode u cw i h
  cases i with
  | pack c b l => exact Laws.TableRow.pack c b l hwf
  | f16ToF32 => exact Laws.TableRow.f16ToF32 hwf
  | f32ToF16 => exact Laws.TableRow.f32ToF16 hwf

/-- Settles O4: one direction is the row of the encoded word (`row_of_decode`), the other the fields the mask keeps. -/
theorem rowsOfOpcodeTable : Obligations.RowsOfOpcodeTable := by
  intro cw
  have hall : cw &&& 0xFFFFFFFFFFFFFFFF = cw := BitVec.and_allOnes
  refine ⟨⟨?_, fun h => ⟨_, _, _, decode_pk_of_row h⟩⟩, ⟨row_of_decode, ?_⟩, ⟨row_of_decode, ?_⟩, ?_⟩
  · rintro ⟨c, b, l, h⟩
    exact row_of_decode h
  · intro h
    rw [hall] at h
    exact h ▸ rfl
  · intro h
    rw [hall] at h
    exact h ▸ rfl
  · intro i j hi hj
    obtain ⟨-, hop, -⟩ := decode_pk_eq_ok_iff.mp hi
    obtain ⟨-, -, ⟨hop', -⟩ | ⟨hop', -⟩⟩ := decode_fc_eq_ok_iff.mp hj
    · omega
    · omega

/-- Settles O5: nine fixed words. -/
theorem specWordsDecode : Obligations.SpecWordsDecode := by
  refine ⟨?_, ?_, ?_, ?_, ?_, ?_, ?_, ?_, ?_⟩ <;> rfl

end Sys2Proof.Machine
end

section
/-! Registers and the port of a host: STATUS by fields (10_state.md R26), the accesses that reach a register (R33), and
what a read, a write of a descriptor and a write of STATUS do (42_host_protocol.md R161, R162). -/

namespace Sys2Proof.Machine

/-! ### What stays the same -/

theorem sameDescriptors_refl (s : State) : sameDescriptors s s := ⟨rfl, rfl, rfl, rfl, rfl, rfl, rfl⟩

theorem sameOutside_refl (s : State) : sameOutside s s := ⟨rfl, rfl, rfl, rfl⟩

theorem sameDescriptors_setUnit (s : State) (u : UnitId) (x : UnitState) : sameDescriptors s (s.setUnit u x) := by
  simp [sameDescriptors]

theorem sameOutside_setUnit (s : State) (u : UnitId) (x : UnitState) : sameOutside s (s.setUnit u x) := by
  simp [sameOutside]

theorem sameDescriptors_latchCommand (u : UnitId) (l : Latch) (s : State) : sameDescriptors s (latchCommand u l s) := by
  simp [sameDescriptors]

theorem sameOutside_latchCommand (u : UnitId) (l : Latch) (s : State) : sameOutside s (latchCommand u l s) := by
  simp [sameOutside]

theorem sameDescriptors_finish (u : UnitId) (s : State) : sameDescriptors s (finish u s) := by simp [sameDescriptors]

theorem sameOutside_finish (u : UnitId) (s : State) : sameOutside s (finish u s) := by simp [sameOutside]

theorem sameDescriptors.trans {r s t : State} (h : sameDescriptors r s) (k : sameDescriptors s t) : sameDescriptors r t := by
  obtain ⟨h1, h2, h3, h4, h5, h6, h7⟩ := h
  obtain ⟨k1, k2, k3, k4, k5, k6, k7⟩ := k
  exact ⟨k1.trans h1, k2.trans h2, k3.trans h3, k4.trans h4, k5.trans h5, k6.trans h6, k7.trans h7⟩

theorem sameOutside.trans {r s t : State} (h : sameOutside r s) (k : sameOutside s t) : sameOutside r t := by
  obtain ⟨h1, h2, h3, h4⟩ := h
  obtain ⟨k1, k2, k3, k4⟩ := k
  exact ⟨k1.trans h1, k2.trans h2, k3.trans h3, k4.trans h4⟩

/-! ### STATUS -/

@[simp] theorem readReg_statusReg (u : UnitId) (s : State) : readReg u.statusReg s = (s.unit u).statusWord := by
  cases u <;> rfl

theorem stateField_lt (p : Phase) : p.stateField < 4 := by cases p <;> simp [Phase.stateField]

theorem errField_lt (p : Phase) : p.errField < 16 := by
  cases p with
  | error e => cases e <;> decide
  | idle => decide
  | busy l => exact Nat.zero_lt_succ _
  | done => decide

theorem toNat_statusWord (x : UnitState) :
    x.statusWord.toNat = x.phase.stateField + x.phase.errField * 2 ^ 4 + x.ovr.toNat * 2 ^ 8 := by
  have := stateField_lt x.phase
  have := errField_lt x.phase
  have := x.ovr.toNat_le
  rw [UnitState.statusWord, BitVec.toNat_ofNat, Nat.mod_eq_of_lt (by omega)]

section statusWord
variable (x : UnitState)

theorem statusWord_state : x.statusWord.extractLsb' 0 2 = BitVec.ofNat 2 x.phase.stateField := by
  have := stateField_lt x.phase
  rw [← cwField_eq_iff this, cwField, toNat_statusWord]
  omega

theorem statusWord_err : x.statusWord.extractLsb' 4 4 = BitVec.ofNat 4 x.phase.errField := by
  have := stateField_lt x.phase
  have := errField_lt x.phase
  rw [← cwField_eq_iff this, cwField, toNat_statusWord]
  omega

theorem statusWord_ovr : x.statusWord.getLsbD 8 = x.ovr := by
  have := stateField_lt x.phase
  have := errField_lt x.phase
  rw [BitVec.getLsbD, Nat.testBit_eq_decide_div_mod_eq, toNat_statusWord]
  cases x.ovr <;> simp <;> omega

theorem statusWord_reserved : x.statusWord.extractLsb' 2 2 = 0 ∧ x.statusWord.extractLsb' 9 55 = 0 := by
  have := stateField_lt x.phase
  have := errField_lt x.phase
  have := x.ovr.toNat_le
  constructor
  · refine (cwField_eq_iff (n := 0) (by decide) _ _).mp ?_
    rw [cwField, toNat_statusWord]; omega
  · refine (cwField_eq_iff (n := 0) (by decide) _ _).mp ?_
    rw [cwField, toNat_statusWord]; omega

end statusWord

/-- STATUS of a unit that is BUSY: no code, OVR as it is. -/
theorem statusWord_of_busy {x : UnitState} {l : Latch} (h : x.phase = .busy l) :
    x.statusWord = BitVec.ofNat 64 (1 + 256 * x.ovr.toNat) := by
  simp [UnitState.statusWord, h, Phase.stateField, Phase.errField, Nat.mul_comm]

theorem stateField_ne_one {s : State} {u : UnitId} (hb : s.busy u = false) : (s.unit u).phase.stateField ≠ 1 := by
  cases hp : (s.unit u).phase with
  | busy l => simp [State.busy, State.latch, hp] at hb
  | idle => decide
  | done => decide
  | error e => exact Nat.succ_succ_ne_one 1

/-- Settles O12, from the fields of the word (`statusWord_state`, `statusWord_err`, `statusWord_ovr`). -/
theorem statusWordFields : Obligations.StatusWordFields := by
  intro s u
  dsimp only
  rw [readReg_statusReg, statusWord_state, statusWord_err, statusWord_ovr]
  obtain ⟨hlow, hhigh⟩ := statusWord_reserved (s.unit u)
  have hstate : ∀ p, (s.unit u).phase = p →
      BitVec.ofNat 2 (s.unit u).phase.stateField = BitVec.ofNat 2 p.stateField := fun _ h => by rw [h]
  have herr : ∀ p, (s.unit u).phase = p →
      BitVec.ofNat 4 (s.unit u).phase.errField = BitVec.ofNat 4 p.errField := fun _ h => by rw [h]
  have hnone : (∀ e, (s.unit u).phase ≠ .error e) → (s.unit u).phase.errField = 0 := fun h => by
    cases hp : (s.unit u).phase with
    | error e => exact absurd hp (h e)
    | _ => rfl
  exact ⟨hstate .idle, fun l => hstate (.busy l), hstate .done, fun e => hstate (.error e), herr (.error .opcode),
    herr (.error .bits), herr (.error .blklen), herr (.error .ctype), herr (.error .dimZero), herr (.error .overflow),
    fun h => by rw [hnone h]; rfl, rfl, hlow, hhigh⟩

/-! ### Reads and writes of a register -/

theorem act_wr (r : Reg) (v : Word) (i : Nat) (s : State) : act i (.wr r v) s = writeReg r v s := by
  simp [act, HostAction.wr]

theorem act_rd (r : Reg) (i : Nat) (s : State) :
    act i (.rd r) s = .next (s.observe i (.reg (BitVec.ofNat 7 r.offset) (readReg r s))) := by
  simp [act, HostAction.rd]

theorem writeReg_cmdReg (u : UnitId) (cw : Word) (s : State) : writeReg u.cmdReg cw s = command u cw s := by
  cases u <;> rfl

theorem writeReg_statusReg (u : UnitId) (v : Word) (s : State) :
    writeReg u.statusReg v s = .next (writeStatusReg u v s) := by cases u <;> rfl

theorem writeStatus_eq (x : UnitState) (v : Word) :
    x.writeStatus v = { phase := x.phase, ovr := x.ovr && !v.getLsbD 8 } := by
  unfold UnitState.writeStatus
  cases v.getLsbD 8 <;> simp

/-- Settles O10: one record update for each of the seven descriptors. -/
theorem descriptorWriteReadBack : Obligations.DescriptorWriteReadBack := by
  intro r v i s hr
  simp only [act_wr]
  simp only [List.mem_cons, List.not_mem_nil, or_false] at hr
  obtain rfl | rfl | rfl | rfl | rfl | rfl | rfl := hr
  all_goals
    refine ⟨_, rfl, rfl, fun r' hr' => ?_, rfl, rfl, rfl, sameOutside_refl s⟩
    cases r' <;> simp_all [readReg]

/-- Settles O11. -/
theorem registerReadOnlyObserves : Obligations.RegisterReadOnlyObserves := by
  refine ⟨fun r i s => act_rd r i s, fun r s hr => ?_⟩
  simp only [List.mem_cons, List.not_mem_nil, or_false] at hr
  obtain rfl | rfl | rfl | rfl | rfl | rfl | rfl := hr <;> rfl

/-- Settles O13, by the write of STATUS as one replacement of the unit (`writeStatus_eq`). -/
theorem statusWriteClearsOnlyOvr : Obligations.StatusWriteClearsOnlyOvr := by
  intro u v i s
  refine ⟨writeStatusReg u v s, by rw [act_wr, writeReg_statusReg], ?_, ?_, sameDescriptors_setUnit s u _, ?_,
    sameOutside_setUnit s u _⟩
  · rw [writeStatusReg, setUnit_unit, writeStatus_eq]
  · simp [writeStatusReg]
  · simp [writeStatusReg]

/-- Settles O14. -/
theorem reservedOffsetsInert : Obligations.ReservedOffsetsInert := by
  intro r v i s hr
  rw [act_wr]
  simp only [List.mem_cons, List.not_mem_nil, or_false] at hr
  obtain rfl | rfl | rfl | rfl | rfl := hr <;> rfl

theorem accessedReg_eq_none {off : BitVec 7} {bytes : Nat} (h : bytes ≠ 8 ∨ off.toNat % 8 ≠ 0) :
    accessedReg off bytes = none :=
  if_neg fun ⟨hbytes, hoff⟩ => h.elim (fun k => k hbytes) (fun k => k hoff)

/-- The block has 0x80 bytes, so the seven bits of an offset hold that of every register. -/
theorem toNat_offset (r : Reg) : (BitVec.ofNat 7 r.offset).toNat = r.offset := by cases r <;> rfl

/-- Settles O15. -/
theorem registerAccessShape : Obligations.RegisterAccessShape := by
  refine ⟨fun off bytes v i s h => ?_, fun off r => ⟨fun h => ?_, fun h => ?_⟩⟩
  · simp [act, accessedReg_eq_none h]
  · obtain ⟨-, rfl⟩ := accessedReg_bytes h
    exact toNat_offset r
  · have : off = BitVec.ofNat 7 r.offset := BitVec.eq_of_toNat_eq (h.trans (toNat_offset r).symm)
    rw [this, accessedReg_offset]

/-- Settles O46: both accesses go through `hostAccess`. -/
theorem badHostAddressStops : Obligations.BadHostAddressStops := by
  intro a bs n i s
  constructor
  · intro h; simp [act, hostAccess, h]
  · intro h; simp [act, hostAccess, h]

/-- Settles O47: the STATE field of a unit that is not BUSY is not 1. -/
theorem waitAnswersWhenNotBusy : Obligations.WaitAnswersWhenNotBusy := by
  intro s i u rest hq
  constructor
  · intro hb; simp [hostStep, hq, blocked, hb]
  · intro hb
    refine ⟨readReg u.statusReg s, ?_, rfl, ?_⟩
    · rw [readReg_statusReg, statusWord_state]
      have hlt := stateField_lt (s.unit u).phase
      have hne := stateField_ne_one hb
      intro h
      have := congrArg BitVec.toNat h
      rw [BitVec.toNat_ofNat] at this
      change _ = 1 at this
      omega
    · have hact : hostStep i s = act i (.wait u) (s.setProgram i rest) := by simp [hostStep, hq, blocked, hb]
      rw [hact, act, setProgram_unit, readReg_statusReg]
      rfl

end Sys2Proof.Machine
end

section
/-! Command issue: what the drop, the error entry and the latching leave alone, and from which phases a command is
accepted (42_host_protocol.md R163, R165; 60_exceptions.md R190, R191). -/

namespace Sys2Proof.Machine

@[simp] theorem dropCommand_unit (u : UnitId) (s : State) :
    (dropCommand u s).unit u = { phase := (s.unit u).phase, ovr := true } := by simp [dropCommand]

/-- A dropped command touches no latch. -/
@[simp] theorem dropCommand_latch (u v : UnitId) (s : State) : (dropCommand u s).latch v = s.latch v := by
  by_cases hv : v = u
  · subst hv; simp [State.latch]
  · exact latch_congr (setUnit_unit_of_ne s u _ hv)

@[simp] theorem raise_latch (u : UnitId) (e : ErrCode) (s : State) : (raise u e s).latch u = none := by simp [raise]

theorem raise_latch_of_ne {u v : UnitId} (e : ErrCode) (s : State) (h : v ≠ u) : (raise u e s).latch v = s.latch v :=
  setPhase_latch_of_ne s u _ h

/-- Settles O16: a drop is one replacement of the unit, and it comes before the word is looked at. -/
theorem commandWhileBusyOnlySetsOvr : Obligations.CommandWhileBusyOnlySetsOvr := by
  have hexec : ∀ (i : Instr) (s : State), s.busy i.unit = true → exec i s = .next (dropCommand i.unit s) :=
    fun i s hb => by rw [exec_eq_issue, issue_busy hb]
  refine ⟨fun u cw s hb => ⟨dropCommand u s, ?_, dropCommand_unit u s, ?_, sameDescriptors_setUnit s u _, ?_,
    sameOutside_setUnit s u _, ?_⟩, hexec⟩
  · cases hd : decode u cw with
    | ok i =>
      obtain rfl := unit_of_decode hd
      rw [command_of_decode hd, hexec i s hb]
    | error e => simp [command, hd, illegalCommand, hb]
  · simp [dropCommand]
  · simp [dropCommand]
  · simp [dropCommand]

/-- Settles O18. -/
theorem errorEntry : Obligations.ErrorEntry := fun u e s =>
  ⟨by simp [raise], by simp [raise], sameDescriptors_setUnit s u _, by simp [raise], sameOutside_setUnit s u _,
    by simp [raise], readReg_statusReg_raise u e s⟩

/-- What a command asks for, and its first failing check, depend on the descriptors alone (30_encoding.md R82). -/
theorem requested_congr {s t : State} (h : sameDescriptors s t) (i : Instr) : requested i t = requested i s := by
  obtain ⟨h1, h2, h3, h4, h5, h6, h7⟩ := h
  cases i <;> simp [requested, h1, h2, h3, h4, h5, h6, h7]

theorem firstError_congr {s t : State} (h : sameDescriptors s t) (i : Instr) : firstError i t = firstError i s := by
  obtain ⟨h1, h2, h3, h4, h5, h6, h7⟩ := h
  cases i <;> simp [firstError, h1, h2, h3, h4, h5, h6, h7]

/-- Settles O27: the issue of a command that passes its checks comes to `accept`. -/
theorem rangeNotMemoryRefused : Obligations.RangeNotMemoryRefused := by
  intro i s hb he hback
  rw [exec_eq_issue, he]
  simp only [Latch.backed] at hback
  simp [issue, hb, accept, hback]

@[simp] theorem setPhase_setPhase (s : State) (u : UnitId) (p q : Phase) : (s.setPhase u p).setPhase u q = s.setPhase u q := by
  simp [State.setPhase]

theorem setPhase_comm (s : State) (u : UnitId) (p q : Phase) :
    (s.setPhase u p).setPhase u.other q = (s.setPhase u.other q).setPhase u p := by cases u <;> rfl

theorem markClash_setPhase (u : UnitId) (l : Latch) (s : State) (p : Phase) :
    markClash u.other l (s.setPhase u p) = (markClash u.other l s).setPhase u p := by
  unfold markClash
  rw [setPhase_latch_other]
  cases s.latch u.other with
  | none => rfl
  | some l' =>
    simp only
    split
    · exact setPhase_comm s u p _
    · rfl

/-- A latched command leaves no trace of the phase its unit was in. -/
theorem latchCommand_setPhase (u : UnitId) (l : Latch) (s : State) (p : Phase) :
    latchCommand u l (s.setPhase u p) = latchCommand u l s := by
  have hclash : clashesWith u.other l (s.setPhase u p) = clashesWith u.other l s := by
    unfold clashesWith; rw [setPhase_latch_other]
  rw [latchCommand, latchCommand, markClash_setPhase, hclash, State.setLatch, setPhase_setPhase, State.setLatch]

/-- The issue to a unit in any phase without a latch is that to an IDLE one. -/
theorem issue_setPhase {u : UnitId} {p : Phase} (hp : p.latch = none) (err : Option ErrCode) (job : Job) (src dst : Nat)
    (s : State) : issue u err job src dst (s.setPhase u p) = issue u err job src dst (s.setPhase u .idle) := by
  have hfree : (s.setPhase u p).busy u = false := by simp [State.busy, hp]
  have hidle : (s.setPhase u .idle).busy u = false := by simp [State.busy]
  cases err with
  | some e => rw [issue_some hfree, issue_some hidle, raise, raise, setPhase_setPhase, setPhase_setPhase]
  | none =>
    simp [issue, hfree, hidle, accept, latchCommand_setPhase]

/-- Settles O25, by `issue_setPhase`: neither the checks nor the latching read the phase. -/
theorem issueFromAnyRestingState : Obligations.IssueFromAnyRestingState := by
  intro i s p q hp hq
  have hdesc : ∀ p, sameDescriptors s (s.setPhase i.unit p) := fun p => sameDescriptors_setUnit s _ _
  simp only [exec_eq_issue, firstError_congr (hdesc _), requested_congr (hdesc _), issue_setPhase hp, issue_setPhase hq]

/-- The other unit after a command is latched keeps its STATUS: marked or not, a BUSY unit stays BUSY. -/
theorem sameUnitButClash_latchCommand (u : UnitId) (l : Latch) (s : State) :
    sameUnitButClash u.other s (latchCommand u l s) := by
  obtain h | ⟨l', hl', -, h⟩ := latchCommand_other u l s
  · exact ⟨by rw [h], .inl (by rw [h])⟩
  · exact ⟨by rw [h], .inr ⟨l', hl', by rw [h]⟩⟩

theorem sameUnitButClash_of_unit_eq {u : UnitId} {s t : State} (h : t.unit u = s.unit u) : sameUnitButClash u s t :=
  ⟨by rw [h], .inl (by rw [h])⟩

theorem statusWord_of_sameUnitButClash {u : UnitId} {s t : State} (h : sameUnitButClash u s t) :
    readReg u.statusReg t = readReg u.statusReg s := by
  obtain ⟨hovr, hphase | ⟨l, hl, hphase⟩⟩ := h
  · simp [UnitState.statusWord, hovr, hphase]
  · rw [readReg_statusReg, readReg_statusReg, statusWord_of_busy hphase, statusWord_of_busy (latch_eq_some.mp hl), hovr]

/-- Settles O26: a drop, an error entry or a latching (`command_cases`), each with its frame. -/
theorem issueFrame : Obligations.IssueFrame := by
  intro u cw s t h
  obtain ⟨hb, rfl⟩ | ⟨-, e, rfl⟩ | ⟨-, i, -, -, -, rfl⟩ := command_cases h
  · have hother : sameUnitButClash u.other s (dropCommand u s) := sameUnitButClash_of_unit_eq (by simp [dropCommand])
    exact ⟨by simp [dropCommand], sameDescriptors_setUnit s u _, sameOutside_setUnit s u _, hother,
      statusWord_of_sameUnitButClash hother, fun hfree => by simp [hb] at hfree⟩
  · have hother : sameUnitButClash u.other s (raise u e s) := sameUnitButClash_of_unit_eq (by simp [raise])
    exact ⟨by simp [raise], sameDescriptors_setUnit s u _, sameOutside_setUnit s u _, hother,
      statusWord_of_sameUnitButClash hother, fun _ => by simp [raise]⟩
  · have hother := sameUnitButClash_latchCommand u (requested i s) s
    exact ⟨latchCommand_mem .., sameDescriptors_latchCommand .., sameOutside_latchCommand .., hother,
      statusWord_of_sameUnitButClash hother, fun _ => latchCommand_ovr ..⟩

end Sys2Proof.Machine
end

section
/-! Steps and turns (42_host_protocol.md R160, R171): whose turn it is, the step that runs a command, and the reset of
the core (70_reset_and_hazards.md R210, R211). -/

namespace Sys2Proof.Machine

/-! ### Reset -/

theorem readReg_eq_zero_of_reset {s : State} (hdesc : sameDescriptors State.reset s)
    (hunit : ∀ u, s.unit u = UnitState.reset) (r : Reg) : readReg r s = 0 := by
  obtain ⟨h1, h2, h3, h4, h5, h6, h7⟩ := hdesc
  have hpk : s.pk = UnitState.reset := hunit .pk
  have hfc : s.fc = UnitState.reset := hunit .fc
  cases r <;> simp only [readReg, h1, h2, h3, h4, h5, h6, h7, hpk, hfc] <;> rfl

/-- Settles O6. -/
theorem resetRegistersReadZero : Obligations.ResetRegistersReadZero :=
  ⟨readReg_eq_zero_of_reset (sameDescriptors_refl _) fun u => by cases u <;> rfl, fun u => by cases u <;> rfl⟩

/-- The reset changes no byte outside the destinations of the commands it abandons. -/
theorem coreReset_read {s : State} (hinv : Inv s) {x : Nat} (hx : ∀ u l, s.latch u = some l → l.inDst x = false) :
    (coreReset s).mem.read x = s.mem.read x := by
  have hend : ∀ u l, s.latch u = some l → l.dst + l.job.dstLen ≤ addressSpace := fun u l hl => (hinv.latch u l hl).dstEnd
  have hwf : (scrub .pk s).mem.wf := scrub_wf hinv.mem (hend .pk)
  rw [coreReset_mem, scrub_read hwf (by simpa using hend .fc) (by simpa using hx .fc),
    scrub_read hinv.mem (hend .pk) (hx .pk)]

/-- Settles O7. -/
theorem platformResetEffect : Obligations.PlatformResetEffect := by
  intro s i hinv
  refine ⟨coreReset s, rfl, ?_, coreReset_latch s, ?_, fun a ha => coreReset_read hinv ha⟩
  · exact readReg_eq_zero_of_reset (sameDescriptors_refl _) (coreReset_unit s)
  · simp [sameOutside]

/-! ### Whose turn it is -/

theorem step_of_nextAgent {s : State} {a : Agent} (h : nextAgent s = some a) : step s = agentStep a (tick s) := by
  simp [step, h]

/-- Who is named first in the schedule moves, if it has a step. -/
theorem nextAgent_of_turns {s : State} {a : Agent} {ts : List Agent} (hts : s.turns = a :: ts) (ha : a ∈ enabled s) :
    nextAgent s = some a := by
  unfold nextAgent
  split
  · next he => rw [he] at ha; cases ha
  · next b he => rw [he] at ha; rw [List.mem_singleton.mp ha]
  · simp [hts, ha]

theorem nextAgent_of_hostReady {s : State} {j : Nat} {ts : List Agent} (hts : s.turns = .host j :: ts)
    (hr : hostReady s j = true) : nextAgent s = some (.host j) :=
  nextAgent_of_turns hts (mem_enabled.mpr (.inl ⟨j, rfl, hr⟩))

/-- The step of a host whose next action writes a command word is `exec` of what the word decodes to. -/
theorem step_of_command {s : State} {j : Nat} {u : UnitId} {cw : Word} {rest : List HostAction} {i : Instr}
    (hn : nextAgent s = some (.host j)) (hq : s.hosts[j]? = some (.wr u.cmdReg cw :: rest)) (hd : decode u cw = .ok i) :
    step s = exec i ((tick s).setProgram j rest) := by
  have hstep : step s = act j (.wr u.cmdReg cw) ((tick s).setProgram j rest) := by
    simp [step_of_nextAgent hn, agentStep, hostStep, hq, blocked, HostAction.wr]
  rw [hstep, act_wr, writeReg_cmdReg, command_of_decode hd]

/-- Settles O48. -/
theorem stepRunsDecodedCommand : Obligations.StepRunsDecodedCommand :=
  ⟨fun _ _ _ _ _ _ hn hq hd => step_of_command hn hq hd, fun _ _ _ hts hr => nextAgent_of_hostReady hts hr⟩

/-- Settles O50. -/
theorem unitTurnCompletes : Obligations.UnitTurnCompletes := fun _ _ hn => step_of_nextAgent hn

theorem decode_of_decodeTableWord {nbits w : Nat} {i : Instr} (h : decodeTableWord nbits w = some i) :
    decode (unitOfWord (tableWord nbits w)) (tableWord nbits w) = .ok i := by
  unfold decodeTableWord at h
  split at h
  · next j hj => rw [hj, Option.some.inj h]
  · cases h

/-- The placed write is the first action of host 0, which is named first and ready. -/
theorem step_withFetchWord {s : State} {w : Nat} {i : Instr} (hd : decodeTableWord 64 w = some i)
    {rest : List HostAction}
    (hq : (placeCommand (tableWord 64 w) s.hosts)[0]? =
      some (.wr (unitOfWord (tableWord 64 w)).cmdReg (tableWord 64 w) :: rest)) :
    step (s.withFetchWord 64 w) =
      exec i { s with hosts := (placeCommand (tableWord 64 w) s.hosts).set 0 rest, draws := s.draws + 1 } := by
  have hready : hostReady (s.withFetchWord 64 w) 0 = true := hostReady_iff.mpr ⟨_, _, hq, rfl⟩
  exact step_of_command (nextAgent_of_hostReady rfl hready) hq (decode_of_decodeTableWord hd)

/-- Settles O49, by whether there is a host 0 whose program the write is put before. -/
theorem fetchWordRunsNext : Obligations.FetchWordRunsNext := by
  intro s w i hd
  cases hh : s.hosts with
  | nil => simpa [hh, placeCommand] using step_withFetchWord (s := s) (rest := []) hd (by simp [hh, placeCommand])
  | cons q qs => simpa [hh, placeCommand] using step_withFetchWord (s := s) (rest := q) hd (by simp [hh, placeCommand])

end Sys2Proof.Machine
end

section
/-! The invariant of the machine (`Inv`): it holds at reset, and everything a step can do keeps it. -/

namespace Sys2Proof.Machine

/-- Settles O8. -/
theorem invHoldsAtReset : Obligations.InvHoldsAtReset where
  mem := Memory.wf_nil
  latch u l hl := by cases u <;> cases hl
  clash l l' hl _ _ := by cases hl

/-- `Inv` speaks of memory, the platform and the latches alone. -/
theorem Inv.congr {s t : State} (h : Inv s) (hm : t.mem = s.mem) (hp : t.platform = s.platform)
    (hl : ∀ u, t.latch u = s.latch u) : Inv t where
  mem := hm ▸ h.mem
  latch u l hu := hp ▸ h.latch u l (hl u ▸ hu)
  clash l l' h1 h2 := h.clash l l' (hl .pk ▸ h1) (hl .fc ▸ h2)

/-- A unit gives up its latch, and memory stays canonical. -/
theorem Inv.drop_latch {s t : State} (h : Inv s) (u : UnitId) (hm : t.mem.wf) (hp : t.platform = s.platform)
    (hu : t.latch u = none) (hl : ∀ v, v ≠ u → t.latch v = s.latch v) : Inv t where
  mem := hm
  latch v l hv := by
    by_cases hvu : v = u
    · rw [hvu, hu] at hv; cases hv
    · exact hp ▸ h.latch v l (hl v hvu ▸ hv)
  clash l l' h1 h2 := by
    cases u
    · rw [hu] at h1; cases h1
    · rw [hu] at h2; cases h2

theorem Inv.tick {s : State} (h : Inv s) : Inv (tick s) := h.congr rfl rfl (tick_latch s)

theorem Inv.setProgram {s : State} (h : Inv s) (i : Nat) (rest : List HostAction) : Inv (s.setProgram i rest) :=
  h.congr rfl rfl (setProgram_latch s i rest)

theorem Inv.observe {s : State} (h : Inv s) (i : Nat) (r : Reading) : Inv (s.observe i r) :=
  h.congr rfl rfl (observe_latch s i r)

/-! ### Completion and reset -/

theorem finish_latch_of_ne {u v : UnitId} {s : State} (h : v ≠ u) : (finish u s).latch v = s.latch v :=
  latch_congr (finish_unit_of_ne h)

theorem finish_wf {s : State} (h : Inv s) (u : UnitId) : (finish u s).mem.wf := by
  cases hl : s.latch u with
  | none => rw [finish_of_none hl]; exact h.mem
  | some l => rw [finish_mem hl]; exact Memory.wf_fill h.mem (h.latch u l hl).dstEnd _

theorem Inv.finish {s : State} (h : Inv s) (u : UnitId) : Inv (finish u s) :=
  h.drop_latch u (finish_wf h u) (finish_platform u s) finish_latch fun _ hv => finish_latch_of_ne hv

theorem Inv.coreReset {s : State} (h : Inv s) : Inv (coreReset s) where
  mem := by
    have hend : ∀ u l, s.latch u = some l → l.dst + l.job.dstLen ≤ addressSpace := fun u l hl => (h.latch u l hl).dstEnd
    exact scrub_wf (scrub_wf h.mem (hend .pk)) (by simpa using hend .fc)
  latch u l hl := by simp at hl
  clash l l' hl := by simp at hl

/-! ### Accesses of hosts -/

theorem HostTouch.inv {s t : State} (h : Inv s) (k : HostTouch s t) (hm : t.mem.wf) : Inv t where
  mem := hm
  latch u l hl := by
    obtain ⟨l', hl', heq, hw, hc⟩ := k.latch hl
    have legal := h.latch u l' hl'
    rw [k.platform]
    rw [heq]
    exact ⟨legal.job, legal.srcEnd, legal.dstEnd, legal.srcValid, legal.dstValid,
      fun off ho => (hw off ho).elim (legal.written off) id, fun c hcm => (hc c hcm).elim (legal.seen c) id⟩
  clash l r hl hr hc := by
    obtain ⟨l', hl', heq, -, -⟩ := k.latch hl
    obtain ⟨r', hr', heq', -, -⟩ := k.latch hr
    rw [heq, heq'] at hc ⊢
    exact h.clash l' r' hl' hr' hc

/-- A host's range that is memory ends inside the address space, also an empty one. -/
theorem end_of_rangeValid_word {p : Platform} {a : Word} {n : Nat} (h : p.rangeValid a.toNat n = true) :
    a.toNat + n ≤ addressSpace := by
  by_cases hn : n = 0
  · subst hn; exact a.isLt.le
  · exact Platform.end_of_rangeValid h (Nat.pos_of_ne_zero hn)

/-! ### Commands -/

theorem castError_eq_none_iff {ssz dsz count src dst : Nat} :
    castError ssz dsz count src dst = none ↔
      dsz * count < addressSpace ∧ ssz * count < addressSpace ∧ src + ssz * count ≤ addressSpace ∧
        dst + dsz * count ≤ addressSpace := by
  unfold castError
  split
  · next h => simp only [reduceCtorEq, false_iff]; omega
  · next h => simp only [true_iff]; omega

theorem packError_eq_none {c b l n k src dst : Nat} (h : packError c b l n k src dst = none) :
    l ∈ Config.supportedBlklen ∧ 1 ≤ n ∧ 1 ≤ k ∧ kpad k l < addressSpace ∧ packSize n k l < addressSpace ∧
      src + packSize n k l ≤ addressSpace ∧ dst + packSize n k l ≤ addressSpace := by
  unfold packError at h
  split at h
  · cases h
  split at h
  · cases h
  next hl =>
  split at h
  · cases h
  split at h
  · cases h
  next hdim =>
  split at h
  · cases h
  next hover =>
  rw [packOverflows_iff] at hover
  exact ⟨not_not.mp hl, by omega⟩

/-- A command that passes its checks and is backed by memory may be latched at its unit. -/
theorem requested_legal {i : Instr} {s : State} (he : firstError i s = none)
    (hb : (requested i s).backed s.platform = true) : (requested i s).legal s.platform i.unit := by
  rw [Latch.backed, Bool.and_eq_true] at hb
  obtain ⟨hsrc, hdst⟩ := hb
  have hrecords : (∀ off ∈ (requested i s).written, off < (requested i s).job.dstLen) ∧
      ∀ c ∈ (requested i s).seen, (requested i s).inSrc c.1 = true := by simp
  cases i with
  | pack c b l =>
    obtain ⟨hl, hn, hk, hpad, hsize, hsend, hdend⟩ := packError_eq_none he
    exact ⟨⟨hl, hn, hk, hpad, hsize⟩, hsend, hdend, hsrc, hdst, hrecords.1, hrecords.2⟩
  | f16ToF32 =>
    obtain ⟨hsize, -, hsend, hdend⟩ := castError_eq_none_iff.mp he
    exact ⟨hsize, hsend, hdend, hsrc, hdst, hrecords.1, hrecords.2⟩
  | f32ToF16 =>
    obtain ⟨-, hsize, hsend, hdend⟩ := castError_eq_none_iff.mp he
    exact ⟨hsize, hsend, hdend, hsrc, hdst, hrecords.1, hrecords.2⟩

/-- A mark of conflict is no part of what makes a latch legal. -/
theorem Latch.legal.setClash {p : Platform} {u : UnitId} {l : Latch} (h : l.legal p u) (c : Bool) :
    Latch.legal p u { l with clash := c } :=
  ⟨h.job, h.srcEnd, h.dstEnd, h.srcValid, h.dstValid, h.written, h.seen⟩

/-- The running command of the other unit after a command is latched: as before, or marked where the two conflict. -/
theorem latchCommand_latch_other {u : UnitId} {l r : Latch} {s : State}
    (hr : (latchCommand u l s).latch u.other = some r) :
    ∃ r', s.latch u.other = some r' ∧ ((r = r' ∧ l.conflicts r' = false) ∨
      (r = { r' with clash := true } ∧ l.conflicts r' = true)) := by
  have hmark : (latchCommand u l s).latch u.other = (markClash u.other l s).latch u.other := by
    apply latch_congr; simp [latchCommand]
  rw [hmark] at hr
  unfold markClash at hr
  cases hl : s.latch u.other with
  | none => simp [hl] at hr
  | some r' =>
    simp only [hl] at hr
    split at hr
    · next hc => exact ⟨r', rfl, .inr ⟨by simpa using hr.symm, hc⟩⟩
    · next hc => exact ⟨r', rfl, .inl ⟨by rw [hl] at hr; exact (Option.some.inj hr).symm, by simpa using hc⟩⟩

/-- The latching of a legal command keeps the invariant: a conflict is marked in both latches at once. -/
theorem Inv.latchCommand {s : State} (h : Inv s) {u : UnitId} {l : Latch} (hl : l.legal s.platform u) :
    Inv (latchCommand u l s) := by
  have hmarked : ∀ r, (Machine.latchCommand u l s).latch u.other = some r → l.conflicts r = true →
      clashesWith u.other l s = true ∧ r.clash = true := by
    intro r hr hc
    obtain ⟨r', hr', ⟨rfl, hc'⟩ | ⟨rfl, hc'⟩⟩ := latchCommand_latch_other hr
    · rw [hc'] at hc; cases hc
    · exact ⟨by simp [clashesWith, hr', hc'], rfl⟩
  refine ⟨by simpa using h.mem, fun v r hr => ?_, fun a b ha hb hc => ?_⟩
  · rw [latchCommand_platform]
    by_cases hv : v = u
    · subst hv
      rw [latchCommand_latch] at hr
      exact Option.some.inj hr ▸ hl.setClash _
    · rw [UnitId.eq_other hv] at hr ⊢
      obtain ⟨r', hr', ⟨rfl, -⟩ | ⟨rfl, -⟩⟩ := latchCommand_latch_other hr
      · exact h.latch _ _ hr'
      · exact (h.latch _ _ hr').setClash _
  · cases u
    · rw [latchCommand_latch] at ha
      obtain rfl := Option.some.inj ha
      exact hmarked b hb hc
    · rw [latchCommand_latch] at hb
      obtain rfl := Option.some.inj hb
      exact (hmarked a ha (Latch.conflicts_comm a _ ▸ hc)).symm

theorem Inv.command {s t : State} (h : Inv s) {u : UnitId} {cw : Word} (hc : command u cw s = .next t) : Inv t := by
  obtain ⟨-, rfl⟩ | ⟨-, e, rfl⟩ | ⟨-, i, hd, he, hb, rfl⟩ := command_cases hc
  · exact h.congr (by simp [dropCommand]) (by simp [dropCommand]) fun v => dropCommand_latch u v s
  · exact h.drop_latch u (by simpa [raise] using h.mem) (by simp [raise]) (raise_latch u e s) fun _ hv => raise_latch_of_ne e s hv
  · exact h.latchCommand (unit_of_decode hd ▸ requested_legal he hb)

/-! ### Actions and steps -/

@[simp] theorem writeStatusReg_latch (u v : UnitId) (x : Word) (s : State) : (writeStatusReg u x s).latch v = s.latch v := by
  by_cases hv : v = u
  · subst hv; simp [State.latch, writeStatusReg, writeStatus_eq]
  · exact latch_congr (setUnit_unit_of_ne s u _ hv)

/-- The units after a write that changes only descriptors. -/
theorem unit_eq_of_fields {s t : State} (hpk : t.pk = s.pk) (hfc : t.fc = s.fc) (u : UnitId) : t.unit u = s.unit u := by
  cases u
  · exact hpk
  · exact hfc

theorem Inv.act {s t : State} (h : Inv s) {i : Nat} {x : HostAction} (ha : act i x s = .next t) : Inv t := by
  obtain ⟨r, v, rfl, hw⟩ | ⟨r, rfl, rfl⟩ | ⟨u, rfl, rfl⟩ | ⟨a, bs, rfl, hv, rfl⟩ | ⟨a, n, rfl, hv, rfl⟩ | ⟨rfl, rfl⟩ :=
    act_cases ha
  · obtain ⟨u, rfl, hc⟩ | ⟨u, rfl, rfl⟩ | ⟨hpk, hfc, hm, hp, -, -, -, -⟩ := writeReg_cases hw
    · exact h.command hc
    · exact h.congr (by simp [writeStatusReg]) (by simp [writeStatusReg]) fun w => writeStatusReg_latch u w v s
    · exact h.congr hm hp fun u => latch_congr (unit_eq_of_fields hpk hfc u)
  · exact h.observe _ _
  · exact h.observe _ _
  · exact (hostStoreAll_touch ..).inv h (hostStoreAll_wf h.mem (end_of_rangeValid_word hv))
  · exact ((hostLoadAll_touch ..).inv h (hostLoadAll_wf h.mem (end_of_rangeValid_word hv))).observe _ _
  · exact h.coreReset

theorem Inv.step {s t : State} (h : Inv s) (hs : step s = .next t) : Inv t := by
  obtain ⟨-, rfl⟩ | ⟨u, l, -, -, rfl⟩ | ⟨i, x, rest, -, -, -, ha⟩ := step_cases hs
  · exact h
  · exact h.tick.finish u
  · exact (h.tick.setProgram i rest).act ha

/-- Settles O9, by the cases of a step (`step_cases`) and of an action (`act_cases`). -/
theorem everyStepKeepsInv : Obligations.EveryStepKeepsInv := fun _ _ h hs => h.step hs

end Sys2Proof.Machine
end

section
/-! The layout of PACK (40_packer.md R101 to R103, R108, R109, R112): nibbles of bytes, the line length, `pos` and its
inverse, and the round trip. -/

namespace Sys2Proof.Machine

/-! ### Nibbles -/

section nibbles
variable {x y z : Byte}

theorem shiftRight_four_and (z : Byte) : (z >>> 4) &&& (0x0F : Byte) = z >>> 4 := by
  ext i hi; interval_cases i <;> simp

theorem shiftLeft_four_and (y : Byte) : (y <<< 4) &&& (0x0F : Byte) = 0#8 := by
  ext i hi; interval_cases i <;> simp

theorem shiftLeft_shiftRight_four (y : Byte) : (y <<< 4) >>> 4 = y &&& (0x0F : Byte) := by
  ext i hi; interval_cases i <;> simp

theorem and_shiftRight_four (x : Byte) : (x &&& (0x0F : Byte)) >>> 4 = 0#8 := by
  ext i hi; interval_cases i <;> simp

/-- A byte is its two nibbles. -/
theorem low_or_high (z : Byte) : (z &&& (0x0F : Byte)) ||| ((z >>> 4) <<< 4) = z := by
  ext i hi; interval_cases i <;> simp

theorem low_of_or (hx : x &&& (0x0F : Byte) = x) (y : Byte) : (x ||| (y <<< 4)) &&& (0x0F : Byte) = x := by
  have : (x ||| (y <<< 4)) &&& (0x0F : Byte) = (x &&& (0x0F : Byte)) ||| ((y <<< 4) &&& (0x0F : Byte)) := by
    ext i hi; simp only [BitVec.getElem_and, BitVec.getElem_or, Bool.and_or_distrib_right]
  rw [this, hx, shiftLeft_four_and, BitVec.or_zero]

theorem high_of_or (hx : x &&& (0x0F : Byte) = x) (hy : y &&& (0x0F : Byte) = y) : (x ||| (y <<< 4)) >>> 4 = y := by
  rw [BitVec.ushiftRight_or_distrib, shiftLeft_shiftRight_four, hy, ← hx, and_shiftRight_four, BitVec.zero_or]

end nibbles

theorem getNibble_even {b : Byte} {i : Nat} (h : i % 2 = 0) : getNibble b i = b &&& 0x0F :=
  if_neg (by omega)

theorem getNibble_odd {b : Byte} {i : Nat} (h : i % 2 = 1) : getNibble b i = b >>> 4 := if_pos h

/-- Which nibble is taken depends on the parity of the index alone. -/
theorem getNibble_congr {b : Byte} {i j : Nat} (h : i % 2 = j % 2) : getNibble b i = getNibble b j := by
  simp only [getNibble, h]

theorem getNibble_and (b : Byte) (i : Nat) : getNibble b i &&& 0x0F = getNibble b i := by
  unfold getNibble
  split
  · exact shiftRight_four_and b
  · rw [BitVec.and_assoc, BitVec.and_self]

/-! ### The interleaved byte (R102) -/

/-- The interleaved byte of position `i` of sub-block `s`. -/
theorem interleaved_eq (line : Nat) (rd : Nat → Nat → Byte) (n s : Nat) {i : Nat} (hi : i < 8) :
    interleaved line rd n (8 * s + i) =
      getNibble (rd 0 (n * line + 8 * s + i / 2)) i ||| (getNibble (rd 1 (n * line + 8 * s + i / 2 + 4)) i <<< 4) := by
  have hdiv : (8 * s + i) / 8 = s := by omega
  have hmod : (8 * s + i) % 8 = i := by omega
  have hlo : n * line + (16 * s + i) / 2 = n * line + 8 * s + i / 2 := by omega
  have hhi : n * line + (16 * s + i + 8) / 2 = n * line + 8 * s + i / 2 + 4 := by omega
  simp only [interleaved, elementByte, hdiv, hmod, hlo, hhi]
  rw [getNibble_congr (show (16 * s + i) % 2 = i % 2 by omega), getNibble_congr (show (16 * s + i + 8) % 2 = i % 2 by omega)]

/-- Settles O33. -/
theorem interleavedBytes : Obligations.InterleavedBytes := by
  intro line n s S
  dsimp only
  refine ⟨fun i hi => ?_, fun j hj => ⟨?_, ?_⟩⟩
  · rw [interleaved_eq _ _ _ _ hi, getNibble_congr (show (16 * s + i) % 2 = i % 2 by omega),
      getNibble_congr (show (16 * s + i + 8) % 2 = i % 2 by omega),
      show n * line + (16 * s + i) / 2 = n * line + 8 * s + i / 2 by omega,
      show n * line + (16 * s + i + 8) / 2 = n * line + 8 * s + i / 2 + 4 by omega]
  · rw [interleaved_eq _ _ _ _ (show 2 * j < 8 by omega), getNibble_even (by omega), getNibble_even (by omega),
      show 2 * j / 2 = j by omega, ← Nat.add_assoc]
    rfl
  · rw [Nat.add_assoc, interleaved_eq _ _ _ _ (show 2 * j + 1 < 8 by omega), getNibble_odd (by omega), getNibble_odd (by omega),
      show (2 * j + 1) / 2 = j by omega, ← Nat.add_assoc]

/-! ### Positions (R103, R108 (a)) -/

/-- A line is a whole number of sub-blocks. -/
theorem eight_dvd_ldb {k blklen : Nat} (h : blklen ∈ [16, 32, 64, 128]) : 8 ∣ ldb k blklen := by
  simp only [List.mem_cons, List.not_mem_nil, or_false] at h
  simp only [ldb, kpad, roundUp]
  generalize ceilDiv k blklen = c
  unfold ceilDiv
  obtain rfl | rfl | rfl | rfl := h <;> omega

section positions
variable {cols line n b off : Nat}

/-- The columns of one tile lie between those of the tiles before it and after it. -/
theorem tile_bounds (hb : b < line) :
    8 * (n / 8) * line ≤ 8 * (n / 8) * line + b * 8 + n % 8 ∧
      8 * (n / 8) * line + b * 8 + n % 8 < 8 * (n / 8 + 1) * line := by
  have : 8 * (n / 8 + 1) * line = 8 * (n / 8) * line + 8 * line := by ring
  omega

theorem packPos_tile (hn : n < tiledColumns cols) :
    packPos cols line n b = 8 * (n / 8) * line + b * 8 + n % 8 := if_pos hn

theorem packPos_tail (hn : ¬ n < tiledColumns cols) : packPos cols line n b = n * line + b := if_neg hn

theorem packCell_tile (h : off < tiledColumns cols * line) :
    packCell cols line off = (8 * (off / (8 * line)) + off % 8, off % (8 * line) / 8) := if_pos h

theorem packCell_tail (h : ¬ off < tiledColumns cols * line) : packCell cols line off = (off / line, off % line) :=
  if_neg h

/-- A tiled column lands in the tiled part of the buffer. -/
theorem packPos_lt_tile (hn : n < tiledColumns cols) (hb : b < line) : packPos cols line n b < tiledColumns cols * line := by
  rw [packPos_tile hn]
  have hq : n / 8 + 1 ≤ cols / 8 := by unfold tiledColumns at hn; omega
  exact (tile_bounds hb).2.trans_le (Nat.mul_le_mul_right _ (Nat.mul_le_mul_left 8 hq))

theorem tiledColumns_le (cols : Nat) : tiledColumns cols ≤ cols := by unfold tiledColumns; omega

theorem packPos_lt (hn : n < cols) (hb : b < line) : packPos cols line n b < cols * line := by
  by_cases ht : n < tiledColumns cols
  · exact (packPos_lt_tile ht hb).trans_le (Nat.mul_le_mul_right _ (tiledColumns_le cols))
  · rw [packPos_tail ht]
    calc n * line + b < n * line + line := by omega
      _ = (n + 1) * line := by ring
      _ ≤ cols * line := Nat.mul_le_mul_right _ hn

theorem packCell_packPos (hb : b < line) : packCell cols line (packPos cols line n b) = (n, b) := by
  by_cases ht : n < tiledColumns cols
  · rw [packCell_tile (packPos_lt_tile ht hb), packPos_tile ht]
    have hsplit : 8 * (n / 8) * line + b * 8 + n % 8 = (b * 8 + n % 8) + 8 * line * (n / 8) := by ring
    have hrem : b * 8 + n % 8 < 8 * line := by omega
    have hmod : (b * 8 + n % 8 + 8 * line * (n / 8)) % 8 = n % 8 := by
      rw [Nat.mul_assoc]; omega
    rw [hsplit, Nat.add_mul_div_left _ _ (by omega), Nat.add_mul_mod_self_left, Nat.div_eq_of_lt hrem,
      Nat.mod_eq_of_lt hrem, hmod]
    exact Prod.ext (by simp only; omega) (by simp only; omega)
  · rw [packPos_tail ht]
    have hge : ¬ n * line + b < tiledColumns cols * line :=
      not_lt.mpr (le_add_right (Nat.mul_le_mul_right _ (not_lt.mp ht)))
    rw [packCell_tail hge, Nat.mul_comm, Nat.mul_add_div (by omega), Nat.mul_add_mod, Nat.div_eq_of_lt hb,
      Nat.mod_eq_of_lt hb, Nat.add_zero]

/-- An offset in the tiled part lies in one of the tiles. -/
theorem div_lt_of_tile (hline : 0 < line) (h : off < tiledColumns cols * line) : off / (8 * line) < cols / 8 := by
  rw [Nat.div_lt_iff_lt_mul (by omega)]
  calc off < tiledColumns cols * line := h
    _ = cols / 8 * (8 * line) := by unfold tiledColumns; ring

theorem packCell_lt (hoff : off < cols * line) : (packCell cols line off).1 < cols ∧ (packCell cols line off).2 < line := by
  have hline : 0 < line := Nat.pos_of_mul_pos_left (Nat.zero_lt_of_lt hoff)
  by_cases ht : off < tiledColumns cols * line
  · rw [packCell_tile ht]
    have hq := div_lt_of_tile hline ht
    have hr : off % (8 * line) < 8 * line := Nat.mod_lt _ (by omega)
    exact ⟨by simp only; omega, by simp only; omega⟩
  · rw [packCell_tail ht]
    exact ⟨(Nat.div_lt_iff_lt_mul hline).mpr hoff, Nat.mod_lt _ hline⟩

theorem packPos_packCell (hoff : off < cols * line) :
    packPos cols line (packCell cols line off).1 (packCell cols line off).2 = off := by
  have hline : 0 < line := Nat.pos_of_mul_pos_left (Nat.zero_lt_of_lt hoff)
  by_cases ht : off < tiledColumns cols * line
  · rw [packCell_tile ht]
    have hq := div_lt_of_tile hline ht
    have hdm := Nat.div_add_mod off (8 * line)
    have hcol : (8 * (off / (8 * line)) + off % 8) / 8 = off / (8 * line) := by omega
    have hmod8 : off % (8 * line) % 8 = off % 8 := Nat.mod_mul_right_mod ..
    have hlin : 8 * (off / (8 * line)) * line = 8 * line * (off / (8 * line)) := by ring
    rw [packPos_tile (show 8 * (off / (8 * line)) + off % 8 < tiledColumns cols by unfold tiledColumns; omega), hcol, hlin]
    omega
  · have hq : tiledColumns cols ≤ off / line := (Nat.le_div_iff_mul_le hline).mpr (not_lt.mp ht)
    rw [packCell_tail ht, packPos_tail (not_lt.mpr hq), Nat.div_add_mod']

end positions

/-- Settles O34, from `packPos_lt`, `packCell_packPos`, `packCell_lt` and `packPos_packCell`. -/
theorem packPositionsBijection : Obligations.PackPositionsBijection := fun _ _ _ _ =>
  ⟨fun _ _ hn hb => ⟨packPos_lt hn hb, packCell_packPos hb⟩,
    fun _ hoff => ⟨(packCell_lt hoff).1, (packCell_lt hoff).2, packPos_packCell hoff⟩⟩

/-- What stands at the position of a cell is its interleaved byte. -/
theorem packByte_packPos {cols line n b : Nat} (hb : b < line) (rd : Nat → Nat → Byte) :
    packByte cols line rd (packPos cols line n b) = interleaved line rd n b := by
  rw [packByte, packCell_packPos hb]

/-! ### Nibble by nibble (R109) -/

/-- The two nibbles of an interleaved byte. -/
theorem interleaved_nibbles (line : Nat) (S : Nat → Byte) (n s : Nat) {i : Nat} (hi : i < 8) :
    interleaved line (fun _ x => S x) n (8 * s + i) &&& 0x0F = getNibble (S (n * line + 8 * s + i / 2)) i ∧
      interleaved line (fun _ x => S x) n (8 * s + i) >>> 4 = getNibble (S (n * line + 8 * s + i / 2 + 4)) i := by
  rw [interleaved_eq _ _ _ _ hi]
  exact ⟨low_of_or (getNibble_and _ _) _, high_of_or (getNibble_and _ _) (getNibble_and _ _)⟩

/-- A position inside a sub-block that begins inside a line lies inside it. -/
theorem subBlock_lt {k blklen s i : Nat} (h : blklen ∈ [16, 32, 64, 128]) (hs : 8 * s < ldb k blklen) (hi : i < 8) :
    8 * s + i < ldb k blklen := by
  obtain ⟨q, hq⟩ := eight_dvd_ldb (k := k) h
  omega

/-- Settles O35: the offsets written out are those of `packPos` for line offset `8s + i`. -/
theorem packNibbleByNibble : Obligations.PackNibbleByNibble := by
  intro cols k blklen n s i S hblk
  dsimp only
  intro hn hs hi
  have hpos : (if n < 8 * (cols / 8) then 8 * (n / 8) * ldb k blklen + 64 * s + 8 * i + n % 8
      else n * ldb k blklen + 8 * s + i) = packPos cols (ldb k blklen) n (8 * s + i) := by
    unfold packPos tiledColumns
    split <;> omega
  rw [hpos, packByte_packPos (subBlock_lt hblk hs hi)]
  obtain ⟨hlow, hhigh⟩ := interleaved_nibbles (ldb k blklen) S n s hi
  constructor
  · rw [hlow, getNibble_congr (show (16 * s + i) % 2 = i % 2 by omega),
      show n * ldb k blklen + (16 * s + i) / 2 = n * ldb k blklen + 8 * s + i / 2 by omega]
  · rw [hhigh, getNibble_congr (show (16 * s + i + 8) % 2 = i % 2 by omega),
      show n * ldb k blklen + (16 * s + i + 8) / 2 = n * ldb k blklen + 8 * s + i / 2 + 4 by omega]

/-! ### The round trip (R112) -/

section roundTrip
variable {cols k blklen : Nat}

/-- The elements of a packed buffer are the nibbles of the source. -/
theorem packedElement_packByte (h : blklen ∈ [16, 32, 64, 128]) (S : Nat → Byte) (n : Nat) {s m : Nat}
    (hs : 8 * s < ldb k blklen) (hm : m < 16) :
    packedElement cols (ldb k blklen) (packByte cols (ldb k blklen) fun _ x => S x) n s m =
      getNibble (S (n * ldb k blklen + 8 * s + m / 2)) m := by
  unfold packedElement packedAt
  split
  · next hlow =>
    rw [packByte_packPos (subBlock_lt h hs hlow), (interleaved_nibbles _ S n s hlow).1]
  · next hhigh =>
    obtain ⟨i, rfl⟩ : ∃ i, m = i + 8 := ⟨m - 8, by omega⟩
    have hi : i < 8 := by omega
    rw [show 8 * s + (i + 8) - 8 = 8 * s + i by omega, packByte_packPos (subBlock_lt h hs hi),
      (interleaved_nibbles _ S n s hi).2, getNibble_congr (show (i + 8) % 2 = i % 2 by omega),
      show n * ldb k blklen + 8 * s + (i + 8) / 2 = n * ldb k blklen + 8 * s + i / 2 + 4 by omega]

/-- The unpacked byte at offset `j` of a sub-block. -/
theorem unpackByte_eq (h : blklen ∈ [16, 32, 64, 128]) (P : Nat → Byte) (n : Nat) {s j : Nat}
    (hs : 8 * s < ldb k blklen) (hj : j < 8) :
    unpackByte cols (ldb k blklen) P (n * ldb k blklen + 8 * s + j) =
      packedElement cols (ldb k blklen) P n s (2 * j) ||| (packedElement cols (ldb k blklen) P n s (2 * j + 1) <<< 4) := by
  have hlt := subBlock_lt h hs hj
  have hdiv : (n * ldb k blklen + 8 * s + j) / ldb k blklen = n := by
    rw [Nat.add_assoc, Nat.mul_comm, Nat.mul_add_div (by omega), Nat.div_eq_of_lt hlt, Nat.add_zero]
  have hmod : (n * ldb k blklen + 8 * s + j) % ldb k blklen = 8 * s + j := by
    rw [Nat.add_assoc, Nat.mul_comm, Nat.mul_add_mod, Nat.mod_eq_of_lt hlt]
  have hsub : (n * ldb k blklen + 8 * s + j) % 8 = j := by
    obtain ⟨q, hq⟩ := eight_dvd_ldb (k := k) h
    rw [hq, Nat.mul_left_comm]; omega
  simp only [unpackByte, hdiv, hmod, hsub]
  rw [show (8 * s + j) / 8 = s by omega]

theorem packedElement_and (line : Nat) (P : Nat → Byte) (n s m : Nat) :
    packedElement cols line P n s m &&& 0x0F = packedElement cols line P n s m := by
  unfold packedElement
  split
  · rw [BitVec.and_assoc, BitVec.and_self]
  · exact shiftRight_four_and _

/-- The nibbles of an unpacked buffer are the elements of the packed one. -/
theorem getNibble_unpackByte (h : blklen ∈ [16, 32, 64, 128]) (P : Nat → Byte) (n : Nat) {s m : Nat}
    (hs : 8 * s < ldb k blklen) (hm : m < 16) :
    getNibble (unpackByte cols (ldb k blklen) P (n * ldb k blklen + 8 * s + m / 2)) m =
      packedElement cols (ldb k blklen) P n s m := by
  rw [unpackByte_eq h P n hs (show m / 2 < 8 by omega)]
  obtain hpar | hpar := Nat.mod_two_eq_zero_or_one m
  · rw [getNibble_even hpar, low_of_or (packedElement_and ..), show 2 * (m / 2) = m by omega]
  · rw [getNibble_odd hpar, high_of_or (packedElement_and ..) (packedElement_and ..), show 2 * (m / 2) + 1 = m by omega]

theorem unpackByte_packByte (h : blklen ∈ [16, 32, 64, 128]) (S : Nat → Byte) {off : Nat} (hoff : off < cols * ldb k blklen) :
    unpackByte cols (ldb k blklen) (fun o => packByte cols (ldb k blklen) (fun _ x => S x) o) off = S off := by
  have hline : 0 < ldb k blklen := Nat.pos_of_mul_pos_left (Nat.zero_lt_of_lt hoff)
  have hlt : off % ldb k blklen < ldb k blklen := Nat.mod_lt _ hline
  obtain ⟨n, s, j, rfl, hs, hj⟩ : ∃ n s j, off = n * ldb k blklen + 8 * s + j ∧ 8 * s < ldb k blklen ∧ j < 8 :=
    ⟨off / ldb k blklen, off % ldb k blklen / 8, off % ldb k blklen % 8,
      by have := Nat.div_add_mod' off (ldb k blklen); omega, by omega, by omega⟩
  rw [unpackByte_eq h _ n hs hj, packedElement_packByte h S n hs (by omega), packedElement_packByte h S n hs (by omega),
    getNibble_even (by omega), getNibble_odd (by omega), show 2 * j / 2 = j by omega, show (2 * j + 1) / 2 = j by omega,
    low_or_high]

theorem packByte_unpackByte (h : blklen ∈ [16, 32, 64, 128]) (P : Nat → Byte) {off : Nat} (hoff : off < cols * ldb k blklen) :
    packByte cols (ldb k blklen) (fun _ x => unpackByte cols (ldb k blklen) P x) off = P off := by
  obtain ⟨n, b, hb, rfl⟩ : ∃ n b, b < ldb k blklen ∧ off = packPos cols (ldb k blklen) n b :=
    ⟨_, _, (packCell_lt hoff).2, (packPos_packCell hoff).symm⟩
  obtain ⟨s, i, rfl, hi⟩ : ∃ s i, b = 8 * s + i ∧ i < 8 := ⟨b / 8, b % 8, by omega, by omega⟩
  have hlow := getNibble_unpackByte (cols := cols) h P n (show 8 * s < ldb k blklen by omega) (show i < 16 by omega)
  have hhigh := getNibble_unpackByte (cols := cols) h P n (show 8 * s < ldb k blklen by omega) (show i + 8 < 16 by omega)
  rw [show n * ldb k blklen + 8 * s + (i + 8) / 2 = n * ldb k blklen + 8 * s + i / 2 + 4 by omega,
    getNibble_congr (show (i + 8) % 2 = i % 2 by omega)] at hhigh
  rw [packByte_packPos hb, interleaved_eq _ _ _ _ hi, hlow, hhigh]
  rw [packedElement, if_pos hi, packedElement, if_neg (by omega), show 8 * s + (i + 8) - 8 = 8 * s + i by omega, low_or_high,
    packedAt]

end roundTrip

/-- Settles O36. -/
theorem packRoundTrip : Obligations.PackRoundTrip := fun _ _ _ _ S h hoff =>
  ⟨unpackByte_packByte h S hoff, packByte_unpackByte h S hoff⟩

end Sys2Proof.Machine
end

section
/-! Commands from issue to completion (42_host_protocol.md R163, R164): what a completion leaves in each byte, and what the
three commands write (40_packer.md R104, 41_formatcaster.md R131, R140). -/

namespace Sys2Proof.Machine

/-! ### What a completion leaves -/

section finish
variable {u : UnitId} {s : State} {l : Latch}

theorem finish_read (h : Inv s) (hl : s.latch u = some l) (x : Nat) :
    (finish u s).mem.read x =
      if l.inDst x = true then (finalByte s.mem l s.draws (x - l.dst)).getD (s.mem.read x) else s.mem.read x := by
  rw [finish_mem hl, Memory.read_fill h.mem (h.latch u l hl).dstEnd]
  simp only [Latch.inDst_iff]

theorem finish_read_of_not_inDst (h : Inv s) (hl : s.latch u = some l) {x : Nat} (hx : l.inDst x = false) :
    (finish u s).mem.read x = s.mem.read x := by simp [finish_read h hl, hx]

theorem Latch.inDst_add {off : Nat} (hoff : off < l.job.dstLen) : l.inDst (l.dst + off) = true :=
  Latch.inDst_iff.mpr ⟨by omega, by omega⟩

theorem Latch.inSrc_add {off : Nat} (hoff : off < l.job.srcLen) : l.inSrc (l.src + off) = true :=
  Latch.inSrc_iff.mpr ⟨by omega, by omega⟩

theorem finish_read_dst (h : Inv s) (hl : s.latch u = some l) {off : Nat} (hoff : off < l.job.dstLen) :
    (finish u s).mem.read (l.dst + off) = (finalByte s.mem l s.draws off).getD (s.mem.read (l.dst + off)) := by
  rw [finish_read h hl, if_pos (Latch.inDst_add hoff), Nat.add_sub_cancel_left]

/-- An undisturbed command leaves its operation's function of the source bytes. -/
theorem finish_read_of_calm (h : Inv s) (hl : s.latch u = some l) (hc : l.calm) {off : Nat} (hoff : off < l.job.dstLen) :
    (finish u s).mem.read (l.dst + off) = destByte l.job (fun _ x => s.mem.read (l.src + x)) off := by
  rw [finish_read_dst h hl hoff, finalByte_of_undisturbed hc.clash hc.written hc.seen hc.apart, Option.getD_some]

/-- `finish_unit` with both fields written out. -/
theorem finish_unit_done (hl : s.latch u = some l) : (finish u s).unit u = { phase := .done, ovr := (s.unit u).ovr } :=
  finish_unit hl

end finish

/-- Settles O31, by what a completion leaves alone. -/
theorem completionFrame : Obligations.CompletionFrame := fun u _ s h hl =>
  ⟨finish_unit_done hl, finish_unit_of_ne (UnitId.other_ne u), sameDescriptors_finish u s, sameOutside_finish u s,
    fun _ ha => finish_read_of_not_inDst h hl ha⟩

/-! ### A command that is accepted -/

/-- `t` is `s` with the command `cmd` latched at `u` and nothing else changed, and the completion of `u` from `t` writes
the destination of `cmd` and nothing else. -/
structure CommandRuns (u : UnitId) (cmd : Latch) (s t : State) : Prop where
  latch : t.latch u = some { cmd with clash := clashesWith u.other cmd s }
  ovr : (t.unit u).ovr = (s.unit u).ovr
  status : readReg u.statusReg t = BitVec.ofNat 64 (1 + 256 * (s.unit u).ovr.toNat)
  other : sameUnitButClash u.other s t
  other_of_no_clash : clashesWith u.other cmd s = false → t.unit u.other = s.unit u.other
  mem : t.mem = s.mem
  descriptors : sameDescriptors s t
  outside : sameOutside s t
  done : (finish u t).unit u = { phase := .done, ovr := (s.unit u).ovr }
  finish_other : (finish u t).unit u.other = t.unit u.other
  finish_descriptors : sameDescriptors s (finish u t)
  finish_outside : sameOutside s (finish u t)
  result : cmd.selfOverlap = false → clashesWith u.other cmd s = false → ∀ off, off < cmd.job.dstLen →
    (finish u t).mem.read (cmd.dst + off) = destByte cmd.job (fun _ x => s.mem.read (cmd.src + x)) off
  frame : ∀ a, cmd.inDst a = false → (finish u t).mem.read a = s.mem.read a

/-- Where the commands do not conflict the other unit is not marked. -/
theorem latchCommand_other_of_no_clash {u : UnitId} {l : Latch} {s : State} (h : clashesWith u.other l s = false) :
    (latchCommand u l s).unit u.other = s.unit u.other := by
  obtain hsame | ⟨l', hl', hc, -⟩ := latchCommand_other u l s
  · exact hsame
  · simp [clashesWith, hl', hc] at h

theorem commandRuns_latchCommand {u : UnitId} {job : Job} {src dst : Nat} {s : State} (hinv : Inv s)
    (hlegal : (Latch.fresh job src dst).legal s.platform u) :
    CommandRuns u (Latch.fresh job src dst) s (latchCommand u (Latch.fresh job src dst) s) where
  latch := latchCommand_latch ..
  ovr := latchCommand_ovr ..
  status := by
    rw [readReg_statusReg, statusWord_of_busy (latch_eq_some.mp (latchCommand_latch ..)), latchCommand_ovr]
  other := sameUnitButClash_latchCommand ..
  other_of_no_clash := latchCommand_other_of_no_clash
  mem := latchCommand_mem ..
  descriptors := sameDescriptors_latchCommand ..
  outside := sameOutside_latchCommand ..
  done := by rw [finish_unit_done (latchCommand_latch ..), latchCommand_ovr]
  finish_other := finish_unit_of_ne (UnitId.other_ne u)
  finish_descriptors := (sameDescriptors_latchCommand ..).trans (sameDescriptors_finish ..)
  finish_outside := (sameOutside_latchCommand ..).trans (sameOutside_finish ..)
  result := fun hapart hclash off hoff => by
    have hcalm : Latch.calm { Latch.fresh job src dst with clash := clashesWith u.other (Latch.fresh job src dst) s } :=
      ⟨hclash, rfl, rfl, hapart⟩
    have hread := finish_read_of_calm (hinv.latchCommand hlegal) (latchCommand_latch ..) hcalm hoff
    rwa [latchCommand_mem] at hread
  frame := fun a ha => by
    rw [finish_read_of_not_inDst (hinv.latchCommand hlegal) (latchCommand_latch ..) ha, latchCommand_mem]

/-- A command that passes its checks, over ranges that are memory, runs. -/
theorem exec_runs {i : Instr} {s : State} (hinv : Inv s) (hb : s.busy i.unit = false) (he : firstError i s = none)
    (hback : (requested i s).backed s.platform = true) :
    ∃ t, exec i s = .next t ∧ CommandRuns i.unit (requested i s) s t := by
  have hlegal := requested_legal he hback
  rw [Latch.backed, Bool.and_eq_true] at hback
  rw [← requested_eq_fresh] at hlegal ⊢
  exact ⟨_, by rw [exec_eq_issue, he, issue_none hb hback.1 hback.2], commandRuns_latchCommand hinv hlegal⟩

/-! ### PACK -/

/-- Settles O28: the command runs (`exec_runs`), and the byte at `pos(n, b)` is the interleaved byte of its cell. -/
theorem packCompletes : Obligations.PackCompletes := by
  intro l s hinv hb hl n k src dst line cmd hn hk hpad hsize hsend hdend hsrc hdst
  have he : firstError (.pack 1 4 l) s = none := by
    have hdim : ¬ (n = 0 ∨ k = 0) := by omega
    have hfit : ¬ packOverflows n k src dst l = true := by
      rw [packOverflows_iff]
      change ¬ (2 ^ 64 ≤ kpad k l ∨ 2 ^ 64 ≤ n * line ∨ 2 ^ 64 < src + n * line ∨ 2 ^ 64 < dst + n * line)
      omega
    exact (packError_supported hl).trans ((if_neg hdim).trans (if_neg hfit))
  have hback : (requested (.pack 1 4 l) s).backed s.platform = true := Bool.and_eq_true _ _ ▸ ⟨hsrc, hdst⟩
  obtain ⟨t, ht, hruns⟩ := exec_runs (i := .pack 1 4 l) hinv hb he hback
  refine ⟨t, ht, hruns.latch, hruns.ovr, hruns.status, hruns.other, hruns.other_of_no_clash, hruns.mem, hruns.descriptors,
    hruns.outside, hruns.done, hruns.finish_other, hruns.finish_descriptors, hruns.finish_outside, ?_,
    fun a ha => hruns.frame a (inRange_eq_false.mpr ha)⟩
  intro hapart hclash c b hc hbl
  have hbyte : packByte n line (fun _ x => s.mem.read (src + x)) (packPos n line c b) =
      interleaved line (fun _ x => s.mem.read (src + x)) c b := packByte_packPos hbl _
  have hcell := interleaved_eq line (fun _ x => s.mem.read (src + x)) c (b / 8) (Nat.mod_lt b (by decide : 0 < 8))
  rw [Nat.div_add_mod] at hcell
  refine (hruns.result hapart hclash _ (packPos_lt hc hbl)).trans (hbyte.trans (hcell.trans ?_))
  rw [getNibble_congr (show (b % 8 + 8) % 2 = b % 8 % 2 by omega)]
  simp only [Nat.add_assoc]

/-! ### The conversions -/

theorem join2_byteOf (v : Half) : join2 (byteOf v 0) (byteOf v 1) = v := by
  unfold join2 byteOf
  rw [BitVec.extractLsb'_append_extractLsb'_eq_extractLsb' (by decide)]
  exact BitVec.extractLsb'_eq_self

theorem join4_byteOf (v : Single) : join4 (byteOf v 0) (byteOf v 1) (byteOf v 2) (byteOf v 3) = v := by
  unfold join4 byteOf
  rw [BitVec.extractLsb'_append_extractLsb'_eq_extractLsb' (by decide),
    BitVec.extractLsb'_append_extractLsb'_eq_extractLsb' (by decide),
    BitVec.extractLsb'_append_extractLsb'_eq_extractLsb' (by decide)]
  exact BitVec.extractLsb'_eq_self

theorem widenByte_eq (rd : Nat → Nat → Byte) (i : Nat) {j : Nat} (hj : j < 4) :
    widenByte rd (4 * i + j) = byteOf (widen (join2 (rd 0 (2 * i)) (rd 1 (2 * i + 1)))) j := by
  simp only [widenByte, show (4 * i + j) / 4 = i by omega, show (4 * i + j) % 4 = j by omega]

theorem narrowByte_eq (rd : Nat → Nat → Byte) (i : Nat) {j : Nat} (hj : j < 2) :
    narrowByte rd (2 * i + j) =
      byteOf (narrow (join4 (rd 0 (4 * i)) (rd 1 (4 * i + 1)) (rd 2 (4 * i + 2)) (rd 3 (4 * i + 3)))) j := by
  simp only [narrowByte, show (2 * i + j) / 2 = i by omega, show (2 * i + j) % 2 = j by omega]

section elements
variable {m m' : Memory} {src dst n i : Nat}

/-- Four widened bytes in a row are one widened element. -/
theorem read4_of_widenByte
    (h : ∀ off, off < 4 * n → m'.read (dst + off) = widenByte (fun _ x => m.read (src + x)) off) (hi : i < n) :
    m'.read4 (dst + 4 * i) = widen (m.read2 (src + 2 * i)) := by
  have hbyte : ∀ j, j < 4 → m'.read (dst + 4 * i + j) = byteOf (widen (m.read2 (src + 2 * i))) j := fun j hj => by
    rw [Nat.add_assoc, h _ (by omega), widenByte_eq _ i hj]; rfl
  rw [Memory.read4, hbyte 1 (by decide), hbyte 2 (by decide), hbyte 3 (by decide), ← Nat.add_zero (dst + 4 * i),
    hbyte 0 (by decide), join4_byteOf]

/-- Two narrowed bytes in a row are one narrowed element. -/
theorem read2_of_narrowByte
    (h : ∀ off, off < 2 * n → m'.read (dst + off) = narrowByte (fun _ x => m.read (src + x)) off) (hi : i < n) :
    m'.read2 (dst + 2 * i) = narrow (m.read4 (src + 4 * i)) := by
  have hbyte : ∀ j, j < 2 → m'.read (dst + 2 * i + j) = byteOf (narrow (m.read4 (src + 4 * i))) j := fun j hj => by
    rw [Nat.add_assoc, h _ (by omega), narrowByte_eq _ i hj]; rfl
  rw [Memory.read2, hbyte 1 (by decide), ← Nat.add_zero (dst + 2 * i), hbyte 0 (by decide), join2_byteOf]

end elements

/-- Settles O29: the command runs (`exec_runs`), and its bytes make up the widened elements. -/
theorem f16ToF32Completes : Obligations.F16ToF32Completes := by
  intro s hinv hb n src dst cmd hsize hsend hdend hsrc hdst
  have hfit : 4 * n < 2 ^ 64 ∧ 2 * n < 2 ^ 64 ∧ src + 2 * n ≤ 2 ^ 64 ∧ dst + 4 * n ≤ 2 ^ 64 := by omega
  have he : firstError .f16ToF32 s = none := castError_eq_none_iff.mpr hfit
  have hback : (requested .f16ToF32 s).backed s.platform = true := Bool.and_eq_true _ _ ▸ ⟨hsrc, hdst⟩
  obtain ⟨t, ht, hruns⟩ := exec_runs (i := .f16ToF32) hinv hb he hback
  exact ⟨t, ht, hruns.latch, hruns.ovr, hruns.status, hruns.other, hruns.other_of_no_clash, hruns.mem, hruns.descriptors,
    hruns.outside, hruns.done, hruns.finish_other, hruns.finish_descriptors, hruns.finish_outside,
    fun hapart hclash i hi => read4_of_widenByte (hruns.result hapart hclash) hi,
    fun a ha => hruns.frame a (inRange_eq_false.mpr ha)⟩

/-- Settles O30: the command runs (`exec_runs`), and its bytes make up the narrowed elements. -/
theorem f32ToF16Completes : Obligations.F32ToF16Completes := by
  intro s hinv hb n src dst cmd hsize hsend hdend hsrc hdst
  have hfit : 2 * n < 2 ^ 64 ∧ 4 * n < 2 ^ 64 ∧ src + 4 * n ≤ 2 ^ 64 ∧ dst + 2 * n ≤ 2 ^ 64 := by omega
  have he : firstError .f32ToF16 s = none := castError_eq_none_iff.mpr hfit
  have hback : (requested .f32ToF16 s).backed s.platform = true := Bool.and_eq_true _ _ ▸ ⟨hsrc, hdst⟩
  obtain ⟨t, ht, hruns⟩ := exec_runs (i := .f32ToF16) hinv hb he hback
  exact ⟨t, ht, hruns.latch, hruns.ovr, hruns.status, hruns.other, hruns.other_of_no_clash, hruns.mem, hruns.descriptors,
    hruns.outside, hruns.done, hruns.finish_other, hruns.finish_descriptors, hruns.finish_outside,
    fun hapart hclash i hi => read2_of_narrowByte (hruns.result hapart hclash) hi,
    fun a ha => hruns.frame a (inRange_eq_false.mpr ha)⟩

theorem Inv.with_mem {s : State} (h : Inv s) {m : Memory} (hm : m.wf) : Inv { s with mem := m } :=
  ⟨hm, fun u l hl => h.latch u l (mem_latch s m u ▸ hl), fun l l' hl hl' => h.clash l l' hl hl'⟩

/-- Settles O32: the element written is the conversion of the source element alone. -/
theorem elementsIndependent : Obligations.ElementsIndependent := by
  intro s m l i hinv hm hl hcalm
  have hl' : ({ s with mem := m } : State).latch .fc = some l := hl
  have hread : ∀ off, off < l.job.dstLen →
      (finish .fc s).mem.read (l.dst + off) = destByte l.job (fun _ x => s.mem.read (l.src + x)) off :=
    fun off => finish_read_of_calm hinv hl hcalm
  have hread' : ∀ off, off < l.job.dstLen →
      (finish .fc { s with mem := m }).mem.read (l.dst + off) = destByte l.job (fun _ x => m.read (l.src + x)) off :=
    fun off => finish_read_of_calm (hinv.with_mem hm) hl' hcalm
  constructor
  · intro n hjob hi hagree
    rw [hjob] at hread hread'
    rw [read4_of_widenByte hread hi, read4_of_widenByte hread' hi, hagree]
  · intro n hjob hi hagree
    rw [hjob] at hread hread'
    rw [read2_of_narrowByte hread hi, read2_of_narrowByte hread' hi, hagree]

end Sys2Proof.Machine
end

section
/-! Accesses of hosts to memory, also while units are BUSY (93_implementation_defined.md U4; 70_reset_and_hazards.md R214,
R215): what loads and stores leave in memory, and what they put on record in the latches. -/

namespace Sys2Proof.Machine

/-! ### Running ranges -/

/-- The byte at `x` is in the destination range of a BUSY unit. -/
def State.inRunningDst (s : State) (x : Nat) : Prop := ∃ u l, s.latch u = some l ∧ l.inDst x = true

theorem not_inRunningDst {s : State} {x : Nat} : ¬ s.inRunningDst x ↔ ∀ u l, s.latch u = some l → l.inDst x = false := by
  simp [State.inRunningDst]

/-- Accesses of hosts do not move the running ranges. -/
theorem HostTouch.inRunningDst {s t : State} (k : HostTouch s t) {x : Nat} (h : t.inRunningDst x) : s.inRunningDst x := by
  obtain ⟨u, l, hl, hx⟩ := h
  obtain ⟨l', hl', heq, -, -⟩ := k.latch hl
  rw [heq] at hx
  exact ⟨u, l', hl', hx⟩

/-- Two running commands that are not marked are apart. -/
theorem not_conflicts_of_not_clash {s : State} (h : Inv s) {u v : UnitId} (hv : v ≠ u) {l r : Latch} (hl : s.latch u = some l)
    (hr : s.latch v = some r) (hc : l.clash = false) : l.conflicts r = false := by
  rw [← Bool.not_eq_true]
  intro hconf
  cases u
  · rw [UnitId.eq_other hv] at hr
    simp [(h.clash l r hl hr hconf).1] at hc
  · rw [UnitId.eq_other hv] at hr
    simp [(h.clash r l hr hl (Latch.conflicts_comm l r ▸ hconf)).2] at hc

section conflicts
variable {l r : Latch} {x : Nat} (h : l.conflicts r = false)
include h

/-- Commands that do not conflict: no byte is in a destination and in a range of the other command. -/
theorem inDst_of_not_conflicts (hx : l.inDst x = true) : r.inDst x = false ∧ r.inSrc x = false := by
  simp only [Latch.conflicts, Bool.or_eq_false_iff, overlaps_eq_false] at h
  obtain ⟨⟨hsrc, hdst⟩, -⟩ := h
  obtain ⟨h1, h2⟩ := Latch.inDst_iff.mp hx
  exact ⟨inRange_eq_false.mpr (hdst x h1 h2), inRange_eq_false.mpr (hsrc x h1 h2)⟩

theorem inSrc_of_not_conflicts (hx : l.inSrc x = true) : r.inDst x = false := by
  simp only [Latch.conflicts, Bool.or_eq_false_iff, overlaps_eq_false] at h
  obtain ⟨h1, h2⟩ := Latch.inSrc_iff.mp hx
  exact inRange_eq_false.mpr (h.2 x h1 h2)

end conflicts

theorem inDst_of_apart {l : Latch} (h : l.selfOverlap = false) {x : Nat} (hx : l.inSrc x = true) : l.inDst x = false := by
  obtain ⟨h1, h2⟩ := Latch.inSrc_iff.mp hx
  exact inRange_eq_false.mpr (overlaps_eq_false.mp h x h1 h2)

/-- The source bytes of a command that keeps R216 and R217 are in no running destination. -/
theorem src_not_inRunningDst {s : State} (h : Inv s) {u : UnitId} {l : Latch} (hl : s.latch u = some l)
    (hc : l.clash = false) (ho : l.selfOverlap = false) {x : Nat} (hx : l.inSrc x = true) : ¬ s.inRunningDst x := by
  rw [not_inRunningDst]
  intro v r hr
  by_cases hv : v = u
  · subst hv
    obtain rfl : l = r := Option.some.inj (hl.symm.trans hr)
    exact inDst_of_apart ho hx
  · exact inSrc_of_not_conflicts (not_conflicts_of_not_clash h hv hl hr hc) hx

/-! ### Registers -/

theorem HostTouch.fields {s t : State} (k : HostTouch s t) (u : UnitId) :
    (t.unit u).phase.stateField = (s.unit u).phase.stateField ∧ (t.unit u).phase.errField = (s.unit u).phase.errField := by
  obtain h | ⟨l, w, c, hl, h, -, -⟩ := k.phase u
  · rw [h]; exact ⟨rfl, rfl⟩
  · rw [h, latch_eq_some.mp hl]; exact ⟨rfl, rfl⟩

theorem HostTouch.readReg {s t : State} (k : HostTouch s t) (r : Reg) : readReg r t = readReg r s := by
  have hstatus : ∀ u, (t.unit u).statusWord = (s.unit u).statusWord := fun u => by
    obtain ⟨hstate, herr⟩ := k.fields u
    rw [UnitState.statusWord, UnitState.statusWord, hstate, herr, k.ovr]
  cases r
  case pkN => exact k.pkN
  case pkK => exact k.pkK
  case pkSrc => exact k.pkSrc
  case pkDst => exact k.pkDst
  case fcCount => exact k.fcCount
  case fcSrc => exact k.fcSrc
  case fcDst => exact k.fcDst
  case pkStatus => exact hstatus .pk
  case fcStatus => exact hstatus .fc
  all_goals rfl

theorem HostTouch.sameOutside {s t : State} (k : HostTouch s t) : sameOutside s t :=
  ⟨k.platform, k.hosts, k.observed, k.turns⟩

theorem readReg_observe (s : State) (i : Nat) (x : Reading) (r : Reg) : readReg r (s.observe i x) = readReg r s := by
  cases r <;> rfl

/-! ### Stores -/

/-- After a host's store its bytes read as stored, and every other byte as before. -/
theorem hostStoreAll_read {a : Nat} {bs : List Byte} {s : State} (hm : s.mem.wf) (ha : a + bs.length ≤ addressSpace) (x : Nat) :
    (hostStoreAll a bs s).mem.read x = if a ≤ x ∧ x < a + bs.length then bs.getD (x - a) 0 else s.mem.read x := by
  induction bs generalizing a s with
  | nil => simp [hostStoreAll, show ¬ (a ≤ x ∧ x < a) by omega]
  | cons b bs ih =>
    rw [List.length_cons] at ha ⊢
    rw [hostStoreAll, ih (hostStore_wf hm (by omega) b) (by omega), hostStore_read hm (by omega)]
    by_cases hx : a + 1 ≤ x ∧ x < a + 1 + bs.length
    · obtain ⟨j, rfl⟩ : ∃ j, x = a + 1 + j := ⟨x - (a + 1), by omega⟩
      rw [if_pos hx, if_pos (by omega), show a + 1 + j - a = j + 1 by omega, List.getD_cons_succ, Nat.add_sub_cancel_left]
    · rw [if_neg hx]
      by_cases hxa : x = a
      · subst hxa; simp
      · rw [if_neg hxa, if_neg (by omega)]

theorem act_memWrite {a : Word} {bs : List Byte} {i : Nat} {s : State} (h : s.platform.rangeValid a.toNat bs.length = true) :
    act i (.memWrite a bs) s = .next (hostStoreAll a.toNat bs s) := by simp [act, hostAccess, h]

theorem act_memRead {a : Word} {n i : Nat} {s : State} (h : s.platform.rangeValid a.toNat n = true) :
    act i (.memRead a n) s =
      .next ((hostLoadAll a.toNat n s).1.observe i (.mem a (hostLoadAll a.toNat n s).2)) := by simp [act, hostAccess, h]

/-- Settles O44. -/
theorem hostStoreEffect : Obligations.HostStoreEffect := by
  intro a bs i s hinv hv
  have hend := end_of_rangeValid_word hv
  have htouch := hostStoreAll_touch a.toNat bs s
  refine ⟨_, act_memWrite hv, htouch.readReg, htouch.sameOutside, fun j hj => ?_, fun x hx => ?_⟩
  · rw [hostStoreAll_read hinv.mem hend, if_pos (by omega), Nat.add_sub_cancel_left]
  · rw [hostStoreAll_read hinv.mem hend, if_neg hx]

/-! ### Loads -/

/-- A load outside every running destination changes nothing and answers the bytes of memory. -/
theorem hostLoadAll_of_outside {a n : Nat} {s : State} (h : ∀ x, a ≤ x → x < a + n → ¬ s.inRunningDst x) :
    hostLoadAll a n s = (s, (List.range n).map fun j => s.mem.read (a + j)) := by
  induction n generalizing a with
  | zero => rfl
  | succ n ih =>
    rw [hostLoadAll, settleBoth_of_not_inDst (not_inRunningDst.mp (h a (by omega) (by omega))),
      ih fun x h1 h2 => h x (by omega) (by omega), List.range_succ_eq_map, List.map_cons, List.map_map]
    simp [Function.comp_def, Nat.add_assoc, Nat.add_comm 1]

/-- Settles O45. -/
theorem hostLoadEffect : Obligations.HostLoadEffect := by
  intro a n i s hv hout
  have hload := hostLoadAll_of_outside (a := a.toNat) (n := n) (s := s)
    fun x h1 h2 => not_inRunningDst.mpr fun u l hl => hout u l x hl h1 h2
  rw [act_memRead hv, hload]
  rfl

/-- What settling bytes of the addresses `A` can do: it writes running destinations only, keeps the offsets on record
and adds some of `A`, and changes nothing else in a latch. -/
structure Settled (A : Nat → Prop) (s t : State) : Prop where
  latch : ∀ u l', t.latch u = some l' → ∃ l, s.latch u = some l ∧ l' = { l with written := l'.written } ∧
    (∀ off ∈ l.written, off ∈ l'.written) ∧ ∀ off ∈ l'.written, off ∈ l.written ∨ A (l.dst + off)
  read : ∀ x, ¬ s.inRunningDst x → t.mem.read x = s.mem.read x

section settled
variable {A : Nat → Prop}

theorem Settled.refl (s : State) : Settled A s s where
  latch _ l' hl := ⟨l', hl, rfl, fun _ h => h, fun _ h => .inl h⟩
  read _ _ := rfl

theorem Settled.inRunningDst {s t : State} (h : Settled A s t) {x : Nat} (hx : t.inRunningDst x) : s.inRunningDst x := by
  obtain ⟨u, l', hl', hx⟩ := hx
  obtain ⟨l, hl, heq, -, -⟩ := h.latch u l' hl'
  rw [heq] at hx
  exact ⟨u, l, hl, hx⟩

theorem Settled.trans {r s t : State} (h : Settled A r s) (k : Settled A s t) : Settled A r t where
  latch u l2 hl2 := by
    obtain ⟨l1, hl1, heq1, hkeep1, hnew1⟩ := k.latch u l2 hl2
    obtain ⟨l, hl, heq, hkeep, hnew⟩ := h.latch u l1 hl1
    have hdst : l1.dst = l.dst := by rw [heq]
    refine ⟨l, hl, by rw [heq1, heq], fun off ho => hkeep1 off (hkeep off ho), fun off ho => ?_⟩
    exact (hnew1 off ho).elim (hnew off) fun hA => .inr (hdst ▸ hA)
  read x hx := (k.read x (mt h.inRunningDst hx)).trans (h.read x hx)

theorem Settled.mono {B : Nat → Prop} {s t : State} (h : Settled A s t) (hAB : ∀ x, A x → B x) : Settled B s t where
  latch u l' hl' := by
    obtain ⟨l, hl, heq, hkeep, hnew⟩ := h.latch u l' hl'
    exact ⟨l, hl, heq, hkeep, fun off ho => (hnew off ho).imp id (hAB _)⟩
  read := h.read

end settled

theorem settle_settled {u : UnitId} {a : Nat} {s : State} (hm : s.mem.wf) : Settled (· = a) s (settle u a s) := by
  obtain h | ⟨l, hl, hd, h | h⟩ := settle_cases u a s
  · rw [h]; exact Settled.refl s
  · rw [h]; exact ⟨fun v l' hl' => ⟨l', draws_latch s _ v ▸ hl', rfl, fun _ h => h, fun _ h => .inl h⟩, fun _ _ => rfl⟩
  · obtain ⟨hle, -⟩ := Latch.inDst_iff.mp hd
    rw [h]
    refine ⟨fun v l' hl' => ?_, fun x hx => ?_⟩
    · by_cases hv : v = u
      · subst hv
        rw [setLatch_latch] at hl'
        obtain rfl := Option.some.inj hl'
        refine ⟨l, hl, rfl, fun off ho => List.mem_cons_of_mem _ ho, fun off ho => ?_⟩
        obtain rfl | ho := List.mem_cons.mp ho
        · exact .inr (by omega)
        · exact .inl ho
      · rw [setLatch_latch_of_ne _ _ _ hv, mem_draws_latch] at hl'
        exact ⟨l', hl', rfl, fun _ h => h, fun _ h => .inl h⟩
    · have hne : x ≠ a := fun hxa => hx ⟨u, l, hl, hxa ▸ hd⟩
      simp [Memory.read_write hm, hne]

theorem settleBoth_settled {a : Nat} {s : State} (hm : s.mem.wf) (ha : a < addressSpace) :
    Settled (· = a) s (settleBoth a s) := (settle_settled hm).trans (settle_settled (settle_wf hm ha))

theorem hostLoadAll_settled {a n : Nat} {s : State} (hm : s.mem.wf) (ha : a + n ≤ addressSpace) :
    Settled (fun x => a ≤ x ∧ x < a + n) s (hostLoadAll a n s).1 := by
  induction n generalizing a s with
  | zero => exact Settled.refl s
  | succ n ih =>
    have hfirst := settleBoth_settled (s := s) (a := a) hm (by omega)
    have hrest := ih (s := settleBoth a s) (a := a + 1) (settleBoth_wf hm (by omega)) (by omega)
    exact (hfirst.mono fun x hx => by omega).trans (hrest.mono fun x hx => by omega)

/-! ### A load byte by byte -/

theorem hostLoadAll_append (a m k : Nat) (s : State) :
    hostLoadAll a (m + k) s = ((hostLoadAll (a + m) k (hostLoadAll a m s).1).1,
      (hostLoadAll a m s).2 ++ (hostLoadAll (a + m) k (hostLoadAll a m s).1).2) := by
  induction m generalizing a s with
  | zero => simp [hostLoadAll]
  | succ m ih =>
    rw [Nat.succ_add, hostLoadAll, ih, hostLoadAll, Nat.add_right_comm a 1 m]
    rfl

theorem hostLoadAll_length (a n : Nat) (s : State) : (hostLoadAll a n s).2.length = n := by
  induction n generalizing a s with
  | zero => rfl
  | succ n ih => simp [hostLoadAll, ih]

/-- The state in which a load from `a` on settles its byte `j`. -/
def loadedBefore (a j : Nat) (s : State) : State := (hostLoadAll a j s).1

/-- The byte `j` of a load is read as soon as it is settled, and the loads after it leave it and the records alone. -/
theorem hostLoadAll_byte {a n j : Nat} {s : State} (hm : s.mem.wf) (ha : a + n ≤ addressSpace) (hj : j < n) :
    (hostLoadAll a n s).2.getD j 0 = (settleBoth (a + j) (loadedBefore a j s)).mem.read (a + j) ∧
      (hostLoadAll a n s).1.mem.read (a + j) = (settleBoth (a + j) (loadedBefore a j s)).mem.read (a + j) ∧
      Settled (fun _ => True) (settleBoth (a + j) (loadedBefore a j s)) (hostLoadAll a n s).1 := by
  obtain ⟨k, rfl⟩ : ∃ k, n = j + (k + 1) := ⟨n - j - 1, by omega⟩
  have hwf : (settleBoth (a + j) (loadedBefore a j s)).mem.wf :=
    settleBoth_wf (hostLoadAll_wf hm (by omega)) (by omega)
  rw [hostLoadAll_append]
  refine ⟨?_, ?_, ?_⟩
  · rw [List.getD_append_right _ _ _ _ (hostLoadAll_length a j s).le, hostLoadAll_length, Nat.sub_self]
    rfl
  · exact hostLoadAll_read hwf (by omega) (by omega)
  · exact (hostLoadAll_settled hwf (by omega)).mono fun _ _ => trivial

/-- What settling by one unit leaves at the byte itself: the byte of memory, or the unit's own, then on record. -/
theorem settle_byte {u : UnitId} {y : Nat} {s : State} (hm : s.mem.wf) :
    (settle u y s).mem = s.mem ∨ ∃ l, s.latch u = some l ∧ l.inDst y = true ∧
      (settle u y s).mem.read y = unitByte s.mem l s.draws (y - l.dst) ∧
      (settle u y s).latch u = some { l with written := (y - l.dst) :: l.written } := by
  obtain h | ⟨l, hl, hd, h | h⟩ := settle_cases u y s
  · exact .inl (by rw [h])
  · exact .inl (by rw [h])
  · exact .inr ⟨l, hl, hd, by rw [h]; simp [Memory.read_write hm], by rw [h]; simp⟩

/-- The unit `u` has made its write of the byte at `y` in the step from `s` to `t`. -/
structure Wrote (u : UnitId) (l : Latch) (y : Nat) (s t : State) : Prop where
  value : ∃ draw, t.mem.read y = unitByte s.mem l draw (y - l.dst)
  record : ∃ l', t.latch u = some l' ∧ y - l.dst ∈ l'.written

/-- What settling by both units leaves at the byte: the byte of memory, or that of the one unit whose destination it
is in. (Two units that share it conflict, and every value is open.) -/
theorem settleBoth_byte {y : Nat} {s : State} (h : Inv s) (hy : y < addressSpace) :
    (settleBoth y s).mem.read y = s.mem.read y ∨
      ∃ u l, s.latch u = some l ∧ l.inDst y = true ∧ (l.clash = false → Wrote u l y s (settleBoth y s)) := by
  have hpkfc : UnitId.fc ≠ .pk := by decide
  have hfcLatch : (settle .pk y s).latch .fc = s.latch .fc := by
    obtain hs | ⟨l, -, -, hs | hs⟩ := settle_cases .pk y s
    · rw [hs]
    · rw [hs, draws_latch]
    · rw [hs, setLatch_latch_of_ne _ _ _ hpkfc, mem_draws_latch]
  have hpkLatch : ∀ t : State, (settle .fc y t).latch .pk = t.latch .pk := fun t => by
    obtain hs | ⟨l, -, -, hs | hs⟩ := settle_cases .fc y t
    · rw [hs]
    · rw [hs, draws_latch]
    · rw [hs, setLatch_latch_of_ne _ _ _ hpkfc.symm, mem_draws_latch]
  unfold settleBoth
  obtain hpk | ⟨l, hl, hd, hval, hrec⟩ := settle_byte (u := .pk) (y := y) h.mem
  · obtain hfc | ⟨r, hr, hd, hval, hrec⟩ := settle_byte (u := .fc) (y := y) (s := settle .pk y s) (settle_wf h.mem hy)
    · exact .inl (by rw [hfc, hpk])
    · rw [hfcLatch] at hr
      rw [hpk] at hval
      exact .inr ⟨.fc, r, hr, hd, fun _ => ⟨⟨_, hval⟩, _, hrec, List.mem_cons_self⟩⟩
  · obtain hfc | ⟨r, hr, hrd, -, -⟩ := settle_byte (u := .fc) (y := y) (s := settle .pk y s) (settle_wf h.mem hy)
    · exact .inr ⟨.pk, l, hl, hd, fun _ => ⟨⟨_, by rw [hfc, hval]⟩, _, by rw [hpkLatch, hrec], List.mem_cons_self⟩⟩
    · rw [hfcLatch] at hr
      refine .inr ⟨.pk, l, hl, hd, fun hc => ?_⟩
      obtain ⟨hno, -⟩ := inDst_of_not_conflicts (not_conflicts_of_not_clash h hpkfc hl hr hc) hd
      rw [hno] at hrd; cases hrd

/-! ### What a unit reads -/

/-- The source byte of an element of a line that is inside the buffer. -/
theorem interleaved_congr {cols line n b : Nat} {rd rd' : Nat → Nat → Byte} (hdvd : 8 ∣ line) (hn : n < cols) (hb : b < line)
    (h : ∀ j x, x < cols * line → rd j x = rd' j x) : interleaved line rd n b = interleaved line rd' n b := by
  obtain ⟨q, rfl⟩ := hdvd
  have hline : n * (8 * q) + 8 * q ≤ cols * (8 * q) := by
    calc n * (8 * q) + 8 * q = (n + 1) * (8 * q) := by ring
      _ ≤ cols * (8 * q) := Nat.mul_le_mul_right _ hn
  have hcell := fun rd => interleaved_eq (8 * q) rd n (b / 8) (Nat.mod_lt b (by decide : 0 < 8))
  simp only [Nat.div_add_mod] at hcell
  rw [hcell, hcell, h 0 _ (by omega), h 1 _ (by omega)]

/-- A destination byte depends on reads inside the source range alone (20_memory.md R51). -/
theorem destByte_congr {u : UnitId} {job : Job} (hjob : job.legal u) {rd rd' : Nat → Nat → Byte} {off : Nat}
    (hoff : off < job.dstLen) (h : ∀ j x, x < job.srcLen → rd j x = rd' j x) : destByte job rd off = destByte job rd' off := by
  cases job with
  | pack n k blklen =>
    have hblk : blklen ∈ [16, 32, 64, 128] := by
      cases u
      · exact hjob.1
      · exact hjob.elim
    obtain ⟨hcol, hline⟩ := packCell_lt (cols := n) (line := ldb k blklen) hoff
    exact interleaved_congr (eight_dvd_ldb hblk) hcol hline h
  | widen n =>
    simp only [Job.dstLen, Job.srcLen] at hoff h
    simp only [destByte, widenByte, h 0 _ (show 2 * (off / 4) < 2 * n by omega),
      h 1 _ (show 2 * (off / 4) + 1 < 2 * n by omega)]
  | narrow n =>
    simp only [Job.dstLen, Job.srcLen] at hoff h
    simp only [destByte, narrowByte, h 0 _ (show 4 * (off / 2) < 4 * n by omega),
      h 1 _ (show 4 * (off / 2) + 1 < 4 * n by omega), h 2 _ (show 4 * (off / 2) + 2 < 4 * n by omega),
      h 3 _ (show 4 * (off / 2) + 3 < 4 * n by omega)]

/-- A completion does not write again what is on record as written. -/
theorem finish_read_of_written {u : UnitId} {s : State} {l : Latch} (h : Inv s) (hl : s.latch u = some l)
    (hc : l.clash = false) {y : Nat} (hy : y - l.dst ∈ l.written) : (finish u s).mem.read y = s.mem.read y := by
  rw [finish_read h hl]
  simp [finalByte, hc, hy]

/-- The unit's byte of a command whose source nobody stored to and that keeps R216 and R217. -/
theorem unitByte_of_calm {m : Memory} {l : Latch} (hc : l.clash = false) (ho : l.selfOverlap = false) (hs : l.seen = [])
    (draw off : Nat) : unitByte m l draw off = destByte l.job (fun _ x => m.read (l.src + x)) off := by
  have hrd : racyRead m l draw = fun _ x => m.read (l.src + x) := by
    funext j x; exact racyRead_of_seen_nil hs draw j x
  simp [unitByte, hc, ho, hrd]

/-! ### The racing load -/

/-- A byte the unit has written stands until the completion and after it. -/
theorem finish_read_of_wrote {A B : Nat → Prop} {u : UnitId} {l : Latch} {y : Nat} {s q t : State} (hl : s.latch u = some l)
    (hc : l.clash = false) (hw : Wrote u l y s q) (hsettled : Settled A s q) (hafter : Settled B q t) (hinv : Inv t)
    (hbusy : t.busy u = true) : (finish u t).mem.read y = t.mem.read y := by
  obtain ⟨-, l1, hl1, hrec⟩ := hw
  obtain ⟨l2, hl2⟩ := busy_iff.mp hbusy
  obtain ⟨l1', hl1', heq2, hkeep, -⟩ := hafter.latch u l2 hl2
  obtain rfl : l1 = l1' := Option.some.inj (hl1.symm.trans hl1')
  obtain ⟨l', hl', heq1, -, -⟩ := hsettled.latch u l1 hl1
  obtain rfl : l = l' := Option.some.inj (hl.symm.trans hl')
  have hdst : l2.dst = l.dst := by rw [heq2, heq1]
  have hclash : l2.clash = false := by rw [heq2, heq1]; exact hc
  exact finish_read_of_written hinv hl2 hclash (hdst ▸ hkeep _ hrec)

/-- The byte a calm command writes while other bytes are settled is its operation's function of the source as it was. -/
theorem unitByte_of_settled {A : Nat → Prop} {u : UnitId} {l l' : Latch} {y : Nat} {s r : State} (h : Inv s)
    (hl : s.latch u = some l) (hcalm : l.calm) (hbefore : Settled A s r) (hl' : r.latch u = some l')
    (hd : l'.inDst y = true) (draw : Nat) :
    unitByte r.mem l' draw (y - l'.dst) = destByte l.job (fun _ x => s.mem.read (l.src + x)) (y - l.dst) := by
  obtain ⟨l0, hl0, heq, -, -⟩ := hbefore.latch u l' hl'
  obtain rfl : l = l0 := Option.some.inj (hl.symm.trans hl0)
  rw [heq] at hd ⊢
  obtain ⟨hle, hlt⟩ := Latch.inDst_iff.mp hd
  refine (unitByte_of_calm hcalm.clash hcalm.apart hcalm.seen _ _).trans ?_
  refine destByte_congr (h.latch u l hl).job (Nat.sub_lt_left_of_lt_add hle hlt) fun _ x hx => ?_
  exact hbefore.read _ (src_not_inRunningDst h hl hcalm.clash hcalm.apart (Latch.inSrc_add hx))

/-- The byte `j` of a load that is not that of memory: the byte a running command leaves at its completion. -/
theorem hostLoadAll_byte_cases {a n j : Nat} {s : State} (h : Inv s) (ha : a + n ≤ addressSpace) (hj : j < n) :
    (hostLoadAll a n s).2.getD j 0 = s.mem.read (a + j) ∨
      ∃ u l, s.latch u = some l ∧ l.inDst (a + j) = true ∧
        (l.clash = false → (finish u (hostLoadAll a n s).1).mem.read (a + j) = (hostLoadAll a n s).2.getD j 0) ∧
        (l.calm → (hostLoadAll a n s).2.getD j 0 =
          destByte l.job (fun _ x => s.mem.read (l.src + x)) (a + j - l.dst)) := by
  obtain ⟨hval, hlast, hafter⟩ := hostLoadAll_byte h.mem ha hj
  have hbefore : Settled _ s (loadedBefore a j s) := hostLoadAll_settled h.mem (by omega)
  have hinv : Inv (loadedBefore a j s) := (hostLoadAll_touch a j s).inv h (hostLoadAll_wf h.mem (by omega))
  have hfin : Inv (hostLoadAll a n s).1 := (hostLoadAll_touch a n s).inv h (hostLoadAll_wf h.mem ha)
  have haddr : a + j < addressSpace := by omega
  rw [hval]
  obtain hsame | ⟨u, l', hl', hd, hwrote⟩ := settleBoth_byte hinv haddr
  · exact .inl (hsame.trans (hostLoadAll_read h.mem (by omega) (by omega)))
  · obtain ⟨l, hl, heq, -, -⟩ := hbefore.latch u l' hl'
    have hclash : l'.clash = l.clash := by rw [heq]
    have hbusy : (hostLoadAll a n s).1.busy u = true :=
      ((hostLoadAll_touch a n s).busy u).trans (busy_iff.mpr ⟨l, hl⟩)
    refine .inr ⟨u, l, hl, by rw [heq] at hd; exact hd, fun hc => ?_, fun hcalm => ?_⟩
    · have hc' := hclash.trans hc
      rw [finish_read_of_wrote hl' hc' (hwrote hc') (settleBoth_settled hinv.mem haddr) hafter hfin hbusy, hlast]
    · obtain ⟨⟨draw, hbyte⟩, -⟩ := hwrote (hclash.trans hcalm.clash)
      exact hbyte.trans (unitByte_of_settled h hl hcalm hbefore hl' hd draw)

/-- A completion writes the same bytes whatever a host has read. -/
theorem finish_observe_mem (u : UnitId) (s : State) (i : Nat) (x : Reading) :
    (finish u (s.observe i x)).mem = (finish u s).mem := by
  cases hl : s.latch u with
  | none => rw [finish_of_none hl, finish_of_none (by rwa [observe_latch])]; rfl
  | some l => rw [finish_mem hl, finish_mem (by rwa [observe_latch])]; rfl

/-- Settles O59, byte by byte (`hostLoadAll_byte_cases`). -/
theorem racingLoadReturnsOldOrFinal : Obligations.RacingLoadReturnsOldOrFinal := by
  intro a n i s h hv
  have hend := end_of_rangeValid_word hv
  have htouch := hostLoadAll_touch a.toNat n s
  refine ⟨_, _, act_memRead hv, hostLoadAll_length _ _ _, by rw [observe_observed, htouch.observed],
    fun r => by rw [readReg_observe, htouch.readReg], htouch.platform, htouch.hosts, htouch.turns,
    fun x hx => hostLoadAll_read h.mem hend hx, fun j hj => ?_⟩
  simpa only [finish_observe_mem] using hostLoadAll_byte_cases h hend hj

end Sys2Proof.Machine
end

section
/-! The racing store (93_implementation_defined.md U4; 70_reset_and_hazards.md R214, R215): what a host's store puts on
record in the latches, and what the completion after it leaves. -/

namespace Sys2Proof.Machine

/-! ### What a store puts on record -/

/-- What stores to the addresses `A` can do to a latch: they put on record offsets of destination bytes of `A`, and
values that source bytes of `A` held; outside the running destinations, those of `s`. -/
def RecordsOf (A : Nat → Prop) (s t : State) : Prop :=
  ∀ u l', t.latch u = some l' → ∃ l, s.latch u = some l ∧ l' = { l with written := l'.written, seen := l'.seen } ∧
    (∀ off ∈ l'.written, off ∈ l.written ∨ A (l.dst + off)) ∧
    ∀ c ∈ l'.seen, c ∈ l.seen ∨ (A c.1 ∧ (¬ s.inRunningDst c.1 → c.2 = s.mem.read c.1))

theorem remember_latch {u v : UnitId} {a : Nat} {s : State} {l' : Latch} (h : (remember u a s).latch v = some l') :
    ∃ l, s.latch v = some l ∧ l' = { l with seen := l'.seen } ∧ ∀ c ∈ l'.seen, c ∈ l.seen ∨ c = (a, s.mem.read a) := by
  have hkept : s.latch v = some l' →
      ∃ l, s.latch v = some l ∧ l' = { l with seen := l'.seen } ∧ ∀ c ∈ l'.seen, c ∈ l.seen ∨ c = (a, s.mem.read a) :=
    fun hl => ⟨l', hl, rfl, fun _ hc => .inl hc⟩
  unfold remember at h
  cases hl : s.latch u with
  | none => simp only [hl] at h; exact hkept h
  | some l =>
    simp only [hl] at h
    split at h
    · by_cases hv : v = u
      · subst hv
        rw [setLatch_latch] at h
        obtain rfl := Option.some.inj h
        exact ⟨l, hl, rfl, fun c hc => (List.mem_cons.mp hc).symm⟩
      · rw [setLatch_latch_of_ne _ _ _ hv] at h
        exact hkept h
    · exact hkept h

theorem hostStore_records {a : Nat} {b : Byte} {s : State} (hm : s.mem.wf) (ha : a < addressSpace) :
    RecordsOf (· = a) s (hostStore a b s) := by
  intro u l3 hl3
  have hsettled := settleBoth_settled (s := s) hm ha
  have hlast : (remember .fc a (remember .pk a (settleBoth a s))).latch u = some l3 := hl3
  obtain ⟨l2, hl2, heq3, hseen3⟩ := remember_latch hlast
  obtain ⟨l1, hl1, heq2, hseen2⟩ := remember_latch hl2
  obtain ⟨l, hl, heq1, -, hnew⟩ := hsettled.latch u l1 hl1
  rw [remember_mem] at hseen3
  have hwritten : l3.written = l1.written := by rw [heq3, heq2]
  have hseen1 : l1.seen = l.seen := by rw [heq1]
  have hold : ∀ c, c = (a, (settleBoth a s).mem.read a) → c.1 = a ∧ (¬ s.inRunningDst c.1 → c.2 = s.mem.read c.1) := by
    rintro c rfl
    exact ⟨rfl, hsettled.read a⟩
  refine ⟨l, hl, by rw [heq3, heq2, heq1], fun off ho => hnew off (hwritten ▸ ho), fun c hc => ?_⟩
  obtain hc | hc := hseen3 c hc
  · exact (hseen2 c hc).imp (fun h => hseen1 ▸ h) (hold c)
  · exact .inr (hold c hc)

theorem hostStoreAll_records {a : Nat} {bs : List Byte} {s : State} (hm : s.mem.wf) (ha : a + bs.length ≤ addressSpace) :
    RecordsOf (fun x => a ≤ x ∧ x < a + bs.length) s (hostStoreAll a bs s) := by
  induction bs generalizing a s with
  | nil => exact fun u l hl => ⟨l, hl, rfl, fun _ h => .inl h, fun _ h => .inl h⟩
  | cons b bs ih =>
    rw [List.length_cons] at ha ⊢
    intro u l2 hl2
    obtain ⟨l1, hl1, heq2, hw2, hs2⟩ := ih (hostStore_wf hm (by omega) b) (by omega) u l2 hl2
    obtain ⟨l, hl, heq1, hw1, hs1⟩ := hostStore_records hm (by omega) u l1 hl1
    have hdst : l1.dst = l.dst := by rw [heq1]
    refine ⟨l, hl, by rw [heq2, heq1], fun off ho => ?_, fun c hc => ?_⟩
    · obtain ho | ho := hw2 off ho
      · exact (hw1 off ho).imp id fun h => by omega
      · exact .inr (by omega)
    · obtain hc | ⟨hA, hval⟩ := hs2 c hc
      · exact (hs1 c hc).imp id fun ⟨h, hv⟩ => ⟨by omega, hv⟩
      · refine .inr ⟨by omega, fun hrun => ?_⟩
        rw [hval (mt (hostStore_touch a b s).inRunningDst hrun), hostStore_read hm (by omega), if_neg (by omega)]

/-! ### What a unit reads and writes after it -/

theorem mem_oldValues {l : Latch} {a : Nat} {b : Byte} : b ∈ l.oldValues a ↔ (a, b) ∈ l.seen := by
  simp [Latch.oldValues]

/-- A racing read returns the byte of memory or one of the values on record. -/
theorem racyRead_cases (m : Memory) (l : Latch) (draw j x : Nat) :
    racyRead m l draw j x = m.read (l.src + x) ∨ (l.src + x, racyRead m l draw j x) ∈ l.seen := by
  unfold racyRead
  split
  · exact .inl rfl
  · next b old hold =>
    have hlt : Config.freeIndex (draw + j) % (old.length + 2) < (m.read (l.src + x) :: b :: old).length :=
      Nat.mod_lt _ (Nat.succ_pos _)
    rw [List.getD_eq_getElem _ _ hlt]
    obtain h | h := List.mem_cons.mp (List.getElem_mem hlt)
    · exact .inl h
    · exact .inr (mem_oldValues.mp (by rw [hold]; exact h))

/-- What a completion leaves where nothing is on record as written and the command keeps R216 and R217. -/
theorem finish_read_of_not_written {u : UnitId} {s : State} {l : Latch} (h : Inv s) (hl : s.latch u = some l)
    (hc : l.clash = false) (ho : l.selfOverlap = false) {off : Nat} (hoff : off < l.job.dstLen) (hw : off ∉ l.written) :
    (finish u s).mem.read (l.dst + off) = destByte l.job (racyRead s.mem l (s.draws + 4 * off)) off := by
  rw [finish_read_dst h hl hoff]
  simp [finalByte, unitByte, hc, ho, hw]

/-- After a store each read of a command that was calm before it is of the old byte or of one the host stored: what is
on record for a source byte is the value the store has lost. -/
theorem racyRead_after_store {a : Nat} {bs : List Byte} {s : State} {u : UnitId} {l l' : Latch} (h : Inv s)
    (ha : a + bs.length ≤ addressSpace) (hl : s.latch u = some l) (hcalm : l.calm) (hsrc : l'.src = l.src)
    (hseen : ∀ c ∈ l'.seen, c ∈ l.seen ∨
      ((a ≤ c.1 ∧ c.1 < a + bs.length) ∧ (¬ s.inRunningDst c.1 → c.2 = s.mem.read c.1)))
    (draw k : Nat) {x : Nat} (hx : x < l.job.srcLen) :
    racyRead (hostStoreAll a bs s).mem l' draw k x = s.mem.read (l.src + x) ∨
      ∃ j, j < bs.length ∧ a + j = l.src + x ∧ racyRead (hostStoreAll a bs s).mem l' draw k x = bs.getD j 0 := by
  obtain hread | hread := racyRead_cases (hostStoreAll a bs s).mem l' draw k x
  · rw [hread, hsrc, hostStoreAll_read h.mem ha]
    split
    · next hin => exact .inr ⟨l.src + x - a, by omega, by omega, rfl⟩
    · exact .inl rfl
  · rw [hcalm.seen] at hseen
    obtain ⟨-, hval⟩ := (hseen _ hread).resolve_left List.not_mem_nil
    rw [hsrc] at hval
    exact .inl (hval (src_not_inRunningDst h hl hcalm.clash hcalm.apart (Latch.inSrc_add hx)))

/-- Settles O60: a byte on record as written lies under the store; each other one is the operation's, on racing reads
(`racyRead_after_store`). -/
theorem racingStoreLeavesEither : Obligations.RacingStoreLeavesEither := by
  intro a bs i s u l h hv hl hcalm
  have hend := end_of_rangeValid_word hv
  have htouch := hostStoreAll_touch a.toNat bs s
  have hinv : Inv (hostStoreAll a.toNat bs s) := htouch.inv h (hostStoreAll_wf h.mem hend)
  obtain ⟨l', hl'⟩ : ∃ l', (hostStoreAll a.toNat bs s).latch u = some l' :=
    busy_iff.mp ((htouch.busy u).trans (busy_iff.mpr ⟨l, hl⟩))
  obtain ⟨l0, hl0, heq, hwritten, hseen⟩ := hostStoreAll_records h.mem hend u l' hl'
  obtain rfl : l = l0 := Option.some.inj (hl.symm.trans hl0)
  have hjob : l'.job = l.job := by rw [heq]
  have hsrc : l'.src = l.src := by rw [heq]
  have hdst : l'.dst = l.dst := by rw [heq]
  have hclash : l'.clash = false := by rw [heq]; exact hcalm.clash
  have hapart : l'.selfOverlap = false := by rw [heq]; exact hcalm.apart
  refine ⟨_, act_memWrite hv, by rw [finish_unit_done hl', htouch.ovr], fun off hoff => ?_⟩
  by_cases hw : off ∈ l'.written
  · rw [hcalm.written] at hwritten
    obtain ⟨hle, hlt⟩ := (hwritten off hw).resolve_left List.not_mem_nil
    refine .inl ⟨l.dst + off - a.toNat, by omega, by omega, ?_⟩
    rw [finish_read_of_written hinv hl' hclash (by rwa [hdst, Nat.add_sub_cancel_left]), hostStoreAll_read h.mem hend,
      if_pos ⟨hle, hlt⟩]
  · have hbyte := finish_read_of_not_written hinv hl' hclash hapart (hjob ▸ hoff) hw
    rw [hdst, hjob] at hbyte
    exact .inr ⟨_, hbyte, fun k x hx => racyRead_after_store h hend hl hcalm hsrc hseen _ k hx⟩

end Sys2Proof.Machine
end

section
/-! What steps change (10_state.md R21, R29, R34; 42_host_protocol.md R160, R168): units, descriptors, memory and the work
left, each from what one action of a host can do to it. -/

namespace Sys2Proof.Machine

/-! ### Units -/

/-- Unit `u` of `t` reads as in `s`: OVR is the same, and the phase too but for what a latch holds. -/
def keepsUnit (u : UnitId) (s t : State) : Prop :=
  (t.unit u).ovr = (s.unit u).ovr ∧
    ((t.unit u).phase = (s.unit u).phase ∨ (s.busy u = true ∧ t.busy u = true))

theorem keepsUnit_of_eq {u : UnitId} {s t : State} (h : t.unit u = s.unit u) : keepsUnit u s t :=
  ⟨by rw [h], .inl (by rw [h])⟩

theorem HostTouch.keepsUnit {s t : State} (k : HostTouch s t) (u : UnitId) : keepsUnit u s t := by
  obtain h | ⟨l, w, c, hl, -, -, -⟩ := k.phase u
  · exact ⟨k.ovr u, .inl h⟩
  · have hb : s.busy u = true := busy_iff.mpr ⟨l, hl⟩
    exact ⟨k.ovr u, .inr ⟨hb, (k.busy u).trans hb⟩⟩

theorem keepsUnit_of_sameUnitButClash {u : UnitId} {s t : State} (h : sameUnitButClash u s t) : keepsUnit u s t := by
  obtain ⟨hovr, hphase | ⟨l, hl, hphase⟩⟩ := h
  · exact ⟨hovr, .inl hphase⟩
  · exact ⟨hovr, .inr ⟨busy_iff.mpr ⟨l, hl⟩, busy_iff.mpr ⟨_, latch_eq_some.mpr hphase⟩⟩⟩

theorem fields_of_busy {u : UnitId} {s : State} (h : s.busy u = true) :
    (s.unit u).phase.stateField = 1 ∧ (s.unit u).phase.errField = 0 := by
  obtain ⟨l, hl⟩ := busy_iff.mp h
  rw [latch_eq_some.mp hl]
  exact ⟨rfl, rfl⟩

theorem keepsUnit.fields {u : UnitId} {s t : State} (h : keepsUnit u s t) :
    (t.unit u).phase.stateField = (s.unit u).phase.stateField ∧ (t.unit u).phase.errField = (s.unit u).phase.errField := by
  obtain ⟨-, hphase | ⟨hs, ht⟩⟩ := h
  · rw [hphase]; exact ⟨rfl, rfl⟩
  · obtain ⟨h1, h2⟩ := fields_of_busy hs
    obtain ⟨h3, h4⟩ := fields_of_busy ht
    rw [h1, h2, h3, h4]; exact ⟨rfl, rfl⟩

theorem keepsUnit.busy {u : UnitId} {s t : State} (h : keepsUnit u s t) : t.busy u = s.busy u := by
  obtain ⟨-, hphase | ⟨hs, ht⟩⟩ := h
  · simp [State.busy, State.latch, hphase]
  · rw [hs, ht]

/-- What an action of a host can do to a unit: its reset, a write of its STATUS, a command written to it, or nothing that
can be read. -/
theorem act_unit {i : Nat} {x : HostAction} {s t : State} (h : act i x s = .next t) (u : UnitId) :
    (x = .platformReset ∧ t.unit u = UnitState.reset) ∨
    (∃ v, x = .wr u.statusReg v ∧ t.unit u = (s.unit u).writeStatus v) ∨
    (∃ cw, x = .wr u.cmdReg cw ∧ command u cw s = .next t) ∨ keepsUnit u s t := by
  obtain ⟨r, v, rfl, hw⟩ | ⟨r, rfl, rfl⟩ | ⟨w, rfl, rfl⟩ | ⟨a, bs, rfl, -, rfl⟩ | ⟨a, n, rfl, -, rfl⟩ | ⟨rfl, rfl⟩ :=
    act_cases h
  · obtain ⟨w, rfl, hc⟩ | ⟨w, rfl, rfl⟩ | ⟨hpk, hfc, -⟩ := writeReg_cases hw
    · by_cases hwu : u = w
      · subst hwu
        exact .inr (.inr (.inl ⟨v, rfl, hc⟩))
      · obtain ⟨-, -, -, hother, -⟩ := issueFrame w v s t hc
        rw [UnitId.eq_other hwu]
        exact .inr (.inr (.inr (keepsUnit_of_sameUnitButClash hother)))
    · by_cases hwu : u = w
      · subst hwu
        exact .inr (.inl ⟨v, rfl, setUnit_unit ..⟩)
      · exact .inr (.inr (.inr (keepsUnit_of_eq (setUnit_unit_of_ne s w _ hwu))))
    · exact .inr (.inr (.inr (keepsUnit_of_eq (unit_eq_of_fields hpk hfc u))))
  · exact .inr (.inr (.inr (keepsUnit_of_eq (observe_unit ..))))
  · exact .inr (.inr (.inr (keepsUnit_of_eq (observe_unit ..))))
  · exact .inr (.inr (.inr ((hostStoreAll_touch ..).keepsUnit u)))
  · obtain ⟨hovr, hphase⟩ := (hostLoadAll_touch a.toNat n s).keepsUnit u
    refine .inr (.inr (.inr ⟨?_, ?_⟩))
    · rwa [observe_unit]
    · rwa [observe_unit, observe_busy]
  · exact .inl ⟨rfl, coreReset_unit s u⟩

/-- Settles O55, by what a completion and an action (`act_unit`) can do to a unit. -/
theorem unitStateMachine : Obligations.UnitStateMachine := by
  intro s t u h
  obtain ⟨-, rfl⟩ | ⟨v, l, hn, hl, rfl⟩ | ⟨i, x, rest, hn, hq, -, ha⟩ := step_cases h
  · exact .inl ⟨rfl, rfl⟩
  · by_cases hv : u = v
    · subst hv
      exact .inr (.inl ⟨hn, busy_iff.mpr ⟨l, hl⟩, by rw [finish_unit_done ((tick_latch s u).trans hl)]⟩)
    · rw [finish_unit_of_ne hv, tick_unit]
      exact .inl ⟨rfl, rfl⟩
  · obtain ⟨hx, hu⟩ | ⟨v, -, hu⟩ | ⟨cw, hx, hc⟩ | hkeep := act_unit ha u
    · exact .inr (.inr ⟨i, x, rest, hn, hq, .inl ⟨hx, by rw [hu]; rfl⟩⟩)
    · refine .inl ?_
      rw [hu, writeStatus_eq, setProgram_unit, tick_unit]
      exact ⟨rfl, rfl⟩
    · obtain ⟨-, rfl⟩ | ⟨hb, e, rfl⟩ | ⟨hb, j, -, -, -, rfl⟩ := command_cases hc
      · exact .inl (by simp)
      · rw [setProgram_busy, tick_busy] at hb
        exact .inr (.inr ⟨i, x, rest, hn, hq, .inr ⟨hb, ⟨cw, hx⟩, .inr ⟨e, by simp [raise]⟩⟩⟩)
      · rw [setProgram_busy, tick_busy] at hb
        exact .inr (.inr ⟨i, x, rest, hn, hq, .inr ⟨hb, ⟨cw, hx⟩, .inl (busy_iff.mpr ⟨_, latchCommand_latch ..⟩)⟩⟩)
    · simpa using Or.inl hkeep.fields

/-- Settles O17: a command sets OVR or keeps it, and only a write of STATUS and the reset can clear it. -/
theorem ovrStaysUntilCleared : Obligations.OvrStaysUntilCleared := by
  intro s t u h hovr
  obtain ⟨-, rfl⟩ | ⟨v, l, -, hl, rfl⟩ | ⟨i, x, rest, hn, hq, -, ha⟩ := step_cases h
  · exact .inl hovr
  · by_cases hv : u = v
    · subst hv
      rw [finish_unit_done ((tick_latch s u).trans hl), tick_unit]
      exact .inl hovr
    · rw [finish_unit_of_ne hv, tick_unit]
      exact .inl hovr
  · obtain ⟨hx, -⟩ | ⟨v, hx, hu⟩ | ⟨cw, -, hc⟩ | ⟨hkeep, -⟩ := act_unit ha u
    · exact .inr ⟨i, x, rest, hn, hq, .inl hx⟩
    · by_cases hv : v.getLsbD 8 = true
      · exact .inr ⟨i, x, rest, hn, hq, .inr ⟨v, hv, hx⟩⟩
      · refine .inl ?_
        rw [hu, writeStatus_eq, setProgram_unit, tick_unit]
        simp only [Bool.not_eq_true _ ▸ hv, Bool.not_false, Bool.and_true]
        exact hovr
    · refine .inl ?_
      obtain ⟨-, rfl⟩ | ⟨-, e, rfl⟩ | ⟨-, j, -, -, -, rfl⟩ := command_cases hc
      · rw [dropCommand_unit]
      · simpa [raise] using hovr
      · simpa using hovr
    · rw [hkeep, setProgram_unit, tick_unit]
      exact .inl hovr

/-! ### Descriptors, platform and programs -/

theorem writeReg_descriptors {r : Reg} {v : Word} {s t : State} (h : writeReg r v s = .next t) :
    sameDescriptors s t ∨ r ∈ [Reg.pkN, .pkK, .pkSrc, .pkDst, .fcCount, .fcSrc, .fcDst] := by
  have hcommand : ∀ {u : UnitId}, command u v s = .next t → sameDescriptors s t := fun hc => by
    obtain ⟨-, hdesc, -⟩ := issueFrame _ v s t hc
    exact hdesc
  cases r
  case pkCmd => exact .inl (hcommand h)
  case fcCmd => exact .inl (hcommand h)
  case pkStatus => cases h; exact .inl (sameDescriptors_setUnit s .pk _)
  case fcStatus => cases h; exact .inl (sameDescriptors_setUnit s .fc _)
  case rsv30 => cases h; exact .inl (sameDescriptors_refl s)
  case rsv38 => cases h; exact .inl (sameDescriptors_refl s)
  case rsv68 => cases h; exact .inl (sameDescriptors_refl s)
  case rsv70 => cases h; exact .inl (sameDescriptors_refl s)
  case rsv78 => cases h; exact .inl (sameDescriptors_refl s)
  all_goals exact .inr (by decide)

theorem writeReg_outside {r : Reg} {v : Word} {s t : State} (h : writeReg r v s = .next t) : sameOutside s t := by
  obtain ⟨u, -, hc⟩ | ⟨u, -, rfl⟩ | ⟨-, -, -, hp, hh, ho, ht, -⟩ := writeReg_cases h
  · obtain ⟨-, -, hout, -⟩ := issueFrame u v s t hc
    exact hout
  · exact sameOutside_setUnit s u _
  · exact ⟨hp, hh, ho, ht⟩

theorem HostTouch.sameDescriptors {s t : State} (k : HostTouch s t) : sameDescriptors s t :=
  ⟨k.pkN, k.pkK, k.pkSrc, k.pkDst, k.fcCount, k.fcSrc, k.fcDst⟩

/-- No action changes the platform or a program. -/
theorem act_outside {i : Nat} {x : HostAction} {s t : State} (h : act i x s = .next t) :
    t.platform = s.platform ∧ t.hosts = s.hosts := by
  obtain ⟨r, v, rfl, hw⟩ | ⟨r, rfl, rfl⟩ | ⟨w, rfl, rfl⟩ | ⟨a, bs, rfl, -, rfl⟩ | ⟨a, n, rfl, -, rfl⟩ | ⟨rfl, rfl⟩ :=
    act_cases h
  · obtain ⟨hp, hh, -⟩ := writeReg_outside hw
    exact ⟨hp, hh⟩
  · exact ⟨rfl, rfl⟩
  · exact ⟨rfl, rfl⟩
  · exact ⟨(hostStoreAll_touch ..).platform, (hostStoreAll_touch ..).hosts⟩
  · exact ⟨(hostLoadAll_touch ..).platform, (hostLoadAll_touch ..).hosts⟩
  · exact ⟨coreReset_platform s, coreReset_hosts s⟩

/-- Only a write of a descriptor register and the reset change a descriptor. -/
theorem act_descriptors {i : Nat} {x : HostAction} {s t : State} (h : act i x s = .next t) :
    sameDescriptors s t ∨ x = .platformReset ∨
      ∃ r v, r ∈ [Reg.pkN, .pkK, .pkSrc, .pkDst, .fcCount, .fcSrc, .fcDst] ∧ x = .wr r v := by
  obtain ⟨r, v, rfl, hw⟩ | ⟨r, rfl, rfl⟩ | ⟨w, rfl, rfl⟩ | ⟨a, bs, rfl, -, rfl⟩ | ⟨a, n, rfl, -, rfl⟩ | ⟨rfl, rfl⟩ :=
    act_cases h
  · exact (writeReg_descriptors hw).imp id fun hr => .inr ⟨r, v, hr, rfl⟩
  · exact .inl (sameDescriptors_refl s)
  · exact .inl (sameDescriptors_refl s)
  · exact .inl (hostStoreAll_touch ..).sameDescriptors
  · exact .inl (hostLoadAll_touch a.toNat n s).sameDescriptors
  · exact .inr (.inl rfl)

/-- Settles O53. -/
theorem onlyHostsWriteDescriptors : Obligations.OnlyHostsWriteDescriptors := by
  intro s t h
  obtain ⟨-, rfl⟩ | ⟨v, l, -, -, rfl⟩ | ⟨i, x, rest, hn, hq, -, ha⟩ := step_cases h
  · exact ⟨rfl, .inl (sameDescriptors_refl _)⟩
  · exact ⟨finish_platform v (tick s), .inl (sameDescriptors_finish v (tick s))⟩
  · obtain ⟨hp, -⟩ := act_outside ha
    exact ⟨hp, (act_descriptors ha).imp id fun hx => ⟨i, x, rest, hn, hq, hx⟩⟩

/-! ### Memory -/

/-- A byte that an action changes is one it stores, or one in a running destination that it loads or resets. -/
theorem act_read_ne {i : Nat} {x : HostAction} {s t : State} {a : Nat} (hinv : Inv s) (h : act i x s = .next t)
    (hne : t.mem.read a ≠ s.mem.read a) :
    (∃ (b : Word) (bs : List Byte), x = .memWrite b bs ∧ inRange b.toNat bs.length a = true) ∨
      ((x = .platformReset ∨ ∃ (b : Word) (n : Nat), x = .memRead b n ∧ inRange b.toNat n a = true) ∧ s.inRunningDst a) := by
  obtain ⟨r, v, rfl, hw⟩ | ⟨r, rfl, rfl⟩ | ⟨w, rfl, rfl⟩ | ⟨b, bs, rfl, hv, rfl⟩ | ⟨b, n, rfl, hv, rfl⟩ | ⟨rfl, rfl⟩ :=
    act_cases h
  · obtain ⟨u, -, hc⟩ | ⟨u, -, rfl⟩ | ⟨-, -, hm, -⟩ := writeReg_cases hw
    · obtain ⟨hm, -⟩ := issueFrame u v s t hc
      exact absurd (by rw [hm]) hne
    · exact absurd (by simp [writeStatusReg]) hne
    · exact absurd (by rw [hm]) hne
  · exact absurd rfl hne
  · exact absurd rfl hne
  · refine .inl ⟨b, bs, rfl, inRange_iff.mpr ?_⟩
    by_contra hout
    exact hne (by rw [hostStoreAll_read hinv.mem (end_of_rangeValid_word hv), if_neg hout])
  · refine .inr ⟨.inr ⟨b, n, rfl, inRange_iff.mpr ?_⟩, ?_⟩
    · by_contra hout
      exact hne (hostLoadAll_read hinv.mem (end_of_rangeValid_word hv) hout)
    · by_contra hrun
      exact hne ((hostLoadAll_settled hinv.mem (end_of_rangeValid_word hv)).read a hrun)
  · refine .inr ⟨.inl rfl, ?_⟩
    by_contra hrun
    exact hne (coreReset_read hinv (not_inRunningDst.mp hrun))

/-- Settles O54, by what a completion and an action (`act_read_ne`) can change. -/
theorem onlyOwnersWriteMemory : Obligations.OnlyOwnersWriteMemory := by
  intro s t a hinv h hne
  obtain ⟨-, rfl⟩ | ⟨u, l, hn, hl, rfl⟩ | ⟨i, x, rest, hn, hq, -, ha⟩ := step_cases h
  · exact absurd rfl hne
  · refine .inl ⟨u, l, hn, hl, ?_⟩
    by_contra hout
    exact hne (finish_read_of_not_inDst hinv.tick ((tick_latch s u).trans hl) (Bool.not_eq_true _ ▸ hout))
  · have hcases := act_read_ne (hinv.tick.setProgram i rest) ha hne
    simp only [State.inRunningDst, setProgram_latch, tick_latch] at hcases
    exact .inr ⟨i, x, rest, hn, hq, hcases⟩

/-! ### The work left -/

/-- One action of a host taken from its program. -/
theorem sum_length_set {hosts : List (List HostAction)} {i : Nat} {x : HostAction} {rest : List HostAction}
    (h : hosts[i]? = some (x :: rest)) :
    (hosts.map List.length).sum = ((hosts.set i rest).map List.length).sum + 1 := by
  induction hosts generalizing i with
  | nil => simp at h
  | cons q qs ih =>
    cases i with
    | zero =>
      rw [List.getElem?_cons_zero] at h
      obtain rfl := Option.some.inj h
      simp only [List.set_cons_zero, List.map_cons, List.sum_cons, List.length_cons]
      omega
    | succ i =>
      rw [List.getElem?_cons_succ] at h
      simp only [List.set_cons_succ, List.map_cons, List.sum_cons, ih h]
      omega

/-- An action makes at most the unit it writes a command to BUSY. -/
theorem act_busy {i : Nat} {x : HostAction} {s t : State} (h : act i x s = .next t) (u : UnitId) :
    t.busy u = true → s.busy u = true ∨ ∃ cw, x = .wr u.cmdReg cw := by
  intro hb
  obtain ⟨-, hu⟩ | ⟨v, -, hu⟩ | ⟨cw, hx, -⟩ | hkeep := act_unit h u
  · simp [State.busy, State.latch, hu, UnitState.reset] at hb
  · refine .inl ?_
    simpa [State.busy, State.latch, hu, writeStatus_eq] using hb
  · exact .inr ⟨cw, hx⟩
  · exact .inl (hkeep.busy ▸ hb)

theorem act_busy_le {i : Nat} {x : HostAction} {s t : State} (h : act i x s = .next t) :
    (t.busy .pk).toNat + (t.busy .fc).toNat ≤ (s.busy .pk).toNat + (s.busy .fc).toNat + 1 := by
  have hone : ∀ u, (t.busy u).toNat ≤ (s.busy u).toNat ∨ ∃ cw, x = .wr u.cmdReg cw := fun u => by
    cases ht : t.busy u with
    | false => exact .inl (Nat.zero_le _)
    | true => exact (act_busy h u ht).imp (fun hs => by rw [hs]) id
  have hle : ∀ u, (t.busy u).toNat ≤ (s.busy u).toNat + 1 := fun u => by
    have := (t.busy u).toNat_le; omega
  obtain hpk | ⟨cw, rfl⟩ := hone .pk
  · have := hle .fc; omega
  · obtain hfc | ⟨cw', hx⟩ := hone .fc
    · have := hle .pk; omega
    · simp [HostAction.wr, UnitId.cmdReg, Reg.offset] at hx

/-- A completion takes one command off the work left. -/
theorem busy_finish {u : UnitId} {s : State} (hb : s.busy u = true) :
    ((finish u s).busy .pk).toNat + ((finish u s).busy .fc).toNat + 1 = (s.busy .pk).toNat + (s.busy .fc).toNat := by
  have hu : (finish u s).busy u = false := not_busy_iff.mpr finish_latch
  have hother : (finish u s).busy u.other = s.busy u.other := busy_congr (finish_unit_of_ne (UnitId.other_ne u))
  cases u
  · rw [hu, show UnitId.fc = UnitId.pk.other from rfl, hother, hb]; simp; omega
  · rw [hu, show UnitId.pk = UnitId.fc.other from rfl, hother, hb]; simp

/-- Nobody has a step exactly at the end of the run (42_host_protocol.md R171). -/
theorem enabled_eq_nil_iff {s : State} : enabled s = [] ↔ s.ended := by
  have hunits : enabled s = [] → ∀ u, s.busy u = false := fun he u => by
    by_contra hb
    have hmem : Agent.unit u ∈ enabled s := mem_enabled.mpr (.inr ⟨u, rfl, Bool.not_eq_false _ ▸ hb⟩)
    rw [he] at hmem; cases hmem
  constructor
  · intro he
    refine ⟨fun q hq => ?_, hunits he .pk, hunits he .fc⟩
    obtain ⟨i, hi⟩ := List.mem_iff_getElem?.mp hq
    cases q with
    | nil => rfl
    | cons x rest =>
      have hfree : blocked x s = false := by
        by_contra hb
        obtain ⟨u, -, hu⟩ := blocked_iff.mp (Bool.not_eq_false _ ▸ hb)
        rw [hunits he u] at hu; cases hu
      have hmem : Agent.host i ∈ enabled s := mem_enabled.mpr (.inl ⟨i, rfl, hostReady_iff.mpr ⟨x, rest, hi, hfree⟩⟩)
      rw [he] at hmem; cases hmem
  · rintro ⟨hprog, hpk, hfc⟩
    refine List.eq_nil_iff_forall_not_mem.mpr fun a ha => ?_
    obtain ⟨i, -, hr⟩ | ⟨u, -, hu⟩ := mem_enabled.mp ha
    · obtain ⟨x, rest, hq, -⟩ := hostReady_iff.mp hr
      cases hprog _ (List.mem_of_getElem? hq)
    · cases u
      · rw [hpk] at hu; cases hu
      · rw [hfc] at hu; cases hu

theorem workLeft_step {s t : State} (h : step s = .next t) (hne : ¬ s.ended) : workLeft t < workLeft s := by
  obtain ⟨he, -⟩ | ⟨u, l, -, hl, rfl⟩ | ⟨i, x, rest, -, hq, -, ha⟩ := step_cases h
  · exact absurd (enabled_eq_nil_iff.mp he) hne
  · have hb : (tick s).busy u = true := (tick_busy s u).trans (busy_iff.mpr ⟨l, hl⟩)
    have := busy_finish hb
    simp only [tick_busy] at this
    simp only [workLeft, finish_hosts, tick_hosts]
    omega
  · have hbusy := act_busy_le ha
    have hsum := sum_length_set hq
    obtain ⟨-, hhosts⟩ := act_outside ha
    simp only [setProgram_busy, tick_busy] at hbusy
    simp only [workLeft, hhosts, setProgram_hosts, tick_hosts]
    omega

theorem step_of_ended {s : State} (h : s.ended) : step s = .next s := by
  simp [step, nextAgent, enabled_eq_nil_iff.mpr h]

/-- Settles O51: a completion takes one off, an action of a host two, of which a new command gives back one. -/
theorem everyStepShortensTheRun : Obligations.EveryStepShortensTheRun := by
  intro s t h
  refine ⟨fun hne => workLeft_step h hne, fun hend => ?_⟩
  rw [step_of_ended hend] at h
  cases h
  rfl

/-- A run has ended exactly when no work is left. -/
theorem ended_iff_workLeft {s : State} : s.ended ↔ workLeft s = 0 := by
  have hprog : (∀ q ∈ s.hosts, q = []) ↔ (s.hosts.map List.length).sum = 0 := by
    simp [List.sum_eq_zero_iff]
  have hbusy : ∀ u, s.busy u = false ↔ (s.busy u).toNat = 0 := fun u => by cases s.busy u <;> simp
  rw [State.ended, hprog, hbusy, hbusy, workLeft]
  omega

/-- A run with enough steps for the work left ends, if nothing stops it. -/
theorem runFor_ended {k : Nat} {s t : State} (hk : workLeft s ≤ k) (h : runFor k s = .next t) : t.ended := by
  induction k generalizing s with
  | zero =>
    cases h
    exact ended_iff_workLeft.mpr (Nat.le_zero.mp hk)
  | succ k ih =>
    rw [runFor] at h
    cases hs : step s with
    | fault r => rw [hs] at h; cases h
    | refused r => rw [hs] at h; cases h
    | next r =>
      rw [hs] at h
      by_cases hend : s.ended
      · rw [step_of_ended hend] at hs
        cases hs
        exact ih (by rw [ended_iff_workLeft.mp hend]; exact Nat.zero_le k) h
      · exact ih (by have := workLeft_step hs hend; omega) h

/-- Settles O52, by `runFor_ended`. -/
theorem runsEnd : Obligations.RunsEnd := by
  intro s
  split
  · next t h => exact runFor_ended le_rfl h
  · trivial
  · trivial

end Sys2Proof.Machine
end

section
/-! Hosts that keep their duties (70_reset_and_hazards.md R214 to R217, R219): no running command is disturbed, and each
is one atomic function of its source (20_memory.md R59, R60). -/

namespace Sys2Proof.Machine

/-! ### What duties say -/

theorem outside_of_storeDutiful {a n : Nat} {s : State} (h : storeDutiful a n s = true) (u : UnitId) (l : Latch) (x : Nat)
    (hl : s.latch u = some l) (h1 : a ≤ x) (h2 : x < a + n) : l.inSrc x = false ∧ l.inDst x = false := by
  have hu := List.all_eq_true.mp h u (by cases u <;> simp)
  simp only [hl, Bool.and_eq_true, Bool.not_eq_true', overlaps_eq_false] at hu
  obtain ⟨hsrc, hdst⟩ := hu
  exact ⟨inRange_eq_false.mpr (hsrc x h1 h2), inRange_eq_false.mpr (hdst x h1 h2)⟩

theorem outside_of_loadDutiful {a n : Nat} {s : State} (h : loadDutiful a n s = true) (x : Nat) (h1 : a ≤ x)
    (h2 : x < a + n) : ¬ s.inRunningDst x := by
  refine not_inRunningDst.mpr fun u l hl => ?_
  have hu := List.all_eq_true.mp h u (by cases u <;> simp)
  simp only [hl, Bool.not_eq_true', overlaps_eq_false] at hu
  exact inRange_eq_false.mpr (hu x h1 h2)

/-- A duty reads nothing that the bookkeeping of a step changes. -/
theorem actionDutiful_setProgram (x : HostAction) (s : State) (i : Nat) (rest : List HostAction) :
    actionDutiful x ((tick s).setProgram i rest) = actionDutiful x s := by
  have hdesc : sameDescriptors s ((tick s).setProgram i rest) := ⟨rfl, rfl, rfl, rfl, rfl, rfl, rfl⟩
  have hlatch : ∀ u, ((tick s).setProgram i rest).latch u = s.latch u := fun u => by simp
  have hcommand : ∀ u cw, commandDutiful u cw ((tick s).setProgram i rest) = commandDutiful u cw s := fun u cw => by
    simp only [commandDutiful, State.busy, clashesWith, hlatch, requested_congr hdesc, firstError_congr hdesc]
    rfl
  cases x with
  | regWrite off bytes v => simp only [actionDutiful, hcommand]
  | regRead off bytes => rfl
  | wait u => rfl
  | memWrite a bs => simp only [actionDutiful, storeDutiful, hlatch]; rfl
  | memRead a n => simp only [actionDutiful, loadDutiful, hlatch]; rfl
  | platformReset => simp only [actionDutiful, State.busy, hlatch]

theorem commandDutiful_of_actionDutiful {u : UnitId} {cw : Word} {s : State}
    (h : actionDutiful (.wr u.cmdReg cw) s = true) : commandDutiful u cw s = true := by
  cases u <;> simpa [actionDutiful, HostAction.wr, UnitId.cmdReg] using h

/-! ### Dutiful actions -/

/-- From `s` to `t` no running command is disturbed: each keeps its latch and the bytes of its ranges, and what is newly
latched is calm. -/
structure Undisturbed (s t : State) : Prop where
  kept : ∀ u l, s.latch u = some l → t.latch u = some l
  fresh : ∀ u l, t.latch u = some l → s.latch u = some l ∨ l.calm
  read : ∀ u l a, s.latch u = some l → l.inSrc a = true ∨ l.inDst a = true → t.mem.read a = s.mem.read a

theorem Undisturbed.of_latch_eq {s t : State} (hl : ∀ u, t.latch u = s.latch u)
    (hm : ∀ u l a, s.latch u = some l → l.inSrc a = true ∨ l.inDst a = true → t.mem.read a = s.mem.read a) :
    Undisturbed s t :=
  ⟨fun u _ h => (hl u).trans h, fun u _ h => .inl ((hl u).symm.trans h), hm⟩

theorem command_undisturbed {u : UnitId} {cw : Word} {s t : State} (hd : commandDutiful u cw s = true)
    (h : command u cw s = .next t) : Undisturbed s t := by
  simp only [commandDutiful, Bool.and_eq_true, Bool.not_eq_true'] at hd
  obtain ⟨hfree, hchecks⟩ := hd
  have hnone : s.latch u = none := not_busy_iff.mp hfree
  obtain ⟨hb, -⟩ | ⟨-, e, rfl⟩ | ⟨-, i, hi, he, -, rfl⟩ := command_cases h
  · rw [hfree] at hb; cases hb
  · refine ⟨fun v l hl => ?_, fun v l hl => .inl ?_, fun _ _ _ _ _ => by simp [raise]⟩
    · by_cases hv : v = u
      · rw [hv, hnone] at hl; cases hl
      · rwa [raise_latch_of_ne e s hv]
    · by_cases hv : v = u
      · rw [hv, raise_latch] at hl; cases hl
      · rwa [raise_latch_of_ne e s hv] at hl
  · simp only [hi, he, Option.isSome_none, Bool.false_or, Bool.and_eq_true, Bool.not_eq_true'] at hchecks
    obtain ⟨⟨-, hapart⟩, hclash⟩ := hchecks
    have hother : ∀ v, v ≠ u → (latchCommand u (requested i s) s).latch v = s.latch v := fun v hv => by
      rw [UnitId.eq_other hv]
      exact latch_congr (latchCommand_other_of_no_clash hclash)
    refine ⟨fun v l hl => ?_, fun v l hl => ?_, fun _ _ _ _ _ => by rw [latchCommand_mem]⟩
    · by_cases hv : v = u
      · rw [hv, hnone] at hl; cases hl
      · rwa [hother v hv]
    · by_cases hv : v = u
      · subst hv
        rw [latchCommand_latch] at hl
        obtain rfl := Option.some.inj hl
        exact .inr ⟨hclash, requested_written i s, requested_seen i s, hapart⟩
      · rw [hother v hv] at hl
        exact .inl hl

/-- A store outside every running range leaves the latches as they are. -/
theorem hostStoreAll_latch_of_outside {a : Nat} {bs : List Byte} {s : State}
    (h : ∀ u l x, s.latch u = some l → a ≤ x → x < a + bs.length → l.inSrc x = false ∧ l.inDst x = false) (u : UnitId) :
    (hostStoreAll a bs s).latch u = s.latch u := by
  induction bs generalizing a s with
  | nil => rfl
  | cons b bs ih =>
    rw [List.length_cons] at h
    have hstore := hostStore_of_outside (b := b) (s := s) (fun v l hl => (h v l a hl (by omega) (by omega)).2)
      (fun v l hl => (h v l a hl (by omega) (by omega)).1)
    have hlatch : ∀ v, (hostStore a b s).latch v = s.latch v := fun v => by rw [hstore, mem_latch]
    rw [hostStoreAll, ih fun v l x hl h1 h2 => h v l x (hlatch v ▸ hl) (by omega) (by omega), hlatch]

/-- An action that keeps the duties of a host disturbs no running command. -/
theorem act_undisturbed {i : Nat} {x : HostAction} {s t : State} (hinv : Inv s) (hd : actionDutiful x s = true)
    (h : act i x s = .next t) : Undisturbed s t := by
  obtain ⟨r, v, rfl, hw⟩ | ⟨r, rfl, rfl⟩ | ⟨w, rfl, rfl⟩ | ⟨a, bs, rfl, hv, rfl⟩ | ⟨a, n, rfl, -, rfl⟩ | ⟨rfl, rfl⟩ :=
    act_cases h
  · obtain ⟨u, rfl, hc⟩ | ⟨u, rfl, rfl⟩ | ⟨hpk, hfc, hm, -⟩ := writeReg_cases hw
    · exact command_undisturbed (commandDutiful_of_actionDutiful hd) hc
    · exact .of_latch_eq (fun w => writeStatusReg_latch u w v s) fun _ _ _ _ _ => by simp [writeStatusReg]
    · exact .of_latch_eq (fun u => latch_congr (unit_eq_of_fields hpk hfc u)) fun _ _ _ _ _ => by rw [hm]
  · exact .of_latch_eq (observe_latch s i _) fun _ _ _ _ _ => rfl
  · exact .of_latch_eq (observe_latch s i _) fun _ _ _ _ _ => rfl
  · have hout := outside_of_storeDutiful (Bool.and_eq_true _ _ ▸ hd).2
    refine .of_latch_eq (hostStoreAll_latch_of_outside hout) fun u l x hl hx => ?_
    rw [hostStoreAll_read hinv.mem (end_of_rangeValid_word hv), if_neg]
    rintro ⟨h1, h2⟩
    obtain ⟨hsrc, hdst⟩ := hout u l x hl h1 h2
    rw [hsrc, hdst] at hx
    simp at hx
  · have hload := hostLoadAll_of_outside (outside_of_loadDutiful (Bool.and_eq_true _ _ ▸ hd).2)
    rw [hload]
    exact .of_latch_eq (observe_latch s i _) fun _ _ _ _ _ => rfl
  · have hnone : ∀ u, s.latch u = none := fun u => by
      simp only [actionDutiful, Bool.and_eq_true, Bool.not_eq_true'] at hd
      cases u
      · exact not_busy_iff.mp hd.1
      · exact not_busy_iff.mp hd.2
    exact .of_latch_eq (fun u => by rw [coreReset_latch, hnone]) fun u l _ hl _ => by rw [hnone] at hl; cases hl

/-! ### Dutiful steps -/

/-- What a step can do while hosts keep their duties: complete a unit, or leave every running command undisturbed. -/
theorem dutiful_step_cases {s t : State} (hinv : Inv s) (hd : s.dutiful) (h : step s = .next t) :
    (∃ u, t = finish u (tick s)) ∨ Undisturbed s t := by
  obtain ⟨-, rfl⟩ | ⟨u, l, -, -, rfl⟩ | ⟨i, x, rest, -, hq, -, ha⟩ := step_cases h
  · exact .inr (.of_latch_eq (fun _ => rfl) fun _ _ _ _ _ => rfl)
  · exact .inl ⟨u, rfl⟩
  · have hx : actionDutiful x ((tick s).setProgram i rest) = true :=
      (actionDutiful_setProgram x s i rest).trans (hd i x rest hq)
    obtain ⟨hkept, hfresh, hread⟩ := act_undisturbed (hinv.tick.setProgram i rest) hx ha
    simp only [setProgram_latch, tick_latch, setProgram_mem, tick_mem] at hkept hfresh hread
    exact .inr ⟨hkept, hfresh, hread⟩

theorem calm_finish {s : State} (h : s.calm) (u : UnitId) : (finish u s).calm := by
  intro v l hl
  by_cases hv : v = u
  · rw [hv, finish_latch] at hl; cases hl
  · exact h v l (finish_latch_of_ne hv ▸ hl)

theorem calm_step {s t : State} (hinv : Inv s) (hc : s.calm) (hd : s.dutiful) (h : step s = .next t) : t.calm := by
  obtain ⟨u, rfl⟩ | hquiet := dutiful_step_cases hinv hd h
  · exact calm_finish (fun v l hl => hc v l (tick_latch s v ▸ hl)) u
  · exact fun u l hl => (hquiet.fresh u l hl).elim (hc u l) id

/-- Settles O56, by `calm_step`. -/
theorem dutifulStepsStayCalm : Obligations.DutifulStepsStayCalm := fun _ _ hinv hc hd h => calm_step hinv hc hd h

/-- The completion of another unit leaves the ranges of a calm command alone. -/
theorem finish_read_other {s : State} (hinv : Inv s) {u v : UnitId} (hv : v ≠ u) {l : Latch} (hl : s.latch u = some l)
    (hc : l.clash = false) {a : Nat} (ha : l.inSrc a = true ∨ l.inDst a = true) :
    (finish v s).mem.read a = s.mem.read a := by
  cases hr : s.latch v with
  | none => rw [finish_of_none hr]
  | some r =>
    have hapart := not_conflicts_of_not_clash hinv hv hl hr hc
    refine finish_read_of_not_inDst hinv hr ?_
    exact ha.elim (fun h => inSrc_of_not_conflicts hapart h) fun h => (inDst_of_not_conflicts hapart h).1

/-- A dutiful step completes a running command or leaves it as it is, with the bytes of its source. -/
theorem running_after_step {s t : State} (hinv : Inv s) (hc : s.calm) (hd : s.dutiful) (h : step s = .next t)
    {u : UnitId} {l : Latch} (hl : s.latch u = some l) :
    t = finish u (tick s) ∨ (t.latch u = some l ∧ ∀ a, l.inSrc a = true → t.mem.read a = s.mem.read a) := by
  obtain ⟨v, rfl⟩ | hquiet := dutiful_step_cases hinv hd h
  · by_cases hv : v = u
    · exact .inl (by rw [hv])
    · have hlt : (tick s).latch u = some l := (tick_latch s u).trans hl
      refine .inr ⟨(finish_latch_of_ne (Ne.symm hv)).trans hlt, fun a ha => ?_⟩
      rw [finish_read_other hinv.tick hv hlt (hc u l hl).clash (.inl ha), tick_mem]
  · exact .inr ⟨hquiet.kept u l hl, fun a ha => hquiet.read u l a hl (.inl ha)⟩

/-- All through the window of a command its latch and the bytes of its source stay. -/
theorem window_invariant {s t : State} {u : UnitId} {l : Latch} (hinv : Inv s) (hc : s.calm) (hl : s.latch u = some l)
    (hw : DutifulWhileBusy u s t) :
    Inv t ∧ t.calm ∧ t.latch u = some l ∧ ∀ a, l.inSrc a = true → t.mem.read a = s.mem.read a := by
  induction hw with
  | refl => exact ⟨hinv, hc, hl, fun _ _ => rfl⟩
  | step hw hd h hb ih =>
    obtain ⟨hinv', hc', hl', hsrc⟩ := ih
    obtain rfl | ⟨hlt, hread⟩ := running_after_step hinv' hc' hd h hl'
    · rw [State.busy, finish_latch] at hb; cases hb
    · exact ⟨hinv'.step h, calm_step hinv' hc' hd h, hlt, fun a ha => (hread a ha).trans (hsrc a ha)⟩

/-- Settles O57: what holds all through the window (`window_invariant`) makes the last step the completion of `u`. -/
theorem undisturbedCommandIsAtomic : Obligations.UndisturbedCommandIsAtomic := by
  intro u l s t t' hinv hc hl hw hd h hb
  obtain ⟨hinv', hc', hl', hsrc⟩ := window_invariant hinv hc hl hw
  have hcalm := hc u l hl
  obtain rfl | ⟨hlt, -⟩ := running_after_step hinv' hc' hd h hl'
  · have hlt : (tick t).latch u = some l := (tick_latch t u).trans hl'
    refine ⟨by rw [finish_unit_done hlt], fun off hoff => ?_, fun a ha => ?_, fun a ha => ?_⟩
    · rw [finish_read_of_calm hinv'.tick hlt hcalm hoff]
      exact destByte_congr (hinv.latch u l hl).job hoff fun _ x hx => hsrc _ (Latch.inSrc_add hx)
    · rw [finish_read_of_not_inDst hinv'.tick hlt (inDst_of_apart hcalm.apart ha), tick_mem, hsrc a ha]
    · rw [finish_read_of_not_inDst hinv'.tick hlt ha, tick_mem]
  · rw [State.busy, hlt] at hb; cases hb

/-! ### The order of two completions -/

/-- A completion, with the changed fields apart. -/
theorem finish_eq {u : UnitId} {s : State} {l : Latch} (hl : s.latch u = some l) :
    finish u s = { s.setPhase u .done with mem := (finish u s).mem, draws := s.draws + 4 * l.job.dstLen } := by
  rw [finish_mem hl, finish_of_some hl]
  cases u <;> rfl

/-- Each byte after two calm completions is that of the command whose destination it is in. -/
theorem finish_finish_read {u : UnitId} {s : State} {l r : Latch} (hinv : Inv s) (hc : s.calm) (hl : s.latch u = some l)
    (hr : s.latch u.other = some r) (x : Nat) :
    (finish u (finish u.other s)).mem.read x =
      if l.inDst x = true then destByte l.job (fun _ y => s.mem.read (l.src + y)) (x - l.dst)
      else if r.inDst x = true then destByte r.job (fun _ y => s.mem.read (r.src + y)) (x - r.dst)
      else s.mem.read x := by
  have hinv' := hinv.finish u.other
  have hne : u.other ≠ u := UnitId.other_ne u
  have hl' : (finish u.other s).latch u = some l := (finish_latch_of_ne hne.symm).trans hl
  have hlcalm := hc u l hl
  by_cases hx : l.inDst x = true
  · obtain ⟨hle, hlt⟩ := Latch.inDst_iff.mp hx
    obtain ⟨off, rfl⟩ : ∃ off, x = l.dst + off := ⟨x - l.dst, by omega⟩
    have hoff : off < l.job.dstLen := by omega
    rw [if_pos hx, finish_read_of_calm hinv' hl' hlcalm hoff, Nat.add_sub_cancel_left]
    exact destByte_congr (hinv.latch u l hl).job hoff fun _ y hy =>
      finish_read_other hinv hne hl hlcalm.clash (.inl (Latch.inSrc_add hy))
  · rw [if_neg hx, finish_read_of_not_inDst hinv' hl' (Bool.not_eq_true _ ▸ hx)]
    by_cases hxr : r.inDst x = true
    · obtain ⟨hle, hlt⟩ := Latch.inDst_iff.mp hxr
      obtain ⟨off, rfl⟩ : ∃ off, x = r.dst + off := ⟨x - r.dst, by omega⟩
      rw [if_pos hxr, finish_read_of_calm hinv hr (hc _ r hr) (by omega), Nat.add_sub_cancel_left]
    · rw [if_neg hxr, finish_read_of_not_inDst hinv hr (Bool.not_eq_true _ ▸ hxr)]

/-- Settles O58: both orders leave the same bytes (`finish_finish_read`), since the destinations are apart, and the same
registers. -/
theorem completionOrderDoesNotShow : Obligations.CompletionOrderDoesNotShow := by
  intro s hinv hc hpk hfc
  obtain ⟨l, hl⟩ := busy_iff.mp hpk
  obtain ⟨r, hr⟩ := busy_iff.mp hfc
  have hne : UnitId.fc ≠ .pk := by decide
  have hapart := not_conflicts_of_not_clash hinv hne hl hr (hc _ l hl).clash
  have hmem : (finish .pk (finish .fc s)).mem = (finish .fc (finish .pk s)).mem := by
    refine Memory.ext_of_read ((hinv.finish .fc).finish .pk).mem ((hinv.finish .pk).finish .fc).mem fun x => ?_
    refine (finish_finish_read (u := .pk) hinv hc hl hr x).trans (Eq.trans ?_ (finish_finish_read (u := .fc) hinv hc hr hl x).symm)
    by_cases hx : l.inDst x = true
    · rw [if_pos hx, if_pos hx, if_neg (by rw [(inDst_of_not_conflicts hapart hx).1]; decide)]
    · rw [if_neg hx, if_neg hx]
  have hl' : (finish .fc s).latch .pk = some l := (finish_latch_of_ne hne.symm).trans hl
  have hr' : (finish .pk s).latch .fc = some r := (finish_latch_of_ne hne).trans hr
  rw [finish_eq hl', finish_eq hr', hmem, finish_of_some hr, finish_of_some hl]
  simp only [State.setPhase, State.setUnit, State.unit, Nat.add_right_comm]

end Sys2Proof.Machine
end

section
/-! Numbers behind patterns (41_formatcaster.md R145): fields and masks as arithmetic, the magnitudes of fp16 patterns in
their order, and what it is to be nearest (R142). -/

namespace Sys2Proof.Machine

/-! ### Masks and signs as arithmetic -/

/-- A mask of `k` bits from bit `lo` on keeps that field. -/
theorem land_field (a lo k : Nat) : a &&& ((2 ^ k - 1) * 2 ^ lo) = a / 2 ^ lo % 2 ^ k * 2 ^ lo := by
  apply Nat.eq_of_testBit_eq
  intro j
  rw [Nat.testBit_and, Nat.testBit_mul_two_pow, Nat.testBit_mul_two_pow, Nat.testBit_two_pow_sub_one,
    Nat.testBit_mod_two_pow, Nat.testBit_div_two_pow]
  by_cases hj : lo ≤ j
  · simp [hj, Bool.and_comm]
  · simp [hj]

section masks
variable (h : Half) (x : Single)

theorem toNat_and_halfExp : (h &&& 0x7C00).toNat = h.toNat / 2 ^ 10 % 2 ^ 5 * 2 ^ 10 :=
  (BitVec.toNat_and ..).trans (land_field h.toNat 10 5)

theorem toNat_and_halfMan : (h &&& 0x03FF).toNat = h.toNat % 2 ^ 10 :=
  (BitVec.toNat_and ..).trans (Nat.and_two_pow_sub_one_eq_mod h.toNat 10)

theorem toNat_and_singleExp : (x &&& 0x7F800000).toNat = x.toNat / 2 ^ 23 % 2 ^ 8 * 2 ^ 23 :=
  (BitVec.toNat_and ..).trans (land_field x.toNat 23 8)

theorem toNat_and_singleMan : (x &&& 0x007FFFFF).toNat = x.toNat % 2 ^ 23 :=
  (BitVec.toNat_and ..).trans (Nat.and_two_pow_sub_one_eq_mod x.toNat 23)

end masks

theorem halfExp_iff {h : Half} : h &&& 0x7C00 = 0x7C00 ↔ 0x7C00 ≤ h.toNat % 2 ^ 15 := by
  rw [← BitVec.toNat_inj, toNat_and_halfExp]
  change _ = 0x7C00 ↔ _
  omega

theorem singleExp_iff {x : Single} : x &&& 0x7F800000 = 0x7F800000 ↔ 0x7F800000 ≤ x.toNat % 2 ^ 31 := by
  rw [← BitVec.toNat_inj, toNat_and_singleExp]
  change _ = 0x7F800000 ↔ _
  omega

/-- The NaNs are the patterns above infinity. -/
theorem halfIsNaN_iff {h : Half} : halfIsNaN h = true ↔ 0x7C00 < h.toNat % 2 ^ 15 := by
  have hman : h &&& 0x03FF = 0 ↔ h.toNat % 2 ^ 10 = 0 := by
    rw [← BitVec.toNat_inj, toNat_and_halfMan]; rfl
  rw [halfIsNaN, Bool.and_eq_true, decide_eq_true_eq, decide_eq_true_eq, halfExp_iff, ne_eq, hman]
  omega

theorem singleIsNaN_iff {x : Single} : singleIsNaN x = true ↔ 0x7F800000 < x.toNat % 2 ^ 31 := by
  have hman : x &&& 0x007FFFFF = 0 ↔ x.toNat % 2 ^ 23 = 0 := by
    rw [← BitVec.toNat_inj, toNat_and_singleMan]; rfl
  rw [singleIsNaN, Bool.and_eq_true, decide_eq_true_eq, decide_eq_true_eq, singleExp_iff, ne_eq, hman]
  omega

/-- Flipping the sign keeps the rest of a pattern. -/
theorem xor_two_pow (a n : Nat) : (a ^^^ 2 ^ n) % 2 ^ n = a % 2 ^ n ∧ (a ^^^ 2 ^ n) / 2 ^ n = a / 2 ^ n ^^^ 1 := by
  rw [Nat.xor_mod_two_pow, Nat.xor_div_two_pow, Nat.mod_self, Nat.xor_zero, Nat.div_self (Nat.two_pow_pos n)]
  exact ⟨rfl, rfl⟩

/-- A sign in front of a magnitude. -/
theorem toNat_ofNat_sign {k s r : Nat} (hs : s < 2) (hr : r < 2 ^ k) :
    (BitVec.ofNat (k + 1) ((s <<< k) ||| r)).toNat = s * 2 ^ k + r := by
  rw [← Nat.shiftLeft_add_eq_or_of_lt hr, Nat.shiftLeft_eq, BitVec.toNat_ofNat, Nat.mod_eq_of_lt]
  have : s * 2 ^ k ≤ 1 * 2 ^ k := Nat.mul_le_mul_right _ (by omega)
  rw [Nat.pow_succ]
  omega

/-! ### Magnitudes -/

theorem halfMagnitude_subnormal {k : Nat} (hk : k < 2 ^ 10) : halfMagnitude k = k := by
  rw [halfMagnitude, if_pos (by omega), Nat.mod_eq_of_lt hk]

theorem halfMagnitude_normal {e k : Nat} (he : 1 ≤ e) (hk : k < 2 ^ 10) :
    halfMagnitude (e * 2 ^ 10 + k) = (1024 + k) * 2 ^ (e - 1) := by
  rw [halfMagnitude, if_neg (by omega), show (e * 2 ^ 10 + k) % 2 ^ 10 = k by omega,
    show (e * 2 ^ 10 + k) / 2 ^ 10 = e by omega]

theorem singleMagnitude_normal {e m : Nat} (he : 1 ≤ e) (hm : m < 2 ^ 23) :
    singleMagnitude (e * 2 ^ 23 + m) = (2 ^ 23 + m) * 2 ^ (e - 1) := by
  rw [singleMagnitude, if_neg (by omega), show (e * 2 ^ 23 + m) % 2 ^ 23 = m by omega,
    show (e * 2 ^ 23 + m) / 2 ^ 23 = e by omega]

/-- From one fp16 pattern to the next the magnitude grows by one unit of the last place. -/
theorem halfMagnitude_succ (c : Nat) : halfMagnitude (c + 1) = halfMagnitude c + 2 ^ (c / 2 ^ 10 - 1) := by
  obtain ⟨e, k, rfl, hk⟩ : ∃ e k, c = e * 2 ^ 10 + k ∧ k < 2 ^ 10 := ⟨c / 2 ^ 10, c % 2 ^ 10, by omega, by omega⟩
  have hexp : (e * 2 ^ 10 + k) / 2 ^ 10 = e := by omega
  rw [hexp]
  obtain hlast | hin : k + 1 = 2 ^ 10 ∨ k + 1 < 2 ^ 10 := by omega
  · have hcarry : e * 2 ^ 10 + k + 1 = (e + 1) * 2 ^ 10 + 0 := by omega
    obtain rfl : k = 1023 := by omega
    rw [hcarry, halfMagnitude_normal (by omega) (by omega)]
    obtain rfl | he := Nat.eq_zero_or_pos e
    · decide
    · obtain ⟨d, rfl⟩ : ∃ d, e = d + 1 := ⟨e - 1, by omega⟩
      rw [halfMagnitude_normal (by omega) (by omega), Nat.add_sub_cancel, Nat.add_sub_cancel, Nat.pow_succ]
      ring
  · obtain rfl | he := Nat.eq_zero_or_pos e
    · rw [show 0 * 2 ^ 10 + k = k by omega, halfMagnitude_subnormal hin, halfMagnitude_subnormal hk]
      rfl
    · rw [Nat.add_assoc, halfMagnitude_normal he hin, halfMagnitude_normal he hk]
      ring

theorem halfMagnitude_strictMono : StrictMono halfMagnitude :=
  strictMono_nat_of_lt_succ fun c => by
    rw [halfMagnitude_succ]
    exact Nat.lt_add_of_pos_right (Nat.two_pow_pos _)

/-! ### Nearest -/

/-- Of two values the lower is nearer exactly below their middle. -/
theorem distance_lt_upper {v a b : Nat} (h : a < b) : distance v a < distance v b ↔ 2 * v < a + b := by
  unfold distance; omega

theorem distance_lt_lower {v a b : Nat} (h : a < b) : distance v b < distance v a ↔ a + b < 2 * v := by
  unfold distance; omega

theorem distance_eq_iff {v a b : Nat} (h : a < b) : distance v a = distance v b ↔ 2 * v = a + b := by
  unfold distance; omega

/-- The magnitude of an fp16 pattern in the units of fp32, `2^-149`. -/
def halfInSingleUnits (c : Nat) : Nat := halfMagnitude c * 2 ^ 125

theorem halfInSingleUnits_strictMono : StrictMono halfInSingleUnits := fun _ _ h =>
  Nat.mul_lt_mul_of_pos_right (halfMagnitude_strictMono h) (Nat.two_pow_pos _)

/-- `q` is the fp16 magnitude nearest to `v`, infinity among them; of two equally near the even pattern (R142). -/
def Nearest (v q : Nat) : Prop :=
  q ≤ 0x7C00 ∧ ∀ c, c ≤ 0x7C00 → c ≠ q →
    distance v (halfInSingleUnits q) < distance v (halfInSingleUnits c) ∨
      (distance v (halfInSingleUnits q) = distance v (halfInSingleUnits c) ∧ q % 2 = 0)

/-- To be nearest, by the middles between `q` and the patterns below and above it. -/
theorem nearest_iff {v q : Nat} : Nearest v q ↔ q ≤ 0x7C00 ∧
    (∀ c, c < q → halfInSingleUnits c + halfInSingleUnits q < 2 * v ∨
      (2 * v = halfInSingleUnits c + halfInSingleUnits q ∧ q % 2 = 0)) ∧
    ∀ c, c ≤ 0x7C00 → q < c → 2 * v < halfInSingleUnits q + halfInSingleUnits c ∨
      (2 * v = halfInSingleUnits q + halfInSingleUnits c ∧ q % 2 = 0) := by
  constructor
  · rintro ⟨hq, hall⟩
    refine ⟨hq, fun c hc => ?_, fun c hle hc => ?_⟩
    · have hlt := halfInSingleUnits_strictMono hc
      rw [← distance_lt_lower hlt, ← distance_eq_iff hlt, eq_comm]
      exact hall c (hc.le.trans hq) hc.ne
    · have hlt := halfInSingleUnits_strictMono hc
      rw [← distance_lt_upper hlt, ← distance_eq_iff hlt]
      exact hall c hle hc.ne'
  · rintro ⟨hq, hbelow, habove⟩
    refine ⟨hq, fun c hle hne => ?_⟩
    obtain hc | hc := hne.lt_or_gt
    · have hlt := halfInSingleUnits_strictMono hc
      rw [distance_lt_lower hlt, eq_comm, distance_eq_iff hlt]
      exact hbelow c hc
    · have hlt := halfInSingleUnits_strictMono hc
      rw [distance_lt_upper hlt, distance_eq_iff hlt]
      exact habove c hle hc

section nearest
variable {v v' q q' : Nat}

/-- The nearest magnitudes are in the order of the values. -/
theorem Nearest.mono (h : Nearest v q) (h' : Nearest v' q') (hv : v ≤ v') : q ≤ q' := by
  by_contra hlt
  obtain ⟨hq, hbelow, -⟩ := nearest_iff.mp h
  obtain ⟨-, -, habove⟩ := nearest_iff.mp h'
  have h1 := hbelow q' (by omega)
  have h2 := habove q hq (by omega)
  -- Both are as near to one value, so both patterns are even, and the one between them is nearer.
  have heven : q % 2 = 0 ∧ q' % 2 = 0 := by omega
  have hnext : halfInSingleUnits q' < halfInSingleUnits (q' + 1) := halfInSingleUnits_strictMono (by omega)
  have h3 := hbelow (q' + 1) (by omega)
  omega

theorem Nearest.unique (h : Nearest v q) (h' : Nearest v q') : q = q' :=
  Nat.le_antisymm (h.mono h' le_rfl) (h'.mono h le_rfl)

/-- A magnitude is nearest to itself. -/
theorem nearest_self (hq : q ≤ 0x7C00) : Nearest (halfInSingleUnits q) q := by
  refine nearest_iff.mpr ⟨hq, fun c hc => .inl ?_, fun c _ hc => .inl ?_⟩
  · have := halfInSingleUnits_strictMono hc; omega
  · have := halfInSingleUnits_strictMono hc; omega

/-- Less than half a unit goes to zero. -/
theorem nearest_zero (hv : 2 * v < 2 ^ 125) : Nearest v 0 := by
  refine nearest_iff.mpr ⟨by decide, fun c hc => absurd hc (Nat.not_lt_zero c), fun c _ hc => .inl ?_⟩
  calc 2 * v < 2 ^ 125 := hv
    _ = halfInSingleUnits 1 := by decide
    _ ≤ halfInSingleUnits c := halfInSingleUnits_strictMono.monotone hc
    _ ≤ halfInSingleUnits 0 + halfInSingleUnits c := Nat.le_add_left _ _

/-- What is not below infinity's `2^16` goes to it. -/
theorem nearest_infinity (hv : halfInSingleUnits 0x7C00 ≤ v) : Nearest v 0x7C00 := by
  refine nearest_iff.mpr ⟨le_rfl, fun c hc => .inl ?_, fun c hle hc => absurd hc (not_lt.mpr hle)⟩
  have := halfInSingleUnits_strictMono hc
  omega

/-- Between two neighbours rounding to nearest, ties to even, takes the nearest. -/
theorem nearest_roundEven {rem half unit : Nat} (hq : q < 0x7C00) (hv : v = halfInSingleUnits q + rem * unit)
    (hunit : 0 < unit) (hstep : 2 ^ (q / 2 ^ 10 - 1) * 2 ^ 125 = 2 * (half * unit)) (hrem : rem < 2 * half) :
    Nearest v (roundEven q rem half) := by
  have hnext : halfInSingleUnits (q + 1) = halfInSingleUnits q + 2 * (half * unit) := by
    rw [halfInSingleUnits, halfMagnitude_succ, Nat.add_mul, hstep, halfInSingleUnits]
  have hlt : rem * unit < 2 * (half * unit) := by
    rw [← Nat.mul_assoc]; exact Nat.mul_lt_mul_of_pos_right hrem hunit
  have hup : rem > half ↔ rem * unit > half * unit := (Nat.mul_lt_mul_right hunit).symm
  have htie : rem = half ↔ rem * unit = half * unit := (Nat.mul_left_inj hunit.ne').symm
  have hstrict : ∀ {c d}, c < d → halfInSingleUnits c < halfInSingleUnits d := fun h => halfInSingleUnits_strictMono h
  simp only [roundEven, hup, htie, Nat.and_one_is_mod]
  split
  · next hround =>
    refine nearest_iff.mpr ⟨hq, fun c hc => ?_, fun c _ hc => .inl ?_⟩
    · obtain rfl | hcq : c = q ∨ c < q := by omega
      · omega
      · have := hstrict hcq; omega
    · have := hstrict hc; omega
  · next hround =>
    refine nearest_iff.mpr ⟨hq.le, fun c hc => .inl ?_, fun c _ hc => ?_⟩
    · have := hstrict hc; omega
    · obtain rfl | hcq : c = q + 1 ∨ q + 1 < c := by omega
      · omega
      · have := hstrict hcq; omega

end nearest

end Sys2Proof.Machine
end

section
/-! The conversions (41_formatcaster.md R132, R133, R141 to R144): `widen` is exact, `narrow` takes the nearest magnitude,
and what follows from that alone: `narrow` is monotone, odd in the sign, and undoes `widen`. -/

namespace Sys2Proof.Machine

/-! ### Widening -/

theorem toNat_single {s r : Nat} (hs : s < 2) (hr : r < 2 ^ 31) :
    (BitVec.ofNat 32 ((s <<< 31) ||| r)).toNat = s * 2 ^ 31 + r := toNat_ofNat_sign hs hr

theorem toNat_half {s r : Nat} (hs : s < 2) (hr : r < 2 ^ 15) :
    (BitVec.ofNat 16 ((s <<< 15) ||| r)).toNat = s * 2 ^ 15 + r := toNat_ofNat_sign hs hr

section widen
variable {h : Half} {s e m : Nat} (hs : h.toNat / 2 ^ 15 = s) (he : h.toNat / 2 ^ 10 % 2 ^ 5 = e)
  (hm : h.toNat % 2 ^ 10 = m)
include hs he hm

omit he hm in
theorem sign_lt_of_half : s < 2 := by have := h.isLt; omega

theorem widen_zero (he0 : e = 0) (hm0 : m = 0) : (widen h).toNat = s * 2 ^ 31 + 0 := by
  have hs2 := sign_lt_of_half hs
  rw [← toNat_single hs2 (by decide), Nat.or_zero]
  simp only [widen, hs, he, hm, he0, hm0, if_true]

/-- A subnormal is shifted up until its highest bit is the hidden one. -/
theorem widen_subnormal (he0 : e = 0) (hm0 : m ≠ 0) :
    (widen h).toNat =
      s * 2 ^ 31 + ((103 + Nat.log2 m) * 2 ^ 23 + m * 2 ^ (23 - Nat.log2 m) % 2 ^ 23) ∧ Nat.log2 m < 10 := by
  have hs2 := sign_lt_of_half hs
  have hlog : Nat.log2 m < 10 := (Nat.log2_lt hm0).mpr (by omega)
  have hman : m * 2 ^ (23 - Nat.log2 m) % 2 ^ 23 < 2 ^ 23 := Nat.mod_lt _ (by decide)
  refine ⟨?_, hlog⟩
  rw [← toNat_single hs2 (by omega)]
  simp only [widen, hs, he, hm, he0, if_true, if_neg hm0]
  rw [Nat.or_assoc, Nat.shiftLeft_eq m, ← Nat.shiftLeft_eq (103 + Nat.log2 m), Nat.shiftLeft_add_eq_or_of_lt hman,
    show (0x7FFFFF : Nat) = 2 ^ 23 - 1 by decide, Nat.and_two_pow_sub_one_eq_mod]

theorem widen_normal (he1 : 1 ≤ e) (he30 : e ≤ 30) :
    (widen h).toNat = s * 2 ^ 31 + ((e + 112) * 2 ^ 23 + m * 2 ^ 13) := by
  have hs2 := sign_lt_of_half hs
  have hlow : (e + 112) * 2 ^ 23 + m * 2 ^ 13 < 2 ^ 31 := by omega
  have hman : m * 2 ^ 13 < 2 ^ 10 * 2 ^ 13 := Nat.mul_lt_mul_of_pos_right (hm ▸ Nat.mod_lt _ (by decide)) (by decide)
  rw [← Nat.pow_add] at hman
  rw [← toNat_single hs2 hlow]
  simp only [widen, hs, he, hm]
  rw [if_neg (Nat.ne_of_gt he1), if_pos he30, Nat.or_assoc, Nat.shiftLeft_eq m, ← Nat.shiftLeft_eq (e + 112),
    Nat.shiftLeft_add_eq_or_of_lt hman]

theorem widen_infinity (he31 : e = 31) (hm0 : m = 0) : (widen h).toNat = s * 2 ^ 31 + 0x7F800000 := by
  have hs2 := sign_lt_of_half hs
  rw [← toNat_single hs2 (by decide)]
  simp only [widen, hs, he, hm]
  rw [if_neg (by omega), if_neg (by omega), if_pos hm0]

omit hs in
theorem widen_nan (he31 : e = 31) (hm0 : m ≠ 0) : widen h = widenNan h := by
  simp only [widen, he, hm]
  rw [if_neg (by omega), if_neg (by omega), if_neg hm0]

end widen

/-- Widening a finite pattern keeps the sign and the value (R132). -/
theorem widen_finite {h : Half} (hfin : h.toNat % 2 ^ 15 < 0x7C00) :
    ∃ M, (widen h).toNat = h.toNat / 2 ^ 15 * 2 ^ 31 + M ∧ M < 0x7F800000 ∧
      singleMagnitude M = halfInSingleUnits (h.toNat % 2 ^ 15) := by
  obtain ⟨e, he⟩ : ∃ e, h.toNat / 2 ^ 10 % 2 ^ 5 = e := ⟨_, rfl⟩
  obtain ⟨m, hm⟩ : ∃ m, h.toNat % 2 ^ 10 = m := ⟨_, rfl⟩
  have hlow : h.toNat % 2 ^ 15 = e * 2 ^ 10 + m := by omega
  have hmlt : m < 2 ^ 10 := by omega
  rw [hlow, halfInSingleUnits]
  obtain rfl | hepos := Nat.eq_zero_or_pos e
  · rw [show 0 * 2 ^ 10 + m = m by omega, halfMagnitude_subnormal hmlt]
    by_cases hm0 : m = 0
    · exact ⟨0, widen_zero rfl he hm rfl hm0, by decide, by rw [hm0]; rfl⟩
    · obtain ⟨hw, hlog⟩ := widen_subnormal rfl he hm rfl hm0
      have hlow := Nat.log2_self_le hm0
      have hhigh := Nat.lt_log2_self (n := m)
      generalize Nat.log2 m = p at *
      have hscale : 2 ^ p * 2 ^ (23 - p) = 2 ^ 23 := by rw [← Nat.pow_add]; congr 1; omega
      have hge : 2 ^ 23 ≤ m * 2 ^ (23 - p) := hscale ▸ Nat.mul_le_mul_right _ hlow
      have hlt : m * 2 ^ (23 - p) < 2 ^ 24 := by
        calc m * 2 ^ (23 - p) < 2 ^ (p + 1) * 2 ^ (23 - p) := Nat.mul_lt_mul_of_pos_right hhigh (Nat.two_pow_pos _)
          _ = 2 * 2 ^ 23 := by rw [Nat.pow_succ, ← hscale]; ring
      have hrem : m * 2 ^ (23 - p) % 2 ^ 23 = m * 2 ^ (23 - p) - 2 ^ 23 := by omega
      refine ⟨_, hw, by omega, ?_⟩
      rw [singleMagnitude_normal (by omega) (by omega), hrem, Nat.add_sub_cancel' hge, Nat.mul_assoc, ← Nat.pow_add]
      congr 2
      omega
  · refine ⟨_, widen_normal rfl he hm hepos (by omega), by omega, ?_⟩
    rw [singleMagnitude_normal (by omega) (by omega), halfMagnitude_normal hepos hmlt,
      show 2 ^ 23 + m * 2 ^ 13 = (1024 + m) * 2 ^ 13 by ring, Nat.mul_assoc, Nat.mul_assoc, ← Nat.pow_add, ← Nat.pow_add]
    congr 2
    omega

/-- Settles O37, by `widen_finite`. -/
theorem widenExact : Obligations.WidenExact := by
  intro h hfin
  rw [ne_eq, halfExp_iff, not_le] at hfin
  obtain ⟨M, hw, hM, hval⟩ := widen_finite hfin
  have hlow : (widen h).toNat % 2 ^ 31 = M := by omega
  refine ⟨by omega, ?_, by rw [hlow, hval, halfInSingleUnits]⟩
  rw [ne_eq, singleExp_iff, hlow]
  omega

/-! ### NaNs -/

theorem singleIsNaN_of_masks {x : Single} (hexp : x &&& 0x7F800000 = 0x7F800000) (hman : x &&& 0x007FFFFF ≠ 0) :
    singleIsNaN x = true := by
  rw [singleIsNaN, Bool.and_eq_true]
  exact ⟨decide_eq_true hexp, decide_eq_true hman⟩

theorem halfIsNaN_of_masks {h : Half} (hexp : h &&& 0x7C00 = 0x7C00) (hman : h &&& 0x03FF ≠ 0) : halfIsNaN h = true := by
  rw [halfIsNaN, Bool.and_eq_true]
  exact ⟨decide_eq_true hexp, decide_eq_true hman⟩

/-- A mask inside the bits that are set keeps itself; one outside of them keeps what was there. -/
theorem or_and_of_and_eq {w : Nat} {x a b : BitVec w} (h : a &&& b = b) : (x ||| a) &&& b = b := by
  rw [BitVec.and_or_distrib_right, h]
  ext i hi
  simp only [BitVec.getElem_or, BitVec.getElem_and]
  cases x[i] <;> cases b[i] <;> rfl

theorem or_and_of_and_eq_zero {w : Nat} {x a b : BitVec w} (h : a &&& b = 0#w) : (x ||| a) &&& b = x &&& b := by
  rw [BitVec.and_or_distrib_right, h, BitVec.or_zero]

theorem singleIsNaN_toNan32 (x : Single) : singleIsNaN (toNan32 x) = true := by
  unfold toNan32
  split
  · refine singleIsNaN_of_masks (or_and_of_and_eq (by decide)) fun hzero => ?_
    have hbit : ((x ||| 0x7FC00000) &&& 0x007FFFFF).getLsbD 22 = true := by simp
    rw [hzero] at hbit
    cases hbit
  · next hx =>
    refine singleIsNaN_of_masks (or_and_of_and_eq (by decide)) ?_
    rw [or_and_of_and_eq_zero (by decide)]
    exact hx

theorem halfIsNaN_toNan16 (x : Half) : halfIsNaN (toNan16 x) = true := by
  unfold toNan16
  split
  · refine halfIsNaN_of_masks (or_and_of_and_eq (by decide)) fun hzero => ?_
    have hbit : ((x ||| 0x7E00) &&& 0x03FF).getLsbD 9 = true := by simp
    rw [hzero] at hbit
    cases hbit
  · next hx =>
    refine halfIsNaN_of_masks (or_and_of_and_eq (by decide)) ?_
    rw [or_and_of_and_eq_zero (by decide)]
    exact hx

theorem widen_of_infinity {h : Half} (hinf : h.toNat % 2 ^ 15 = 0x7C00) :
    (widen h).toNat = h.toNat / 2 ^ 15 * 2 ^ 31 + 0x7F800000 := widen_infinity rfl rfl rfl (by omega) (by omega)

/-- Settles O38. -/
theorem widenInfinitiesAndNaNs : Obligations.WidenInfinitiesAndNaNs := by
  refine ⟨BitVec.eq_of_toNat_eq (widen_of_infinity rfl), BitVec.eq_of_toNat_eq (widen_of_infinity rfl), fun h hnan => ?_⟩
  rw [halfIsNaN_iff] at hnan
  rw [widen_nan rfl rfl (by omega) (by omega)]
  exact singleIsNaN_toNan32 _

/-! ### Narrowing -/

section narrow
variable {x : Single} {s e m : Nat} (hs : x.toNat / 2 ^ 31 = s) (he : x.toNat / 2 ^ 23 % 2 ^ 8 = e)
  (hm : x.toNat % 2 ^ 23 = m)
include hs he hm

omit he hm in
theorem sign_lt_of_single : s < 2 := by have := x.isLt; omega

omit hs in
theorem narrow_nan (he255 : e = 255) (hm0 : m ≠ 0) : narrow x = narrowNan x := by
  simp only [narrow, he, hm]
  rw [if_pos he255, if_neg hm0]

theorem narrow_infinity (he255 : e = 255) (hm0 : m = 0) : narrow x = BitVec.ofNat 16 ((s <<< 15) ||| 0x7C00) := by
  simp only [narrow, hs, he, hm]
  rw [if_pos he255, if_pos hm0]

omit hm in
theorem narrow_zero (he0 : e = 0) : narrow x = BitVec.ofNat 16 ((s <<< 15) ||| 0) := by
  rw [Nat.or_zero]
  simp only [narrow, hs, he]
  rw [if_neg (by omega), if_pos he0]

theorem narrow_large (hge : 143 ≤ e) (hne : e ≠ 255) : narrow x = BitVec.ofNat 16 ((s <<< 15) ||| 0x7C00) := by
  unfold narrow
  simp only [hs, he, hm]
  rw [if_neg hne, if_neg (by omega), if_pos (by omega)]

theorem narrow_normal (hge : 113 ≤ e) (hle : e ≤ 142) :
    narrow x = BitVec.ofNat 16 ((s <<< 15) ||| roundEven ((e - 112) * 2 ^ 10 + m / 2 ^ 13) (m % 2 ^ 13) (2 ^ 12)) := by
  have hman : m / 2 ^ 13 < 2 ^ 10 := by omega
  have hexp : ((e : Int) - 127 + 15).toNat = e - 112 := by omega
  unfold narrow
  simp only [hs, he, hm]
  rw [if_neg (by omega), if_neg (by omega), if_neg (by omega), if_pos (by omega), hexp, Nat.shiftRight_eq_div_pow,
    ← Nat.shiftLeft_add_eq_or_of_lt hman, Nat.shiftLeft_eq (e - 112), show (0x1FFF : Nat) = 2 ^ 13 - 1 by decide,
    Nat.and_two_pow_sub_one_eq_mod, show (0x1000 : Nat) = 2 ^ 12 by decide]

theorem narrow_subnormal (hge : 102 ≤ e) (hle : e ≤ 112) :
    narrow x = BitVec.ofNat 16 ((s <<< 15) |||
      roundEven ((2 ^ 23 + m) / 2 ^ (126 - e)) ((2 ^ 23 + m) % 2 ^ (126 - e)) (2 ^ (125 - e))) := by
  have hman : m < 2 ^ 23 := by omega
  have hsig : 0x800000 ||| m = 2 ^ 23 + m := (Nat.two_pow_add_eq_or_of_lt hman 1).symm
  have hshift : (-((e : Int) - 127) - 1).toNat = 126 - e := by omega
  unfold narrow
  simp only [hs, he, hm]
  rw [if_neg (by omega), if_neg (by omega), if_neg (by omega), if_neg (by omega), hshift, if_neg (by omega), hsig,
    Nat.shiftRight_eq_div_pow, Nat.one_shiftLeft, Nat.one_shiftLeft, Nat.and_two_pow_sub_one_eq_mod,
    show 126 - e - 1 = 125 - e by omega]

theorem narrow_small (hlt : e < 102) : narrow x = BitVec.ofNat 16 ((s <<< 15) ||| 0) := by
  by_cases he0 : e = 0
  · exact narrow_zero hs he he0
  · have hshift : (-((e : Int) - 127) - 1).toNat = 126 - e := by omega
    rw [Nat.or_zero]
    unfold narrow
    simp only [hs, he, hm]
    rw [if_neg (by omega), if_neg he0, if_neg (by omega), if_neg (by omega), hshift, if_pos (by omega)]

end narrow

/-- The rounding of a normal result (R141): the dropped part is the low 13 bits of the mantissa. -/
theorem nearest_normal {e m : Nat} (hge : 113 ≤ e) (hle : e ≤ 142) (hm : m < 2 ^ 23) :
    Nearest (singleMagnitude (e * 2 ^ 23 + m)) (roundEven ((e - 112) * 2 ^ 10 + m / 2 ^ 13) (m % 2 ^ 13) (2 ^ 12)) := by
  obtain ⟨d, rfl⟩ : ∃ d, e = d + 113 := ⟨e - 113, by omega⟩
  have hman : m / 2 ^ 13 < 2 ^ 10 := by omega
  have hscale : 2 ^ d * 2 ^ 125 = 2 ^ 13 * 2 ^ (d + 112) := by rw [← Nat.pow_add, ← Nat.pow_add]; congr 1; omega
  refine nearest_roundEven (unit := 2 ^ (d + 112)) (by omega) ?_ (Nat.two_pow_pos _) ?_ (Nat.mod_lt _ (by decide))
  · rw [singleMagnitude_normal (by omega) hm, halfInSingleUnits, show d + 113 - 112 = d + 1 by omega,
      halfMagnitude_normal (by omega) hman, Nat.add_sub_cancel, Nat.mul_assoc, hscale, ← Nat.mul_assoc, ← Nat.add_mul,
      show d + 113 - 1 = d + 112 by omega]
    congr 1
    omega
  · rw [show ((d + 113 - 112) * 2 ^ 10 + m / 2 ^ 13) / 2 ^ 10 - 1 = d by omega, hscale]
    ring

/-- The rounding of a subnormal result (R141): the significand is shifted down to units of `2^-24`. -/
theorem nearest_subnormal {e m : Nat} (hge : 102 ≤ e) (hle : e ≤ 112) (hm : m < 2 ^ 23) :
    Nearest (singleMagnitude (e * 2 ^ 23 + m))
      (roundEven ((2 ^ 23 + m) / 2 ^ (126 - e)) ((2 ^ 23 + m) % 2 ^ (126 - e)) (2 ^ (125 - e))) := by
  have hdouble : 2 ^ (126 - e) = 2 * 2 ^ (125 - e) := by rw [← Nat.pow_succ']; congr 1; omega
  have hscale : 2 ^ 125 = 2 ^ (126 - e) * 2 ^ (e - 1) := by rw [← Nat.pow_add]; congr 1; omega
  have hq : (2 ^ 23 + m) / 2 ^ (126 - e) < 2 ^ 10 := by
    rw [Nat.div_lt_iff_lt_mul (Nat.two_pow_pos _)]
    calc 2 ^ 23 + m < 2 ^ 10 * 2 ^ 14 := by omega
      _ ≤ 2 ^ 10 * 2 ^ (126 - e) := Nat.mul_le_mul_left _ (Nat.pow_le_pow_right (by decide) (by omega))
  refine nearest_roundEven (unit := 2 ^ (e - 1)) (by omega) ?_ (Nat.two_pow_pos _) ?_ ?_
  · rw [singleMagnitude_normal (by omega) hm, halfInSingleUnits, halfMagnitude_subnormal hq, hscale, ← Nat.mul_assoc,
      ← Nat.add_mul, Nat.div_add_mod']
  · rw [Nat.div_eq_of_lt hq, hscale, hdouble]
    ring
  · rw [← hdouble]
    exact Nat.mod_lt _ (Nat.two_pow_pos _)

/-- A value below half the least subnormal. -/
theorem nearest_small {e m : Nat} (hlt : e < 102) (hm : m < 2 ^ 23) : Nearest (singleMagnitude (e * 2 ^ 23 + m)) 0 := by
  refine nearest_zero ?_
  obtain rfl | he := Nat.eq_zero_or_pos e
  · rw [singleMagnitude, if_pos (by omega)]
    have : (0 * 2 ^ 23 + m) % 2 ^ 23 = m := by omega
    rw [this]
    omega
  · rw [singleMagnitude_normal he hm]
    have hpow : 2 ^ (e - 1) ≤ 2 ^ 100 := Nat.pow_le_pow_right (by decide) (by omega)
    calc 2 * ((2 ^ 23 + m) * 2 ^ (e - 1)) ≤ 2 * ((2 ^ 23 + m) * 2 ^ 100) :=
          Nat.mul_le_mul_left _ (Nat.mul_le_mul_left _ hpow)
      _ < 2 ^ 125 := by omega

/-- A value that is not below `2^16`. -/
theorem nearest_large {e m : Nat} (hge : 143 ≤ e) (hm : m < 2 ^ 23) :
    Nearest (singleMagnitude (e * 2 ^ 23 + m)) 0x7C00 := by
  refine nearest_infinity ?_
  rw [singleMagnitude_normal (by omega) hm]
  calc halfInSingleUnits 0x7C00 = 2 ^ 23 * 2 ^ 142 := by decide
    _ ≤ (2 ^ 23 + m) * 2 ^ (e - 1) :=
      Nat.mul_le_mul (Nat.le_add_right _ _) (Nat.pow_le_pow_right (by decide) (by omega))

/-- Narrowing a finite pattern keeps the sign and takes the nearest magnitude (R141, R142). -/
theorem narrow_finite {x : Single} (hfin : x.toNat % 2 ^ 31 < 0x7F800000) :
    ∃ q, (narrow x).toNat = x.toNat / 2 ^ 31 * 2 ^ 15 + q ∧ Nearest (singleMagnitude (x.toNat % 2 ^ 31)) q := by
  obtain ⟨e, he⟩ : ∃ e, x.toNat / 2 ^ 23 % 2 ^ 8 = e := ⟨_, rfl⟩
  obtain ⟨m, hm⟩ : ∃ m, x.toNat % 2 ^ 23 = m := ⟨_, rfl⟩
  have hlow : x.toNat % 2 ^ 31 = e * 2 ^ 23 + m := by omega
  have hmlt : m < 2 ^ 23 := by omega
  have hsign : x.toNat / 2 ^ 31 < 2 := sign_lt_of_single rfl
  have hpattern : ∀ q, Nearest (singleMagnitude (e * 2 ^ 23 + m)) q →
      narrow x = BitVec.ofNat 16 ((x.toNat / 2 ^ 31) <<< 15 ||| q) →
      ∃ q, (narrow x).toNat = x.toNat / 2 ^ 31 * 2 ^ 15 + q ∧ Nearest (singleMagnitude (e * 2 ^ 23 + m)) q := by
    intro q hq hx
    have hle : q ≤ 0x7C00 := hq.1
    exact ⟨q, by rw [hx, toNat_half hsign (by omega)], hq⟩
  rw [hlow]
  obtain hr | hr | hr | hr : e < 102 ∨ (102 ≤ e ∧ e ≤ 112) ∨ (113 ≤ e ∧ e ≤ 142) ∨ 143 ≤ e := by omega
  · exact hpattern _ (nearest_small hr hmlt) (narrow_small rfl he hm hr)
  · exact hpattern _ (nearest_subnormal hr.1 hr.2 hmlt) (narrow_subnormal rfl he hm hr.1 hr.2)
  · exact hpattern _ (nearest_normal hr.1 hr.2 hmlt) (narrow_normal rfl he hm hr.1 hr.2)
  · exact hpattern _ (nearest_large hr hmlt) (narrow_large rfl he hm hr (by omega))

theorem narrow_of_infinity {x : Single} (hinf : x.toNat % 2 ^ 31 = 0x7F800000) :
    (narrow x).toNat = x.toNat / 2 ^ 31 * 2 ^ 15 + 0x7C00 := by
  have hsign : x.toNat / 2 ^ 31 < 2 := sign_lt_of_single rfl
  rw [narrow_infinity rfl rfl rfl (by omega) (by omega), toNat_half hsign (by decide)]

/-! ### What follows from the nearest magnitude -/

/-- Settles O39, by `narrow_finite`. -/
theorem narrowRoundsToNearestEven : Obligations.NarrowRoundsToNearestEven := by
  intro x hfin
  rw [ne_eq, singleExp_iff, not_le] at hfin
  obtain ⟨q, hx, hle, hnear⟩ := narrow_finite hfin
  have hlow : (narrow x).toNat % 2 ^ 15 = q := by omega
  dsimp only
  rw [hlow]
  exact ⟨by omega, hle, hnear⟩

/-- Settles O42: the nearest magnitudes are in the order of the values (`Nearest.mono`). -/
theorem narrowMonotone : Obligations.NarrowMonotone := by
  intro x y hx hy hle
  rw [ne_eq, singleExp_iff, not_le] at hx hy
  obtain ⟨q, hqx, hnear⟩ := narrow_finite hx
  obtain ⟨r, hry, hnear'⟩ := narrow_finite hy
  have hq : q ≤ 0x7C00 := hnear.1
  have hr : r ≤ 0x7C00 := hnear'.1
  rw [show (narrow x).toNat % 2 ^ 15 = q by omega, show (narrow y).toNat % 2 ^ 15 = r by omega]
  exact halfMagnitude_strictMono.monotone (hnear.mono hnear' hle)

/-- Narrowing two patterns of one magnitude, not NaN, gives one magnitude, with the sign of each. -/
theorem narrow_congr {x y : Single} (hx : x.toNat % 2 ^ 31 ≤ 0x7F800000) (hxy : x.toNat % 2 ^ 31 = y.toNat % 2 ^ 31) :
    ∃ q, q ≤ 0x7C00 ∧ (narrow x).toNat = x.toNat / 2 ^ 31 * 2 ^ 15 + q ∧ (narrow y).toNat = y.toNat / 2 ^ 31 * 2 ^ 15 + q := by
  obtain hinf | hfin := hx.eq_or_lt
  · exact ⟨0x7C00, le_rfl, narrow_of_infinity hinf, narrow_of_infinity (hxy ▸ hinf)⟩
  · obtain ⟨q, hqx, hnear⟩ := narrow_finite hfin
    obtain ⟨r, hry, hnear'⟩ := narrow_finite (hxy ▸ hfin)
    obtain rfl := hnear.unique (hxy ▸ hnear')
    exact ⟨q, hnear.1, hqx, hry⟩

/-- Settles O40: a pattern that is no NaN narrows to a magnitude of infinity at most. -/
theorem narrowInfinitiesAndNaNs : Obligations.NarrowInfinitiesAndNaNs := by
  refine ⟨BitVec.eq_of_toNat_eq (narrow_of_infinity rfl), BitVec.eq_of_toNat_eq (narrow_of_infinity rfl), fun x => ?_⟩
  by_cases hnan : singleIsNaN x = true
  · have hlow := singleIsNaN_iff.mp hnan
    rw [hnan, narrow_nan rfl rfl (by omega) (by omega)]
    exact (halfIsNaN_toNan16 _).symm
  · have hlow := mt singleIsNaN_iff.mpr hnan
    obtain ⟨q, hq, hx, -⟩ := narrow_congr (x := x) (not_lt.mp hlow) rfl
    have hhalf : ¬ halfIsNaN (narrow x) = true := by rw [halfIsNaN_iff]; omega
    rw [Bool.not_eq_true] at hnan hhalf
    rw [hnan, hhalf]

/-- Settles O41: a flipped sign leaves the magnitude, and with it the nearest one (`narrow_congr`). -/
theorem narrowOddInSign : Obligations.NarrowOddInSign := by
  intro x hnan
  have hlow : ¬ 0x7F800000 < x.toNat % 2 ^ 31 := mt singleIsNaN_iff.mpr (by rw [hnan]; decide)
  have hflip : (x ^^^ 0x80000000).toNat = x.toNat ^^^ 2 ^ 31 := BitVec.toNat_xor ..
  have hflip' : (narrow x ^^^ 0x8000).toNat = (narrow x).toNat ^^^ 2 ^ 15 := BitVec.toNat_xor ..
  obtain ⟨hmag, hsign⟩ := xor_two_pow x.toNat 31
  obtain ⟨hmag', hsign'⟩ := xor_two_pow (narrow x).toNat 15
  obtain ⟨q, hq, hx, hy⟩ := narrow_congr (x := x) (y := x ^^^ 0x80000000) (not_lt.mp hlow) (by rw [hflip, hmag])
  have hdiv : (narrow x).toNat / 2 ^ 15 = x.toNat / 2 ^ 31 := by omega
  rw [hflip, hsign] at hy
  rw [hdiv] at hsign'
  apply BitVec.eq_of_toNat_eq
  rw [hy, hflip']
  omega

/-- Settles O43: the value of a widened pattern is its own nearest magnitude (`nearest_self`). -/
theorem narrowUndoesWiden : Obligations.NarrowUndoesWiden := by
  intro h hnan
  have hlow : ¬ 0x7C00 < h.toNat % 2 ^ 15 := mt halfIsNaN_iff.mpr (by rw [hnan]; decide)
  have hh := h.isLt
  apply BitVec.eq_of_toNat_eq
  obtain hinf | hfin := (not_lt.mp hlow).eq_or_lt
  · have hw := widen_of_infinity hinf
    rw [narrow_of_infinity (by omega), hw]
    omega
  · obtain ⟨M, hw, hM, hval⟩ := widen_finite hfin
    have hmag : (widen h).toNat % 2 ^ 31 = M := by omega
    obtain ⟨q, hx, hnear⟩ := narrow_finite (hmag.symm ▸ hM)
    rw [hmag, hval] at hnear
    obtain rfl := hnear.unique (nearest_self hfin.le)
    rw [hx, hw]
    omega

end Sys2Proof.Machine
end
